-- ==== Sys2Proof/Word.lean ====
section
/-! DEFINITION. The word and the unit of AP-RFK (spec/00_scope.md R5, R8). -/

namespace Sys2Proof

/-- A command word, an operand word, a result word, a slot storage word or a binary32 value: 32 bits
(30_encoding.md R70; 10_state.md R29; D42, D47). -/
abbrev Word := BitVec 32

/-- One FIFO unit (one frame): its `UNIT_W` bits read as an unsigned number (10_state.md R24; D9). The block never
interprets a unit (20_memory.md R51, R52). `UNIT_W` is a build parameter, so the bound `u < 2 ^ UNIT_W` is checked where
a command enters the block (`Command.fits`) and is part of the state invariant. DESIGN CHOICE: log entry 7. -/
abbrev Frame := Nat

/-- `zext_32` of a count, capacity or cursor (00_scope.md R8). -/
abbrev zext32 (n : Nat) : Word := BitVec.ofNat 32 n

end Sys2Proof
end

