-- ==== Sys2Proof/Machine/Binary32.lean ====
section
/-! DEFINITION. The binary32 primitives of 00_scope.md R10 to R12: IEEE 754 single precision, computed exactly on integers
and rounded once, to nearest with ties to even, subnormal results kept. PRESUMED: log entry 13. -/

namespace Sys2Proof.Machine

/-! The constants of 00_scope.md R10 and R11. -/

/-- +0.0 -/
def f32Zero : Word := 0x00000000#32
/-- 1.0 -/
def f32One : Word := 0x3F800000#32
/-- 0.125 -/
def f32Eighth : Word := 0x3E000000#32
/-- F099: 0.99 rounded to nearest binary32 -/
def f32F099 : Word := 0x3F7D70A4#32
/-- −F099 -/
def f32NegF099 : Word := 0xBF7D70A4#32
/-- the canonical quiet NaN (00_scope.md R11) -/
def f32CanonicalNaN : Word := 0x7FC00000#32

/-- `f32_isnan` (00_scope.md R10): exponent field all ones and fraction field not zero. -/
def f32IsNaN (a : Word) : Bool := a.extractLsb' 23 8 == 0xFF#8 && a.extractLsb' 0 23 != 0#23

/-- The sign bit. -/
def f32Sign (a : Word) : Bool := a.msb

/-- The exponent and fraction fields as one number; it grows with the magnitude of the value. -/
def f32Magnitude (a : Word) : Nat := (a.extractLsb' 0 31).toNat

/-- Plus or minus infinity. -/
def f32IsInf (a : Word) : Bool := f32Magnitude a == 0x7F800000

/-- The word with the given sign bit and magnitude field. -/
def f32Pack (sign : Bool) (mag : Nat) : Word := BitVec.ofBool sign ++ BitVec.ofNat 31 mag

/-- The word with its sign bit flipped. -/
def f32Neg (a : Word) : Word := a ^^^ 0x80000000#32

/-- The magnitude of a finite value, exactly, in units of 2^−149. -/
def f32Units (a : Word) : Nat :=
  let e := f32Magnitude a / 2 ^ 23
  let f := f32Magnitude a % 2 ^ 23
  if e = 0 then f else (2 ^ 23 + f) * 2 ^ (e - 1)

/-- A finite value, exactly, in units of 2^−149. -/
def f32Value (a : Word) : Int := if f32Sign a then -(f32Units a : Int) else f32Units a

/-- The magnitude field of `n · 2^−(149 + k)` rounded to nearest, ties to even: keep 24 significant bits, or fewer where the
last kept bit would lie below 2^−149 (a subnormal result); a result past the largest finite value is infinity. -/
def f32Round (k n : Nat) : Nat :=
  let drop := max k (n.log2 - 23)
  let q := n / 2 ^ drop
  let r := n % 2 ^ drop
  let q' := if 2 ^ drop < 2 * r ∨ (2 * r = 2 ^ drop ∧ q % 2 = 1) then q + 1 else q
  min ((drop - k) * 2 ^ 23 + q') 0x7F800000

/-- `f32_add` (00_scope.md R10, R11). An exact zero sum is −0.0 only where both operands are negative. -/
def f32Add (a b : Word) : Word :=
  if f32IsNaN a || f32IsNaN b then f32CanonicalNaN
  else if f32IsInf a then (if f32IsInf b && f32Sign a != f32Sign b then f32CanonicalNaN else a)
  else if f32IsInf b then b
  else
    let z := f32Value a + f32Value b
    if z = 0 then f32Pack (f32Sign a && f32Sign b) 0
    else f32Pack (decide (z < 0)) (f32Round 0 z.natAbs)

/-- `f32_sub` (00_scope.md R10, R11): the sum with the second operand negated. -/
def f32Sub (a b : Word) : Word := f32Add a (f32Neg b)

/-- `f32_mul` (00_scope.md R10, R11). -/
def f32Mul (a b : Word) : Word :=
  if f32IsNaN a || f32IsNaN b then f32CanonicalNaN
  else
    let sign := f32Sign a != f32Sign b
    if f32IsInf a || f32IsInf b then
      if f32Magnitude a = 0 ∨ f32Magnitude b = 0 then f32CanonicalNaN else f32Pack sign 0x7F800000
    else f32Pack sign (f32Round 149 (f32Units a * f32Units b))

/-- A number that orders the non-NaN words as their values, the two zeros alike. -/
def f32Key (a : Word) : Int := if f32Sign a then -(f32Magnitude a : Int) else f32Magnitude a

/-- `f32_lt` (00_scope.md R10): the quiet less-than, false on a NaN, `−0 < +0` false. -/
def f32Lt (a b : Word) : Bool := !f32IsNaN a && !f32IsNaN b && decide (f32Key a < f32Key b)

/-- `clampf` (00_scope.md R10). -/
def clampf (v lo hi : Word) : Word := if f32Lt v lo then lo else if f32Lt hi v then hi else v

/-- `frac16` (00_scope.md R10): `f × 2^−16`, exact. -/
def frac16 (f : BitVec 16) : Word := f32Pack false (f32Round 0 (f.toNat * 2 ^ 133))

end Sys2Proof.Machine
end

