-- ==== Sys2Proof/Syntax.lean ====
section
/-! DEFINITION. The fifteen commands of AP-RFK (30_encoding.md R80), the command as an agent sends it (R70), and the
kinds of atomic step of a run (20_memory.md R57, 70_reset_and_hazards.md R230). -/

namespace Sys2Proof

/-- The selectors of FIFO_INFO (40_fifo.md R107, 10_state.md R36). -/
inductive InfoSel where
  /-- selector 0: the capacity `CAP_F[f]` -/
  | cap
  /-- selector 1: the overflow counter `OVF[f]` -/
  | ovf
  /-- selector 2: the underrun counter `UDR[f]` -/
  | udr
  deriving DecidableEq, Repr, Inhabited

/-- The slot registers, in the order of their SUB values 0 to 8 (30_encoding.md R76, 10_state.md R36). -/
inductive SlotReg where
  | cap
  | gain
  | fb
  | damp
  | damp2
  | fstate
  | tapd (t : Fin 8)
  | tapg (t : Fin 8)
  | cur
  deriving DecidableEq, Repr, Inhabited

/-- The commands of 30_encoding.md R80, one constructor per row of opcode_table.json. A constructor carries the fields
of its format (R72, R73) and what else of the command triple its rule reads: the operand word of the commands that
read one (R75) and the payload of FIFO_WRITE (R78). An operand or payload that a command ignores (R77) is not carried. -/
inductive Instr where
  /-- FIFO_WRITE: `B`, `FID`, `N`, payload (40_fifo.md R100) -/
  | fifoWrite (b : Bool) (fid : BitVec 3) (n : BitVec 24) (payload : List Frame)
  /-- FIFO_READ: `B`, `FID`, `N` (40_fifo.md R102) -/
  | fifoRead (b : Bool) (fid : BitVec 3) (n : BitVec 24)
  /-- FIFO_AVAIL_RD: `FID` (40_fifo.md R104) -/
  | fifoAvailRd (fid : BitVec 3)
  /-- FIFO_AVAIL_WR: `FID` (40_fifo.md R105) -/
  | fifoAvailWr (fid : BitVec 3)
  /-- FIFO_CLEAR: `FID` (40_fifo.md R106) -/
  | fifoClear (fid : BitVec 3)
  /-- FIFO_INFO: `FID`, selector (40_fifo.md R107) -/
  | fifoInfo (fid : BitVec 3) (sel : InfoSel)
  /-- DL_WRITE: `SID`, the raw word (41_delay_line.md R131) -/
  | dlWrite (sid : BitVec 8) (v : Word)
  /-- DL_READ: `SID`, the lookback `k` (41_delay_line.md R132) -/
  | dlRead (sid : BitVec 8) (k : BitVec 16)
  /-- DL_READI: `SID`, the UQ16.16 offset (41_delay_line.md R133) -/
  | dlReadi (sid : BitVec 8) (off : Word)
  /-- AP_STEP: `SID`, the sample (42_filter_kernels.md R151) -/
  | apStep (sid : BitVec 8) (x : Word)
  /-- COMB_STEP: `SID`, the sample (42_filter_kernels.md R156) -/
  | combStep (sid : BitVec 8) (x : Word)
  /-- ER_STEP: `SID`, the sample (42_filter_kernels.md R162) -/
  | erStep (sid : BitVec 8) (x : Word)
  /-- SLOT_WR: `SID`, the register (`SUB` and tap), the value (43_slot_config.md R181) -/
  | slotWr (sid : BitVec 8) (reg : SlotReg) (v : Word)
  /-- SLOT_RD: `SID`, the register (43_slot_config.md R189) -/
  | slotRd (sid : BitVec 8) (reg : SlotReg)
  /-- SLOT_CLR: `SID` (43_slot_config.md R190) -/
  | slotClr (sid : BitVec 8)
  deriving DecidableEq, Repr

/-- A command as it is sent on a port: the command word, the operand word and the payload (30_encoding.md R70). -/
structure Command where
  cmd : Word
  opd : Word
  payload : List Frame
  deriving DecidableEq, Repr, Inhabited

/-- One atomic step of a run: the four kinds of 20_memory.md R57, and the reset input of 70_reset_and_hazards.md R230. -/
inductive Event where
  /-- the agent of port `p` sends the command `c` -/
  | issue (p : Nat) (c : Command)
  /-- the block performs the command issued on port `p` -/
  | perform (p : Nat)
  /-- the block completes the blocked request of port `p` -/
  | complete (p : Nat)
  /-- the agent of port `p` takes the response -/
  | collect (p : Nat)
  /-- the host asserts reset -/
  | reset
  deriving DecidableEq, Repr, Inhabited

end Sys2Proof
end

