-- ==== Sys2Proof/Config.lean ====
section
/-! DEFINITION. The implementation parameters of AP-RFK (00_scope.md R5) and the values the spec leaves free. -/

namespace Sys2Proof

/-- `NUM_FIFO`, fixed at 2 for AP-RFK (00_scope.md R5). -/
def numFifo : Nat := 2

/-- The OPEN parameters of 00_scope.md R5. The model takes them as an argument: they stand in `State.cfg`, and no step
changes them (00_scope.md R6, 10_state.md R20). DESIGN CHOICE: log entry 1. -/
structure Config where
  /-- `CAP_F[f]`, the capacity of FIFO `f` in units, for `f` = 0, 1 -/
  capF : List Nat
  /-- `UNIT_W`, the width of a unit in bits -/
  unitW : Nat
  /-- `NUM_SLOTS` -/
  numSlots : Nat
  /-- `DMAX`, the storage words per slot -/
  dmax : Nat
  /-- `NUM_PORTS` -/
  numPorts : Nat
  /-- `DOMAIN_OF[p]`, the clock domain of port `p`; no rule reads it (20_memory.md R64) -/
  domainOf : List Nat
  deriving DecidableEq, Repr

/-- `CAP_F[f]`. -/
def Config.capOf (cfg : Config) (f : Nat) : Nat := cfg.capF.getD f 0

/-- The ranges of 00_scope.md R5. -/
abbrev Config.Legal (cfg : Config) : Prop :=
  cfg.capF.length = numFifo ∧ (∀ f < numFifo, 1 ≤ cfg.capOf f ∧ cfg.capOf f ≤ 2 ^ 24 - 1) ∧ 1 ≤ cfg.unitW ∧
  1 ≤ cfg.numSlots ∧ cfg.numSlots ≤ 256 ∧ 1 ≤ cfg.dmax ∧ cfg.dmax ≤ 65536 ∧ 1 ≤ cfg.numPorts ∧
  cfg.domainOf.length = cfg.numPorts

/-- The build of `Machine.State.reset`: test configuration T of 95_test_vectors.md (`CAP_F` 8 and 4, `NUM_SLOTS` 4, `DMAX` 16,
`NUM_PORTS` 4, ports in the order capture, processing, playback, control of 60_exceptions.md R217). DESIGN CHOICE: the
spec leaves these OPEN, and gives no `UNIT_W` and no domain numbers at all. Unsafe for a claim about
`Machine.State.reset` alone; a claim about `Machine.State.resetOf cfg` holds for every build. DESIGN CHOICE: log entry 1. -/
def Config.testBuild : Config where
  capF := [8, 4]
  unitW := 32
  numSlots := 4
  dmax := 16
  numPorts := 4
  domainOf := [0, 1, 2, 3]

/-- FREE VALUE: the `n`-th step a world that no agenda has scripted takes. The order of service and what the agents send
are free choices of every run (20_memory.md R57, 60_exceptions.md R204, U4); a statement holds for every value. DESIGN CHOICE: log entry 3. -/
opaque Config.worldEvent (n : Nat) : Event

/-- FREE VALUE: what index `i` of the storage of FIFO `f` holds before a unit is written there; the spec leaves it unspecified
(10_state.md R45, U1) and no run observes it (R27). DESIGN CHOICE: log entry 6. -/
opaque Config.unwrittenUnit (f i : Nat) : Frame

end Sys2Proof
end

