-- ==== Sys2Proof/WellFormed.lean ====
section
/-! DEFINITION. What makes a command term one that an agent can send. -/

namespace Sys2Proof

/-- The read-write slot registers; DAMP2, FSTATE and CUR are read-only (10_state.md R36, 43_slot_config.md R186). -/
def SlotReg.writable : SlotReg → Bool
  | .cap | .gain | .fb | .damp | .tapd _ | .tapg _ => true
  | .damp2 | .fstate | .cur => false

/-- The instructions some command word encodes. The field types leave one case of 30_encoding.md R81 to check: SLOT_WR of
a read-only register (case 5). -/
def Instr.wellFormed : Instr → Bool
  | .slotWr _ reg _ => reg.writable
  | .fifoWrite _ _ _ _ | .fifoRead _ _ _ | .fifoAvailRd _ | .fifoAvailWr _ | .fifoClear _ | .fifoInfo _ _ => true
  | .dlWrite _ _ | .dlRead _ _ | .dlReadi _ _ | .apStep _ _ | .combStep _ _ | .erStep _ _ => true
  | .slotRd _ _ | .slotClr _ => true

/-- `u` is a list of units of this build: `UNIT_W` bits each (30_encoding.md R70). -/
abbrev unitsFit (cfg : Config) (u : List Frame) : Prop := ∀ x ∈ u, x < 2 ^ cfg.unitW

/-- The command can stand on a port of this build: its payload is a list of units (30_encoding.md R70). -/
abbrev Command.fits (cfg : Config) (c : Command) : Prop := unitsFit cfg c.payload

end Sys2Proof
end

