-- ==== Sys2Proof/Decode.lean ====
section
/-! DEFINITION. The decoder of 30_encoding.md (R71 to R82), total on every command, and the encoder. -/

namespace Sys2Proof

/-- The cases of 30_encoding.md R81. Each of them is answered with status ILLEGAL. -/
inductive Illegal where
  /-- case 1: `OP = 0x0` -/
  | reservedOpcode
  /-- case 2: a must-be-zero bit is 1 -/
  | reservedBits
  /-- case 3: FIFO_INFO with `N ≥ 3` -/
  | reservedSelector
  /-- case 4: SLOT_WR or SLOT_RD with `SUB ≥ 9` -/
  | reservedRegister
  /-- case 5: SLOT_WR of a read-only register -/
  | readOnlyRegister
  deriving DecidableEq, Repr

/-! Field extraction (30_encoding.md R72, R73, R74). -/

/-- `OP = cmd[31:28]` -/
def fieldOp (w : Word) : BitVec 4 := w.extractLsb' 28 4
/-- `B = cmd[27]` -/
def fieldB (w : Word) : Bool := w.getLsbD 27
/-- `FID = cmd[26:24]` -/
def fieldFid (w : Word) : BitVec 3 := w.extractLsb' 24 3
/-- `N = cmd[23:0]` -/
def fieldN (w : Word) : BitVec 24 := w.extractLsb' 0 24
/-- `SUB = cmd[27:24]` -/
def fieldSub (w : Word) : BitVec 4 := w.extractLsb' 24 4
/-- `SID = cmd[23:16]` -/
def fieldSid (w : Word) : BitVec 8 := w.extractLsb' 16 8
/-- `IMM16 = cmd[15:0]` -/
def fieldImm (w : Word) : BitVec 16 := w.extractLsb' 0 16
/-- `t = cmd[2:0]` -/
def fieldTap (w : Word) : Fin 8 := (w.extractLsb' 0 3).toFin

/-- The must-be-zero mask of a SLOT_WR or SLOT_RD word by its SUB (30_encoding.md R81 case 2). -/
def slotAccessMask (sub : BitVec 4) : Word :=
  if sub = 6#4 ∨ sub = 7#4 then 0x0000FFF8#32 else 0x0000FFFF#32

/-- The must-be-zero mask of a command word (30_encoding.md R81 case 2). Opcode 0x0 has none: it is illegal by case 1. -/
def mustBeZero (w : Word) : Word :=
  match (fieldOp w).toNat with
  | 3 | 4 | 5 => 0x08FFFFFF#32
  | 6 => 0x08000000#32
  | 7 | 9 | 10 | 11 | 12 | 15 => 0x0F00FFFF#32
  | 8 => 0x0F000000#32
  | 13 | 14 => slotAccessMask (fieldSub w)
  | _ => 0#32

/-- The register a SUB value and tap index name (30_encoding.md R76); 9 to 15 are reserved. -/
def slotRegOf (sub : BitVec 4) (t : Fin 8) : Option SlotReg :=
  match sub.toNat with
  | 0 => some .cap
  | 1 => some .gain
  | 2 => some .fb
  | 3 => some .damp
  | 4 => some .damp2
  | 5 => some .fstate
  | 6 => some (.tapd t)
  | 7 => some (.tapg t)
  | 8 => some .cur
  | _ => none

/-- The selector of FIFO_INFO (40_fifo.md R107); 3 and above are reserved. -/
def infoSelOf (n : BitVec 24) : Option InfoSel :=
  match n.toNat with
  | 0 => some .cap
  | 1 => some .ovf
  | 2 => some .udr
  | _ => none

/-- The command by its opcode (30_encoding.md R80), once the must-be-zero bits are known to be zero. -/
def decodeFields (c : Command) : Except Illegal Instr :=
  let w := c.cmd
  match (fieldOp w).toNat with
  | 1 => .ok (.fifoWrite (fieldB w) (fieldFid w) (fieldN w) c.payload)
  | 2 => .ok (.fifoRead (fieldB w) (fieldFid w) (fieldN w))
  | 3 => .ok (.fifoAvailRd (fieldFid w))
  | 4 => .ok (.fifoAvailWr (fieldFid w))
  | 5 => .ok (.fifoClear (fieldFid w))
  | 6 =>
    match infoSelOf (fieldN w) with
    | some sel => .ok (.fifoInfo (fieldFid w) sel)
    | none => .error .reservedSelector
  | 7 => .ok (.dlWrite (fieldSid w) c.opd)
  | 8 => .ok (.dlRead (fieldSid w) (fieldImm w))
  | 9 => .ok (.dlReadi (fieldSid w) c.opd)
  | 10 => .ok (.apStep (fieldSid w) c.opd)
  | 11 => .ok (.combStep (fieldSid w) c.opd)
  | 12 => .ok (.erStep (fieldSid w) c.opd)
  | 13 =>
    match slotRegOf (fieldSub w) (fieldTap w) with
    | some reg => if reg.writable then .ok (.slotWr (fieldSid w) reg c.opd) else .error .readOnlyRegister
    | none => .error .reservedRegister
  | 14 =>
    match slotRegOf (fieldSub w) (fieldTap w) with
    | some reg => .ok (.slotRd (fieldSid w) reg)
    | none => .error .reservedRegister
  | 15 => .ok (.slotClr (fieldSid w))
  | _ => .error .reservedOpcode

/-- The decoder: the command the triple stands for, or the case of 30_encoding.md R81 that makes it illegal. -/
def decode (c : Command) : Except Illegal Instr :=
  if c.cmd &&& mustBeZero c.cmd = 0#32 then decodeFields c else .error .reservedBits

/-! The encoder, from the same tables. -/

/-- A word of format F (30_encoding.md R72). -/
def formatF (op : BitVec 4) (b : Bool) (fid : BitVec 3) (n : BitVec 24) : Word := op ++ BitVec.ofBool b ++ fid ++ n

/-- A word of format S (30_encoding.md R73). -/
def formatS (op sub : BitVec 4) (sid : BitVec 8) (imm : BitVec 16) : Word := op ++ sub ++ sid ++ imm

/-- The SUB value of a register (30_encoding.md R76). -/
def SlotReg.sub : SlotReg → BitVec 4
  | .cap => 0#4
  | .gain => 1#4
  | .fb => 2#4
  | .damp => 3#4
  | .damp2 => 4#4
  | .fstate => 5#4
  | .tapd _ => 6#4
  | .tapg _ => 7#4
  | .cur => 8#4

/-- IMM16 of a SLOT_WR or SLOT_RD: the tap index, or 0 (30_encoding.md R73). -/
def SlotReg.imm : SlotReg → BitVec 16
  | .tapd t | .tapg t => BitVec.ofNat 16 t.val
  | .cap | .gain | .fb | .damp | .damp2 | .fstate | .cur => 0#16

/-- The N field of a FIFO_INFO (40_fifo.md R107). -/
def InfoSel.code : InfoSel → BitVec 24
  | .cap => 0#24
  | .ovf => 1#24
  | .udr => 2#24

/-- The command word of an instruction (30_encoding.md R80). -/
def encodeWord : Instr → Word
  | .fifoWrite b fid n _ => formatF 1#4 b fid n
  | .fifoRead b fid n => formatF 2#4 b fid n
  | .fifoAvailRd fid => formatF 3#4 false fid 0#24
  | .fifoAvailWr fid => formatF 4#4 false fid 0#24
  | .fifoClear fid => formatF 5#4 false fid 0#24
  | .fifoInfo fid sel => formatF 6#4 false fid sel.code
  | .dlWrite sid _ => formatS 7#4 0#4 sid 0#16
  | .dlRead sid k => formatS 8#4 0#4 sid k
  | .dlReadi sid _ => formatS 9#4 0#4 sid 0#16
  | .apStep sid _ => formatS 10#4 0#4 sid 0#16
  | .combStep sid _ => formatS 11#4 0#4 sid 0#16
  | .erStep sid _ => formatS 12#4 0#4 sid 0#16
  | .slotWr sid reg _ => formatS 13#4 reg.sub sid reg.imm
  | .slotRd sid reg => formatS 14#4 reg.sub sid reg.imm
  | .slotClr sid => formatS 15#4 0#4 sid 0#16

/-- The operand word of an instruction; 0 where the command ignores it (30_encoding.md R75, R77). -/
def encodeOperand : Instr → Word
  | .dlWrite _ v | .slotWr _ _ v => v
  | .dlReadi _ off => off
  | .apStep _ x | .combStep _ x | .erStep _ x => x
  | .fifoWrite _ _ _ _ | .fifoRead _ _ _ | .fifoAvailRd _ | .fifoAvailWr _ | .fifoClear _ | .fifoInfo _ _ => 0#32
  | .dlRead _ _ | .slotRd _ _ | .slotClr _ => 0#32

/-- The payload of an instruction; empty but for FIFO_WRITE (30_encoding.md R77, R78). -/
def encodePayload : Instr → List Frame
  | .fifoWrite _ _ _ payload => payload
  | .fifoRead _ _ _ | .fifoAvailRd _ | .fifoAvailWr _ | .fifoClear _ | .fifoInfo _ _ => []
  | .dlWrite _ _ | .dlRead _ _ | .dlReadi _ _ | .apStep _ _ | .combStep _ _ | .erStep _ _ => []
  | .slotWr _ _ _ | .slotRd _ _ | .slotClr _ => []

/-- The encoder: the command triple of an instruction. -/
def encode (i : Instr) : Command := ⟨encodeWord i, encodeOperand i, encodePayload i⟩

/-! The host's numbering of an instruction's bits: the command word is bits 31..0, the operand word bits 63..32. -/

/-- The command whose bits are `w`, `nbits` of them given and the rest zero; the payload, which the table gives no bits, is
empty. DESIGN CHOICE: log entry 9. -/
def commandOfTableWord (nbits w : Nat) : Command where
  cmd := BitVec.ofNat 32 (w % 2 ^ nbits)
  opd := BitVec.ofNat 32 (w % 2 ^ nbits / 2 ^ 32)
  payload := []

/-- The instruction the decoder reads from such bits. -/
def decodeTableWord (nbits w : Nat) : Option Instr :=
  match decode (commandOfTableWord nbits w) with
  | .ok i => some i
  | .error _ => none

end Sys2Proof
end

