-- ==== Sys2Proof/Machine/State.lean ====
section
/-! DEFINITION. The whole state of AP-RFK as plain data (10_state.md), its accessors, and the state after reset (R45). -/

namespace Sys2Proof.Machine

/-- The status codes a response can carry (60_exceptions.md R200). Codes 7 to 15 are never produced. -/
inductive Status where
  | ok
  | wouldBlock
  | aborted
  | illegal
  | badId
  | badLen
  | badVal
  deriving DecidableEq, Repr, Inhabited

/-- The 4-bit code of a status (60_exceptions.md R200). -/
def Status.code : Status → BitVec 4
  | .ok => 0#4
  | .wouldBlock => 1#4
  | .aborted => 2#4
  | .illegal => 3#4
  | .badId => 4#4
  | .badLen => 5#4
  | .badVal => 6#4

/-- A response: status, result word, payload (30_encoding.md R70). -/
structure Response where
  status : Status
  result : Word
  payload : List Frame
  deriving DecidableEq, Repr, Inhabited

/-- A transfer request: what a FIFO_WRITE or FIFO_READ asks of FIFO `fid`, and what a blocked one keeps until it completes
or is aborted (40_fifo.md R110). DESIGN CHOICE: log entry 10. -/
inductive Request where
  /-- append the `n` units `payload` -/
  | write (fid n : Nat) (payload : List Frame)
  /-- remove the `n` oldest units -/
  | read (fid n : Nat)
  deriving DecidableEq, Repr

/-- The FIFO a request names. -/
def Request.fid : Request → Nat
  | .write f _ _ => f
  | .read f _ => f

/-- The number of units a request moves. -/
def Request.size : Request → Nat
  | .write _ n _ => n
  | .read _ n => n

/-- The phase of a port (10_state.md R33). -/
inductive Phase where
  /-- no command outstanding -/
  | idle
  /-- a command sent, not yet performed -/
  | issued (c : Command)
  /-- a blocking transfer whose condition was false when performed -/
  | blocked (r : Request)
  /-- a response ready for the agent -/
  | done (r : Response)
  deriving DecidableEq, Repr, Inhabited

/-- One ring FIFO (10_state.md R24). `mem` lists the storage that has been written since reset, by index; its canonical
form is `Memory.wf none` (DESIGN CHOICE, log entry 6). -/
structure Fifo where
  mem : List (Nat × Frame)
  head : Nat
  tail : Nat
  count : Nat
  ovf : BitVec 32
  udr : BitVec 32
  deriving DecidableEq, Repr

/-- A FIFO after reset (10_state.md R45). -/
def Fifo.reset : Fifo := ⟨[], 0, 0, 0, 0#32, 0#32⟩

/-- One slot: a delay line and the registers of its kernels (10_state.md R29). `buf` lists the storage words that are not
`0x00000000`, by index; its canonical form is `Memory.wf (some 0#32)` (DEDUCED, log entry 8). -/
structure Slot where
  buf : List (Nat × Word)
  cap : Nat
  cur : Nat
  gain : Word
  fb : Word
  damp : Word
  damp2 : Word
  fstate : Word
  tapd : Vector (BitVec 16) 8
  tapg : Vector Word 8
  deriving DecidableEq, Repr

/-- A slot after reset (10_state.md R45): CAP 1, DAMP2 1.0, everything else zero. -/
def Slot.reset : Slot where
  buf := []
  cap := 1
  cur := 0
  gain := 0#32
  fb := 0#32
  damp := 0#32
  damp2 := 0x3F800000#32
  fstate := 0#32
  tapd := Vector.replicate 8 0#16
  tapg := Vector.replicate 8 0#32

/-- What stops the machine: nothing. AP-RFK takes no traps, and every exceptional outcome is a status in the command's own
response (60_exceptions.md R211), so no constructor is raised by anyone; safe. -/
inductive Fault where
  deriving DecidableEq, Repr

/-- Why a step has no meaning. -/
inductive Refusal where
  /-- raised by an arm of `exec` whose instruction has no meaning yet; no arm raises it now; safe -/
  | notModelled (mnemonic : String)
  deriving DecidableEq, Repr

/-- The whole state (10_state.md R20), with the build parameters and the model's own bookkeeping. -/
structure State where
  /-- the build parameters; constant (00_scope.md R5, R6; DESIGN CHOICE, log entry 1) -/
  cfg : Config
  /-- the `NUM_FIFO` ring FIFOs (10_state.md R24) -/
  fifos : List Fifo
  /-- the `NUM_SLOTS` slots (10_state.md R29) -/
  slots : List Slot
  /-- the phase of each port (10_state.md R33) -/
  ports : List Phase
  /-- the MODEL's own: the port whose command `exec` performs (DESIGN CHOICE, log entry 4) -/
  serving : Nat
  /-- the MODEL's own: the steps the world has scripted, next first (DESIGN CHOICE, log entry 2) -/
  agenda : List Event
  /-- the MODEL's own: how many free world steps have been drawn (DESIGN CHOICE, log entry 3) -/
  draws : Nat
  deriving DecidableEq, Repr

/-- FIFO `f`. -/
def State.fifo (s : State) (f : Nat) : Fifo := s.fifos.getD f Fifo.reset

/-- Slot `sid`. -/
def State.slot (s : State) (sid : Nat) : Slot := s.slots.getD sid Slot.reset

/-- The phase of port `p`; `none` where the build has no such port. -/
def State.port? (s : State) (p : Nat) : Option Phase := s.ports[p]?

/-- Put FIFO `f`. -/
def State.setFifo (s : State) (f : Nat) (q : Fifo) : State := { s with fifos := s.fifos.set f q }

/-- Put slot `sid`. -/
def State.setSlot (s : State) (sid : Nat) (sl : Slot) : State := { s with slots := s.slots.set sid sl }

/-- Put the phase of port `p`. -/
def State.setPort (s : State) (p : Nat) (ph : Phase) : State := { s with ports := s.ports.set p ph }

/-- The block of build `cfg` right after reset (10_state.md R45), every port Idle, with nothing scripted. -/
def State.resetOf (cfg : Config) : State where
  cfg := cfg
  fifos := List.replicate numFifo Fifo.reset
  slots := List.replicate cfg.numSlots Slot.reset
  ports := List.replicate cfg.numPorts .idle
  serving := 0
  agenda := []
  draws := 0

/-- The machine right after reset, in the build of test configuration T (DESIGN CHOICE, log entry 1). -/
def State.reset : State := State.resetOf Config.testBuild

end Sys2Proof.Machine
end

