-- ==== Sys2Proof/Machine/Flags.lean ====
section
/-! DEFINITION. AP-RFK keeps no flag register (10_state.md R23); its only sticky records of outcomes are the event counters
OVF and UDR (R26). -/

namespace Sys2Proof.Machine

/-- `sat32(v + 1)` (00_scope.md R8, 10_state.md R26): a counter stops at 2^32 − 1. -/
def satInc (v : BitVec 32) : BitVec 32 := if v = 0xFFFFFFFF#32 then v else v + 1#32

/-- One overflow event (10_state.md R26). -/
def countOverflow (q : Fifo) : Fifo := { q with ovf := satInc q.ovf }

/-- One underrun event (10_state.md R26). -/
def countUnderrun (q : Fifo) : Fifo := { q with udr := satInc q.udr }

end Sys2Proof.Machine
end

