-- ==== Sys2Proof/Machine/Operands.lean ====
section
/-! DEFINITION. The operand word forms of 30_encoding.md R75, and the frame packing convention of 20_memory.md R52. -/

namespace Sys2Proof.Machine

/-- The integer part `I = opd[31:16]` of a UQ16.16 offset. -/
def offsetInt (opd : Word) : Nat := (opd.extractLsb' 16 16).toNat

/-- The fraction `F = opd[15:0]` of a UQ16.16 offset. -/
def offsetFrac (opd : Word) : BitVec 16 := opd.extractLsb' 0 16

/-- The operand of a TAPD write, `opd[15:0]`; `opd[31:16]` is ignored (43_slot_config.md R187). -/
def tapDelayOperand (opd : Word) : BitVec 16 := opd.extractLsb' 0 16

/-- The operand of a CAP write: an unsigned 32-bit integer. -/
def capOperand (opd : Word) : Nat := opd.toNat

/-- Channel `c` of a unit whose channels are `sw` bits each: bits `[(c+1)·sw − 1 : c·sw]` (20_memory.md R52, a convention
of hosts that no FIFO rule reads). -/
def frameChannel (sw c : Nat) (u : Frame) : Nat := u / 2 ^ (c * sw) % 2 ^ sw

/-- The unit that holds the given channel samples, channel 0 first (20_memory.md R52). -/
def packFrame (sw : Nat) : List Nat → Frame
  | [] => 0
  | x :: xs => x % 2 ^ sw + 2 ^ sw * packFrame sw xs

end Sys2Proof.Machine
end

