-- ==== Sys2Proof/Machine/Ops.lean ====
section
/-! DEFINITION. The shared operations: storage, the FIFO primitives (40_fifo.md R101, R103), circular addressing
(41_delay_line.md R130), the checks and the response of a command (60_exceptions.md R200 to R202), and blocking
(40_fifo.md R110 to R113). AP-RFK takes no traps and returns from none (60_exceptions.md R211, R213): its one exceptional
outcome is `refuse`, the `raise` of 00_scope.md R9. -/

namespace Sys2Proof.Machine

/-! ## Storage: lists of (index, element) in one canonical form -/

/-- The canonical form: indices strictly rising, and no entry equal to `blank`, what an unlisted index reads as (`none`:
nothing). -/
abbrev Memory.wf {α : Type} (blank : Option α) (m : List (Nat × α)) : Prop :=
  m.Pairwise (fun a b => a.1 < b.1) ∧ ∀ e ∈ m, some e.2 ≠ blank

/-- The entry listed at index `i`. -/
def memFind {α : Type} (m : List (Nat × α)) (i : Nat) : Option α :=
  match m with
  | [] => none
  | (a, v) :: r => if a = i then some v else memFind r i

/-- The list with the entry at `i` set to `e`, or removed where `e` is `none`. -/
def memPut {α : Type} (i : Nat) (e : Option α) : List (Nat × α) → List (Nat × α)
  | [] => e.toList.map (i, ·)
  | (a, v) :: r =>
    if i < a then e.toList.map (i, ·) ++ (a, v) :: r
    else if i = a then e.toList.map (i, ·) ++ r
    else (a, v) :: memPut i e r

/-! ## FIFO storage -/

/-- What a unit of FIFO `f` reads as where nothing was written since reset: a free value of `w` bits (10_state.md R45, U1;
DESIGN CHOICE, log entry 6). -/
def unwritten (w f i : Nat) : Frame := Config.unwrittenUnit f i % 2 ^ w

/-- `FifoMem(f, i)` (00_scope.md R9), units being `w` bits wide. -/
def loadUnit (w f : Nat) (q : Fifo) (i : Nat) : Frame := (memFind q.mem i).getD (unwritten w f i)

/-- The stores of 40_fifo.md R101: unit `i`, `i + 1`, … of the batch at `(head + i) mod C`, …. -/
def storeUnits (c head : Nat) : Nat → List Frame → List (Nat × Frame) → List (Nat × Frame)
  | _, [], m => m
  | i, u :: us, m => storeUnits c head (i + 1) us (memPut ((head + i) % c) (some u) m)

/-- `enqueue` (40_fifo.md R101) on a FIFO of capacity `c`. -/
def enqueue (c : Nat) (u : List Frame) (q : Fifo) : Fifo :=
  { q with mem := storeUnits c q.head 0 u q.mem
           head := (q.head + u.length) % c
           count := q.count + u.length }

/-- The units at `(tail + i) mod C` for `i = 0 .. n − 1`, the loads of 40_fifo.md R103. -/
def oldestUnits (w f c n : Nat) (q : Fifo) : List Frame :=
  (List.range n).map fun i => loadUnit w f q ((q.tail + i) % c)

/-- What `dequeue` (40_fifo.md R103) leaves; the units it returns are `oldestUnits`. -/
def dequeue (c n : Nat) (q : Fifo) : Fifo := { q with tail := (q.tail + n) % c, count := q.count - n }

/-- `Q[f]`, the content of FIFO `f`, oldest first (10_state.md R27). -/
def fifoContent (s : State) (f : Nat) : List Frame :=
  oldestUnits s.cfg.unitW f (s.cfg.capOf f) (s.fifo f).count (s.fifo f)

/-! ## Slot storage and circular addressing (41_delay_line.md R130) -/

/-- `Buf(s, i)` (00_scope.md R9): an unlisted word is `0x00000000`, as reset leaves it (10_state.md R45). -/
def bufRead (sl : Slot) (i : Nat) : Word := (memFind sl.buf i).getD 0#32

/-- `Buf(s, i) <- v` (00_scope.md R9). -/
def bufWrite (sl : Slot) (i : Nat) (v : Word) : Slot :=
  { sl with buf := memPut i (if v = 0#32 then none else some v) sl.buf }

/-- `dl_index(s, k) = (CUR − 1 − min(k, CAP − 1)) mod CAP`. -/
def dlIndex (sl : Slot) (k : Nat) : Nat :=
  (((sl.cur : Int) - 1 - (min k (sl.cap - 1) : Nat)) % (sl.cap : Int)).toNat

/-- `dl_read(s, k)`. -/
def dlRead (sl : Slot) (k : Nat) : Word := bufRead sl (dlIndex sl k)

/-- `dl_write(s, v)`. -/
def dlWrite (sl : Slot) (v : Word) : Slot :=
  { bufWrite sl sl.cur v with cur := (sl.cur + 1) % sl.cap }

/-- The delayed sample `Buf(s, w)` of 42_filter_kernels.md R150: the word at the cursor. -/
def delayedSample (sl : Slot) : Word := bufRead sl sl.cur

/-- The zeroing of CAP writes and SLOT_CLR (43_slot_config.md R182, R190): storage, CUR and FSTATE. -/
def clearHistory (sl : Slot) : Slot := { sl with buf := [], cur := 0, fstate := 0#32 }

/-! ## Responses and checks -/

/-- `respond` (00_scope.md R9): the port being served is Done. -/
def respond (st : Status) (result : Word) (payload : List Frame) (s : State) : State :=
  s.setPort s.serving (.done ⟨st, result, payload⟩)

/-- `raise` (00_scope.md R9): a response with no write to any state element (60_exceptions.md R201). -/
def refuse (st : Status) (s : State) : State := respond st 0#32 [] s

/-- `FID < NUM_FIFO` or `SID < NUM_SLOTS` (60_exceptions.md R202). -/
def targetExists (cfg : Config) : Instr → Bool
  | .fifoWrite _ fid _ _ | .fifoRead _ fid _ | .fifoAvailRd fid | .fifoAvailWr fid | .fifoClear fid | .fifoInfo fid _ =>
    decide (fid.toNat < numFifo)
  | .dlWrite sid _ | .dlRead sid _ | .dlReadi sid _ | .apStep sid _ | .combStep sid _ | .erStep sid _
  | .slotWr sid _ _ | .slotRd sid _ | .slotClr sid => decide (sid.toNat < cfg.numSlots)

/-- The payload of a FIFO_WRITE has `N` units (30_encoding.md R78, 60_exceptions.md R202). -/
def lengthMatches : Instr → Bool
  | .fifoWrite _ _ n payload => payload.length == n.toNat
  | .fifoRead _ _ _ | .fifoAvailRd _ | .fifoAvailWr _ | .fifoClear _ | .fifoInfo _ _ => true
  | .dlWrite _ _ | .dlRead _ _ | .dlReadi _ _ | .apStep _ _ | .combStep _ _ | .erStep _ _ => true
  | .slotWr _ _ _ | .slotRd _ _ | .slotClr _ => true

/-- The registers that refuse a NaN: GAIN, FB, DAMP and TAPG (60_exceptions.md R200, R202). -/
def refusesNaN : SlotReg → Bool
  | .gain | .fb | .damp | .tapg _ => true
  | .cap | .damp2 | .fstate | .tapd _ | .cur => false

/-- A SLOT_WR of such a register has an operand that is no NaN (60_exceptions.md R202). -/
def operandLegal : Instr → Bool
  | .slotWr _ reg v => !(refusesNaN reg && f32IsNaN v)
  | .fifoWrite _ _ _ _ | .fifoRead _ _ _ | .fifoAvailRd _ | .fifoAvailWr _ | .fifoClear _ | .fifoInfo _ _ => true
  | .dlWrite _ _ | .dlRead _ _ | .dlReadi _ _ | .apStep _ _ | .combStep _ _ | .erStep _ _ => true
  | .slotRd _ _ | .slotClr _ => true

/-- The checks of 60_exceptions.md R202 in their order; the first that fails gives the status. They read only the command
and the build parameters. (An ILLEGAL word never gets this far: the decoder has none for it; what is left here is a term
that no word encodes. DEDUCED: log entry 14.) -/
def checkCommand (cfg : Config) (i : Instr) : Option Status :=
  if !i.wellFormed then some .illegal
  else if !targetExists cfg i then some .badId
  else if !lengthMatches i then some .badLen
  else if !operandLegal i then some .badVal
  else none

/-- The rule of a command, run once the checks have passed. -/
def checked (i : Instr) (rule : State → State) (s : State) : State :=
  match checkCommand s.cfg i with
  | some st => refuse st s
  | none => rule s

/-! ## Transfers and blocking (40_fifo.md R100, R102, R110 to R113) -/

/-- The condition of a transfer (40_fifo.md R111): room for a write, units for a read. -/
def requestReady (s : State) : Request → Bool
  | .write f n _ => decide ((s.fifo f).count + n ≤ s.cfg.capOf f)
  | .read f n => decide (n ≤ (s.fifo f).count)

/-- The transfer itself, answered OK on the port being served. -/
def transfer (r : Request) (s : State) : State :=
  match r with
  | .write f _ u => respond .ok 0#32 [] (s.setFifo f (enqueue (s.cfg.capOf f) u (s.fifo f)))
  | .read f n =>
    respond .ok 0 (oldestUnits s.cfg.unitW f (s.cfg.capOf f) n (s.fifo f))
      (s.setFifo f (dequeue (s.cfg.capOf f) n (s.fifo f)))

/-- The event counted when a non-blocking transfer fails (10_state.md R26). -/
def countFailure (r : Request) (s : State) : State :=
  match r with
  | .write f _ _ => s.setFifo f (countOverflow (s.fifo f))
  | .read f _ => s.setFifo f (countUnderrun (s.fifo f))

/-- `block` (00_scope.md R9, 40_fifo.md R110): the port being served waits with its request, and nothing else changes. -/
def block (r : Request) (s : State) : State := s.setPort s.serving (.blocked r)

/-- A FIFO_WRITE or FIFO_READ at its perform step (40_fifo.md R100, R102): all of the transfer, or WOULDBLOCK and one event
counted, or, with `b`, blocking. -/
def attempt (b : Bool) (r : Request) (s : State) : State :=
  if requestReady s r then transfer r s
  else if b then block r s
  else respond .wouldBlock 0#32 [] (countFailure r s)

/-- What FIFO_CLEAR of FIFO `f` does to a port (40_fifo.md R106, R113): a request blocked on `f` is aborted. -/
def abortPhase (f : Nat) : Phase → Phase
  | .blocked r => if r.fid = f then .done ⟨.aborted, 0#32, []⟩ else .blocked r
  | .idle => .idle
  | .issued c => .issued c
  | .done r => .done r

/-- FIFO `f` emptied, its storage and counters kept, and every request blocked on it aborted (40_fifo.md R106). -/
def clearFifo (f : Nat) (s : State) : State :=
  { s.setFifo f { s.fifo f with head := 0, tail := 0, count := 0 } with ports := s.ports.map (abortPhase f) }

end Sys2Proof.Machine
end

