-- ==== Sys2Proof/Machine/DelayLine.lean ====
section
/-! DEFINITION. The delay-line commands (41_delay_line.md). -/

namespace Sys2Proof.Machine

/-- DL_WRITE (41_delay_line.md R131): the word is stored bit for bit. -/
def execDlWrite (sid : BitVec 8) (v : Word) (s : State) : Host.Outcome State Fault Refusal :=
  .next (checked (.dlWrite sid v)
    (fun s => respond .ok 0#32 [] (s.setSlot sid.toNat (dlWrite (s.slot sid.toNat) v))) s)

/-- DL_READ (41_delay_line.md R132). -/
def execDlRead (sid : BitVec 8) (k : BitVec 16) (s : State) : Host.Outcome State Fault Refusal :=
  .next (checked (.dlRead sid k) (fun s => respond .ok (dlRead (s.slot sid.toNat) k.toNat) [] s) s)

/-- The value DL_READI returns (41_delay_line.md R133): the word itself where the fraction is 0, else
`a + fr × (b − a)`, each primitive rounded. -/
def interpolate (sl : Slot) (off : Word) : Word :=
  let a := dlRead sl (offsetInt off)
  if offsetFrac off = 0#16 then a
  else
    let b := dlRead sl (offsetInt off + 1)
    f32Add a (f32Mul (frac16 (offsetFrac off)) (f32Sub b a))

/-- DL_READI (41_delay_line.md R133). -/
def execDlReadi (sid : BitVec 8) (off : Word) (s : State) : Host.Outcome State Fault Refusal :=
  .next (checked (.dlReadi sid off) (fun s => respond .ok (interpolate (s.slot sid.toNat) off) [] s) s)

end Sys2Proof.Machine
end

