-- ==== Sys2Proof/Machine/Fifo.lean ====
section
/-! DEFINITION. The ring FIFO commands (40_fifo.md). -/

namespace Sys2Proof.Machine

/-- FIFO_WRITE (40_fifo.md R100). -/
def execFifoWrite (b : Bool) (fid : BitVec 3) (n : BitVec 24) (payload : List Frame) (s : State) :
    Host.Outcome State Fault Refusal :=
  .next (checked (.fifoWrite b fid n payload) (attempt b (.write fid.toNat n.toNat payload)) s)

/-- FIFO_READ (40_fifo.md R102). -/
def execFifoRead (b : Bool) (fid : BitVec 3) (n : BitVec 24) (s : State) : Host.Outcome State Fault Refusal :=
  .next (checked (.fifoRead b fid n) (attempt b (.read fid.toNat n.toNat)) s)

/-- FIFO_AVAIL_RD (40_fifo.md R104): the result is `count[f]`. -/
def execFifoAvailRd (fid : BitVec 3) (s : State) : Host.Outcome State Fault Refusal :=
  .next (checked (.fifoAvailRd fid) (fun s => respond .ok (zext32 (s.fifo fid.toNat).count) [] s) s)

/-- FIFO_AVAIL_WR (40_fifo.md R105): the result is `C − count[f]`. -/
def execFifoAvailWr (fid : BitVec 3) (s : State) : Host.Outcome State Fault Refusal :=
  .next (checked (.fifoAvailWr fid)
    (fun s => respond .ok (zext32 (s.cfg.capOf fid.toNat - (s.fifo fid.toNat).count)) [] s) s)

/-- FIFO_CLEAR (40_fifo.md R106). -/
def execFifoClear (fid : BitVec 3) (s : State) : Host.Outcome State Fault Refusal :=
  .next (checked (.fifoClear fid) (fun s => respond .ok 0#32 [] (clearFifo fid.toNat s)) s)

/-- The information word of a selector (40_fifo.md R107). -/
def infoWord (s : State) (f : Nat) : InfoSel → Word
  | .cap => zext32 (s.cfg.capOf f)
  | .ovf => (s.fifo f).ovf
  | .udr => (s.fifo f).udr

/-- FIFO_INFO (40_fifo.md R107). -/
def execFifoInfo (fid : BitVec 3) (sel : InfoSel) (s : State) : Host.Outcome State Fault Refusal :=
  .next (checked (.fifoInfo fid sel) (fun s => respond .ok (infoWord s fid.toNat sel) [] s) s)

end Sys2Proof.Machine
end

