-- ==== Sys2Proof/Machine/Kernels.lean ====
section
/-! DEFINITION. The filter kernel commands (42_filter_kernels.md). Each expression is nested as its rule nests it, every
primitive rounded before the next reads it (00_scope.md R12). -/

namespace Sys2Proof.Machine

/-- The all-pass output `d − g·x` (42_filter_kernels.md R151). -/
def allPassOutput (sl : Slot) (x : Word) : Word := f32Sub (delayedSample sl) (f32Mul sl.gain x)

/-- The word the all-pass stores, `x + g·d` (42_filter_kernels.md R151). -/
def allPassStore (sl : Slot) (x : Word) : Word := f32Add x (f32Mul sl.gain (delayedSample sl))

/-- AP_STEP (42_filter_kernels.md R151). -/
def execApStep (sid : BitVec 8) (x : Word) (s : State) : Host.Outcome State Fault Refusal :=
  .next (checked (.apStep sid x)
    (fun s =>
      let sl := s.slot sid.toNat
      respond .ok (allPassOutput sl x) [] (s.setSlot sid.toNat (dlWrite sl (allPassStore sl x)))) s)

/-- The comb's next filter state, `d·DAMP2 + FSTATE·DAMP` (42_filter_kernels.md R156). -/
def combState (sl : Slot) : Word :=
  f32Add (f32Mul (delayedSample sl) sl.damp2) (f32Mul sl.fstate sl.damp)

/-- The word the comb stores, `x + fs·FB` (42_filter_kernels.md R156). -/
def combStore (sl : Slot) (x : Word) : Word := f32Add x (f32Mul (combState sl) sl.fb)

/-- COMB_STEP (42_filter_kernels.md R156): the result is the word at the cursor before the step, bit for bit. -/
def execCombStep (sid : BitVec 8) (x : Word) (s : State) : Host.Outcome State Fault Refusal :=
  .next (checked (.combStep sid x)
    (fun s =>
      let sl := s.slot sid.toNat
      respond .ok (delayedSample sl) []
        (s.setSlot sid.toNat (dlWrite { sl with fstate := combState sl } (combStore sl x)))) s)

/-- The tap loop of 42_filter_kernels.md R162: from +0.0, the taps 0 to 7 in order. -/
def tapSum (sl : Slot) : Word :=
  (List.finRange 8).foldl (fun acc t => f32Add acc (f32Mul sl.tapg[t] (dlRead sl sl.tapd[t].toNat))) f32Zero

/-- ER_STEP (42_filter_kernels.md R162): the sample is written first, then the taps are read. -/
def execErStep (sid : BitVec 8) (x : Word) (s : State) : Host.Outcome State Fault Refusal :=
  .next (checked (.erStep sid x)
    (fun s =>
      let sl := dlWrite (s.slot sid.toNat) x
      respond .ok (f32Mul (tapSum sl) f32Eighth) [] (s.setSlot sid.toNat sl)) s)

end Sys2Proof.Machine
end

