-- ==== Sys2Proof/Machine/SlotConfig.lean ====
section
/-! DEFINITION. The slot configuration commands (43_slot_config.md). -/

namespace Sys2Proof.Machine

/-- `write_CAP` (43_slot_config.md R182): the clamped capacity, and a destructive reset of the history. -/
def writeCap (dmax : Nat) (sl : Slot) (v : Word) : Slot :=
  { clearHistory sl with cap := min (max (capOperand v) 1) dmax }

/-- `write_GAIN` (43_slot_config.md R183). -/
def writeGain (sl : Slot) (v : Word) : Slot := { sl with gain := clampf v f32NegF099 f32F099 }

/-- `write_FB` (43_slot_config.md R184). -/
def writeFb (sl : Slot) (v : Word) : Slot := { sl with fb := clampf v f32Zero f32F099 }

/-- `write_DAMP` (43_slot_config.md R185): DAMP, and DAMP2 = 1 − DAMP rounded once. -/
def writeDamp (sl : Slot) (v : Word) : Slot :=
  let d := clampf v f32Zero f32One
  { sl with damp := d, damp2 := f32Sub f32One d }

/-- The write of one slot register (43_slot_config.md R181, R182 to R188). A read-only register is not written (R186; the
command is refused before it gets here). -/
def writeReg (dmax : Nat) (sl : Slot) (reg : SlotReg) (v : Word) : Slot :=
  match reg with
  | .cap => writeCap dmax sl v
  | .gain => writeGain sl v
  | .fb => writeFb sl v
  | .damp => writeDamp sl v
  | .tapd t => { sl with tapd := sl.tapd.set t (tapDelayOperand v) }
  | .tapg t => { sl with tapg := sl.tapg.set t v }
  | .damp2 | .fstate | .cur => sl

/-- SLOT_WR (43_slot_config.md R181). -/
def execSlotWr (sid : BitVec 8) (reg : SlotReg) (v : Word) (s : State) : Host.Outcome State Fault Refusal :=
  .next (checked (.slotWr sid reg v)
    (fun s => respond .ok 0#32 [] (s.setSlot sid.toNat (writeReg s.cfg.dmax (s.slot sid.toNat) reg v))) s)

/-- The value of one slot register (43_slot_config.md R189). -/
def readReg (sl : Slot) : SlotReg → Word
  | .cap => zext32 sl.cap
  | .gain => sl.gain
  | .fb => sl.fb
  | .damp => sl.damp
  | .damp2 => sl.damp2
  | .fstate => sl.fstate
  | .tapd t => sl.tapd[t].setWidth 32
  | .tapg t => sl.tapg[t]
  | .cur => zext32 sl.cur

/-- SLOT_RD (43_slot_config.md R189). -/
def execSlotRd (sid : BitVec 8) (reg : SlotReg) (s : State) : Host.Outcome State Fault Refusal :=
  .next (checked (.slotRd sid reg) (fun s => respond .ok (readReg (s.slot sid.toNat) reg) [] s) s)

/-- SLOT_CLR (43_slot_config.md R190). -/
def execSlotClr (sid : BitVec 8) (s : State) : Host.Outcome State Fault Refusal :=
  .next (checked (.slotClr sid)
    (fun s => respond .ok 0#32 [] (s.setSlot sid.toNat (clearHistory (s.slot sid.toNat)))) s)

end Sys2Proof.Machine
end

