-- ==== Sys2Proof/Machine/Dispatch.lean ====
section
/-! DEFINITION. One arm per instruction (30_encoding.md R80): the instruction performed on the port being served. -/

namespace Sys2Proof.Machine

def exec (i : Instr) (s : State) : Host.Outcome State Fault Refusal :=
  match i with
  | .fifoWrite b fid n payload => Sys2Proof.Machine.execFifoWrite b fid n payload s
  | .fifoRead b fid n => Sys2Proof.Machine.execFifoRead b fid n s
  | .fifoAvailRd fid => Sys2Proof.Machine.execFifoAvailRd fid s
  | .fifoAvailWr fid => Sys2Proof.Machine.execFifoAvailWr fid s
  | .fifoClear fid => Sys2Proof.Machine.execFifoClear fid s
  | .fifoInfo fid sel => Sys2Proof.Machine.execFifoInfo fid sel s
  | .dlWrite sid v => Sys2Proof.Machine.execDlWrite sid v s
  | .dlRead sid k => Sys2Proof.Machine.execDlRead sid k s
  | .dlReadi sid off => Sys2Proof.Machine.execDlReadi sid off s
  | .apStep sid x => Sys2Proof.Machine.execApStep sid x s
  | .combStep sid x => Sys2Proof.Machine.execCombStep sid x s
  | .erStep sid x => Sys2Proof.Machine.execErStep sid x s
  | .slotWr sid reg v => Sys2Proof.Machine.execSlotWr sid reg v s
  | .slotRd sid reg => Sys2Proof.Machine.execSlotRd sid reg s
  | .slotClr sid => Sys2Proof.Machine.execSlotClr sid s

end Sys2Proof.Machine
end

