-- ==== Sys2Proof/Machine/Events.lean ====
section
/-! DEFINITION. The steps of a run other than performing a legal command (20_memory.md R57, 70_reset_and_hazards.md R230),
which step comes next, and which steps are enabled. -/

namespace Sys2Proof.Machine

/-- The command the block would perform on port `p`: the one issued there. -/
def issuedCommand (p : Nat) (s : State) : Option Command :=
  match s.port? p with
  | some (.issued c) => some c
  | some .idle | some (.blocked _) | some (.done _) | none => none

/-- The request of port `p` that the block may complete: a blocked one whose condition holds (40_fifo.md R111). -/
def readyRequest (p : Nat) (s : State) : Option Request :=
  match s.port? p with
  | some (.blocked r) => if requestReady s r then some r else none
  | some .idle | some (.issued _) | some (.done _) | none => none

/-- Port `p` has a response to collect. -/
def hasResponse (p : Nat) (s : State) : Bool :=
  match s.port? p with
  | some (.done _) => true
  | some .idle | some (.issued _) | some (.blocked _) | none => false

/-- Whether a step may be the next one (20_memory.md R57; 10_state.md R34; 40_fifo.md R111). An agent can only send a payload
of units of this build (30_encoding.md R70); reset may be asserted at any step (70_reset_and_hazards.md R230). -/
def enabled (s : State) : Event → Bool
  | .issue p c => s.port? p == some .idle && decide (c.fits s.cfg)
  | .perform p => (issuedCommand p s).isSome
  | .complete p => (readyRequest p s).isSome
  | .collect p => hasResponse p s
  | .reset => true

/-- The block turns to port `p` (DESIGN CHOICE, log entry 4). -/
def serve (p : Nat) (s : State) : State := { s with serving := p }

/-- issue: `port[p] <- Issued(c)`. -/
def issueStep (p : Nat) (c : Command) (s : State) : State :=
  if enabled s (.issue p c) then s.setPort p (.issued c) else s

/-- complete: the transfer of the blocked request, answered OK (40_fifo.md R111). -/
def completeStep (p : Nat) (s : State) : State :=
  match readyRequest p s with
  | some r => transfer r (serve p s)
  | none => s

/-- collect: `port[p] <- Idle`. -/
def collectStep (p : Nat) (s : State) : State := if hasResponse p s then s.setPort p .idle else s

/-- Reset (70_reset_and_hazards.md R230): every state element takes its value of 10_state.md R45 and every port is Idle. The
build stays, and so does what the world has scripted and drawn: that is not the block's. DESIGN CHOICE: log entry 17. -/
def resetStep (s : State) : State := { State.resetOf s.cfg with agenda := s.agenda, draws := s.draws }

/-- An illegal command word: ILLEGAL and no effect (30_encoding.md R81, 60_exceptions.md R201). -/
def illegalStep (p : Nat) (s : State) : State := refuse .illegal (serve p s)

/-- The step the world takes next, and the state in which it is taken: the first of the agenda, or, where nothing is
scripted, a free one (DESIGN CHOICE, log entries 2 and 3). -/
def nextEvent (s : State) : Event × State :=
  match s.agenda with
  | e :: rest => (e, { s with agenda := rest })
  | [] => (Config.worldEvent s.draws, { s with draws := s.draws + 1 })

/-- A step of the world that performs no command. One that is not enabled changes nothing (DESIGN CHOICE, log entry 5). -/
def worldStep (e : Event) (s : State) : State :=
  match e with
  | .issue p c => issueStep p c s
  | .complete p => completeStep p s
  | .collect p => collectStep p s
  | .reset => resetStep s
  | .perform _ => s

/-- `s` with `c` issued on port 0 and its performing scripted next: what the host's `withFetchWord` places (DESIGN CHOICE, log entries 9 and
12). -/
def placeCommand (c : Command) (s : State) : State :=
  { s.setPort 0 (.issued c) with agenda := .perform 0 :: s.agenda }

end Sys2Proof.Machine
end

