-- ==== Sys2Proof/Machine/Step.lean ====
section
/-! DEFINITION. One atomic step of a run (20_memory.md R57), and how the host places an instruction. -/

namespace Sys2Proof.Machine

/-- A perform step of port `p`: the block decodes and performs the command issued there (20_memory.md R55, R57). -/
def performStep (p : Nat) (s : State) : Host.Outcome State Fault Refusal :=
  match issuedCommand p s with
  | none => .next s
  | some c =>
    match decode c with
    | .ok i => exec i (serve p s)
    | .error _ => .next (illegalStep p s)

/-- The atomic step `e` taken in `s`. -/
def takeEvent (e : Event) (s : State) : Host.Outcome State Fault Refusal :=
  match e with
  | .perform p => performStep p s
  | .issue p c => .next (worldStep (.issue p c) s)
  | .complete p => .next (worldStep (.complete p) s)
  | .collect p => .next (worldStep (.collect p) s)
  | .reset => .next (worldStep .reset s)

/-- One atomic step: the one the world takes next. -/
def step (s : State) : Host.Outcome State Fault Refusal := takeEvent (nextEvent s).1 (nextEvent s).2

/-- `s` with the instruction whose bits are `w` placed so that the next step performs it: AP-RFK fetches nothing, so its
command is issued on port 0 and the perform step of port 0 is scripted next (DESIGN CHOICE, log entries 9 and 12). -/
def State.withFetchWord (s : State) (nbits w : Nat) : State := placeCommand (commandOfTableWord nbits w) s

end Sys2Proof.Machine
end

