-- ==== Sys2Proof/Machine/Assembly.lean ====
section
/-! DEFINITION. The assembly lines of 30_encoding.md R84 and R85: what each encodes, and how it is written. DESIGN CHOICE: log entry 16. -/

namespace Sys2Proof.Machine

/-- A line of assembly: a line of R84, which names a command, or a pseudo-command of R85. -/
inductive AsmLine where
  | core (i : Instr)
  /-- `fifo.cap fF` -/
  | fifoCap (fid : BitVec 3)
  /-- `fifo.ovf fF` -/
  | fifoOvf (fid : BitVec 3)
  /-- `fifo.udr fF` -/
  | fifoUdr (fid : BitVec 3)
  /-- `slot.setcap sS, D` -/
  | slotSetcap (sid : BitVec 8) (d : Word)
  /-- `dl.delay sS, X` -/
  | dlDelay (sid : BitVec 8) (x : Word)
  deriving DecidableEq, Repr

/-- The command a line stands for (30_encoding.md R85). -/
def expandLine : AsmLine → Instr
  | .core i => i
  | .fifoCap fid => .fifoInfo fid .cap
  | .fifoOvf fid => .fifoInfo fid .ovf
  | .fifoUdr fid => .fifoInfo fid .udr
  | .slotSetcap sid d => .slotWr sid .cap d
  | .dlDelay sid x => .apStep sid x

/-- The command triple a line assembles to (30_encoding.md R84, R85). -/
def assemble (l : AsmLine) : Command := encode (expandLine l)

/-! Literals (30_encoding.md R84). -/

/-- The binary32 nearest to `num / den`, negated where `neg`: what the assembler makes of a decimal literal. The quotient is
kept to two bits below the last one that can count, the lowest of them sticky. -/
def f32OfRatio (neg : Bool) (num den : Nat) : Word :=
  let q := num * 2 ^ 150 / den
  let sticky := if num * 2 ^ 150 % den = 0 then 0 else 1
  f32Pack neg (f32Round 2 (2 * q + sticky))

/-- The UQ16.16 word of the offset `num / den`, converted exactly: only a multiple of 2^−16 below 2^16 has one. -/
def offsetOfRatio (num den : Nat) : Option Word :=
  if num * 2 ^ 16 % den = 0 ∧ num * 2 ^ 16 / den < 2 ^ 32 then some (BitVec.ofNat 32 (num * 2 ^ 16 / den)) else none

/-! How a line is written (30_encoding.md R84): integers in decimal, words in hexadecimal. -/

/-- `0x` and the eight hexadecimal digits of a word. -/
def hexWord (w : Word) : String := "0x" ++ w.toHex

/-- `[u0, u1, …]` -/
def unitsText (u : List Frame) : String := "[" ++ String.intercalate ", " (u.map toString) ++ "]"

/-- The name of a register, with its tap. -/
def regText : SlotReg → String
  | .cap => "cap"
  | .gain => "gain"
  | .fb => "fb"
  | .damp => "damp"
  | .damp2 => "damp2"
  | .fstate => "fstate"
  | .tapd t => "tapd[" ++ toString t.val ++ "]"
  | .tapg t => "tapg[" ++ toString t.val ++ "]"
  | .cur => "cur"

/-- The selector of `fifo.info`. -/
def selText (sel : InfoSel) : String := toString sel.code.toNat

/-- ` fF` -/
def fifoText (fid : BitVec 3) : String := " f" ++ toString fid.toNat

/-- ` sS` -/
def slotText (sid : BitVec 8) : String := " s" ++ toString sid.toNat

/-- `.b` for a blocking transfer. -/
def blockingText (b : Bool) : String := if b then ".b" else ""

/-- A command as R84 writes it. -/
def instrText : Instr → String
  | .fifoWrite b fid n u =>
    "fifo.write" ++ blockingText b ++ fifoText fid ++ ", " ++ toString n.toNat ++ ", " ++ unitsText u
  | .fifoRead b fid n => "fifo.read" ++ blockingText b ++ fifoText fid ++ ", " ++ toString n.toNat
  | .fifoAvailRd fid => "fifo.avail.rd" ++ fifoText fid
  | .fifoAvailWr fid => "fifo.avail.wr" ++ fifoText fid
  | .fifoClear fid => "fifo.clear" ++ fifoText fid
  | .fifoInfo fid sel => "fifo.info" ++ fifoText fid ++ ", " ++ selText sel
  | .dlWrite sid v => "dl.write" ++ slotText sid ++ ", " ++ hexWord v
  | .dlRead sid k => "dl.read" ++ slotText sid ++ ", " ++ toString k.toNat
  | .dlReadi sid off => "dl.readi" ++ slotText sid ++ ", " ++ hexWord off
  | .apStep sid x => "ap.step" ++ slotText sid ++ ", " ++ hexWord x
  | .combStep sid x => "comb.step" ++ slotText sid ++ ", " ++ hexWord x
  | .erStep sid x => "er.step" ++ slotText sid ++ ", " ++ hexWord x
  | .slotWr sid reg v => "slot.wr" ++ slotText sid ++ ", " ++ regText reg ++ ", " ++ hexWord v
  | .slotRd sid reg => "slot.rd" ++ slotText sid ++ ", " ++ regText reg
  | .slotClr sid => "slot.clr" ++ slotText sid

/-- A line as R84 and R85 write it. -/
def lineText : AsmLine → String
  | .core i => instrText i
  | .fifoCap fid => "fifo.cap" ++ fifoText fid
  | .fifoOvf fid => "fifo.ovf" ++ fifoText fid
  | .fifoUdr fid => "fifo.udr" ++ fifoText fid
  | .slotSetcap sid d => "slot.setcap" ++ slotText sid ++ ", " ++ toString d.toNat
  | .dlDelay sid x => "dl.delay" ++ slotText sid ++ ", " ++ hexWord x

end Sys2Proof.Machine
end

