-- ==== Sys2Proof/Safety.lean ====
section
/-! DEFINITION. The words claims about AP-RFK use: the state invariant (10_state.md R25, R30), reachable states and fair runs
(20_memory.md R57, 70_reset_and_hazards.md R251), what a step leaves unchanged, and the duties of hosts. -/

namespace Sys2Proof.Machine

/-! ## The state invariant -/

/-- `v` is no NaN and `lo ≤ v ≤ hi` (10_state.md R29). -/
def inRange (lo hi v : Word) : Bool := !f32IsNaN v && !f32Lt v lo && !f32Lt hi v

/-- The invariants of FIFO `f` (10_state.md R25), and of its storage: canonical, inside `0 .. C − 1`, of units of this
build, with every live index written (so that no free value is ever read, R27). -/
abbrev FifoOk (cfg : Config) (f : Nat) (q : Fifo) : Prop :=
  q.count ≤ cfg.capOf f ∧ q.head < cfg.capOf f ∧ q.tail < cfg.capOf f ∧
  q.head = (q.tail + q.count) % cfg.capOf f ∧ Memory.wf none q.mem ∧
  (∀ e ∈ q.mem, e.1 < cfg.capOf f ∧ e.2 < 2 ^ cfg.unitW) ∧
  ∀ i < q.count, (memFind q.mem ((q.tail + i) % cfg.capOf f)).isSome

/-- The invariants of a slot (10_state.md R29, R30), and of its storage: canonical and inside `0 .. CAP − 1` (R32). -/
abbrev SlotOk (cfg : Config) (sl : Slot) : Prop :=
  1 ≤ sl.cap ∧ sl.cap ≤ cfg.dmax ∧ sl.cur < sl.cap ∧ sl.damp2 = f32Sub f32One sl.damp ∧
  inRange f32NegF099 f32F099 sl.gain ∧ inRange f32Zero f32F099 sl.fb ∧ inRange f32Zero f32One sl.damp ∧
  (∀ t : Fin 8, f32IsNaN sl.tapg[t] = false) ∧ Memory.wf (some 0#32) sl.buf ∧ ∀ e ∈ sl.buf, e.1 < sl.cap

/-- A request a port can be blocked on: of an existing FIFO, with a payload of its length and of units of this build. -/
def requestOk (cfg : Config) : Request → Bool
  | .write f n u => decide (f < numFifo ∧ n < 2 ^ 24 ∧ u.length = n ∧ unitsFit cfg u)
  | .read f n => decide (f < numFifo ∧ n < 2 ^ 24)

/-- What a phase holds is of this build. -/
def phaseOk (cfg : Config) : Phase → Bool
  | .idle => true
  | .issued c => decide (c.fits cfg)
  | .blocked r => requestOk cfg r
  | .done r => decide (unitsFit cfg r.payload)

/-- The state invariant: a legal build (00_scope.md R5), as many FIFOs, slots and ports as it has, and each of them well
formed (10_state.md R25, R30). -/
abbrev StateInv (s : State) : Prop :=
  s.cfg.Legal ∧ s.fifos.length = numFifo ∧ s.slots.length = s.cfg.numSlots ∧ s.ports.length = s.cfg.numPorts ∧
  (∀ f < numFifo, FifoOk s.cfg f (s.fifo f)) ∧ (∀ sid < s.cfg.numSlots, SlotOk s.cfg (s.slot sid)) ∧
  ∀ ph ∈ s.ports, phaseOk s.cfg ph = true

/-! ## Runs -/

/-- The states a run from reset can be in (20_memory.md R57, 70_reset_and_hazards.md R251), whatever the world has scripted and
whatever it draws: every schedule is an agenda. -/
inductive Reachable (cfg : Config) : State → Prop
  /-- the launch state, with any script -/
  | reset (agenda : List Event) (draws : Nat) :
    Reachable cfg { State.resetOf cfg with agenda := agenda, draws := draws }
  /-- one more step -/
  | step {s t : State} : Reachable cfg s → step s = .next t → Reachable cfg t

/-- The state after an outcome; `s` itself where the machine stopped. -/
def after (s : State) : Host.Outcome State Fault Refusal → State
  | .next t => t
  | .fault _ => s
  | .refused _ => s

/-- A run given by the event taken at each step (`none`: nothing happens), each of them enabled (20_memory.md R57). -/
def IsRun (ρ : Nat → State) (ev : Nat → Option Event) : Prop :=
  ∀ n, match ev n with
    | none => ρ (n + 1) = ρ n
    | some e => enabled (ρ n) e = true ∧ takeEvent e (ρ n) = .next (ρ (n + 1))

/-- Weak fairness (20_memory.md R57): a perform, complete or collect step that stays enabled is eventually taken. (What an
agent issues, and whether the host resets, is theirs alone, 70_reset_and_hazards.md R252.) DESIGN CHOICE: log entry 11. -/
def WeaklyFair (ρ : Nat → State) (ev : Nat → Option Event) : Prop :=
  ∀ p, ∀ e ∈ [Event.perform p, Event.complete p, Event.collect p],
    ∀ n, (∀ m, n ≤ m → enabled (ρ m) e = true) → ∃ m, n ≤ m ∧ ev m = some e

/-- The commands `is` performed one after the other on the port being served, with the phase each leaves it in. -/
def execAll : List Instr → State → List (Option Phase) × State
  | [], s => ([], s)
  | i :: is, s =>
    let t := after s (exec i s)
    let r := execAll is t
    (t.port? s.serving :: r.1, r.2)

/-- The transfer a port is waiting for: of an issued FIFO_WRITE or FIFO_READ, or of a blocked one. -/
def requestOf : Phase → Option Request
  | .issued c =>
    match decode c with
    | .ok (.fifoWrite _ fid n u) => some (.write fid.toNat n.toNat u)
    | .ok (.fifoRead _ fid n) => some (.read fid.toNat n.toNat)
    | _ => none
  | .blocked r => some r
  | .idle | .done _ => none

/-! ## What a step leaves unchanged -/

/-- The build and the model's own fields are as before. -/
abbrev SameWorld (s t : State) : Prop :=
  t.cfg = s.cfg ∧ t.serving = s.serving ∧ t.agenda = s.agenda ∧ t.draws = s.draws

/-- Every port but the one being served is as before. -/
abbrev OtherPortsSame (s t : State) : Prop :=
  t.ports.length = s.ports.length ∧ ∀ q, q ≠ s.serving → t.port? q = s.port? q

/-- Every FIFO but `f` is as before. -/
abbrev OtherFifosSame (f : Nat) (s t : State) : Prop :=
  t.fifos.length = s.fifos.length ∧ ∀ g, g ≠ f → t.fifo g = s.fifo g

/-- Every slot but `sid` is as before. -/
abbrev OtherSlotsSame (sid : Nat) (s t : State) : Prop :=
  t.slots.length = s.slots.length ∧ ∀ r, r ≠ sid → t.slot r = s.slot r

/-- `t` is `s` but for what FIFO `f` and the port being served hold. -/
abbrev OnlyFifo (f : Nat) (s t : State) : Prop :=
  SameWorld s t ∧ t.slots = s.slots ∧ OtherFifosSame f s t ∧ OtherPortsSame s t

/-- `t` is `s` but for what slot `sid` and the port being served hold. -/
abbrev OnlySlot (sid : Nat) (s t : State) : Prop :=
  SameWorld s t ∧ t.fifos = s.fifos ∧ OtherSlotsSame sid s t ∧ OtherPortsSame s t

/-- The port being served has the response (30_encoding.md R70). -/
abbrev Answered (s t : State) (st : Status) (result : Word) (payload : List Frame) : Prop :=
  t.port? s.serving = some (.done ⟨st, result, payload⟩)

/-- The registers of a slot but its storage, CUR and FSTATE: CAP, the coefficients and the taps. -/
abbrev SameSettings (sl sl' : Slot) : Prop :=
  sl'.cap = sl.cap ∧ sl'.gain = sl.gain ∧ sl'.fb = sl.fb ∧ sl'.damp = sl.damp ∧ sl'.damp2 = sl.damp2 ∧
  sl'.tapd = sl.tapd ∧ sl'.tapg = sl.tapg

/-- `s` and `t` show the ports the same FIFO `f`: content, capacity and counters (10_state.md R27). -/
abbrev SameFifoView (f : Nat) (s t : State) : Prop :=
  fifoContent s f = fifoContent t f ∧ (s.fifo f).ovf = (t.fifo f).ovf ∧ (s.fifo f).udr = (t.fifo f).udr

/-- `s` and `t` differ at most in how their FIFOs hold their content: in head, tail and storage (10_state.md R27). -/
abbrev SameView (s t : State) : Prop :=
  s.cfg = t.cfg ∧ s.slots = t.slots ∧ s.ports = t.ports ∧ s.serving = t.serving ∧ s.agenda = t.agenda ∧
  s.draws = t.draws ∧ ∀ f < numFifo, SameFifoView f s t

/-! ## Numbers -/

/-- A binary32 word that is neither a NaN nor an infinity. -/
def f32IsFinite (a : Word) : Bool := !f32IsNaN a && !f32IsInf a

/-- `v` at every step of a kernel run on a slot of capacity `d`: the value stored `d` steps before, +0.0 before the first
(42_filter_kernels.md R152, R157). -/
def stepsBefore (d : Nat) (v : Nat → Word) (n : Nat) : Word := if n < d then f32Zero else v (n - d)

/-- Equal, or two zeros whose signs may differ: equal in value (42_filter_kernels.md R153). -/
abbrev SameUpToZeroSign (a b : Word) : Prop := a = b ∨ (f32Magnitude a = 0 ∧ f32Magnitude b = 0)

/-- The word `k` writes before the most recent one, by the index of 10_state.md R31 with the lookback clamped
(41_delay_line.md R130) and no negative number. -/
def lookback (sl : Slot) (k : Nat) : Word := bufRead sl ((sl.cur + (sl.cap - 1 - min k (sl.cap - 1))) % sl.cap)

/-! ## Encoding -/

/-- The illegal command words, in the words of 30_encoding.md R81, on the word read as a number. -/
def R81Illegal (w : Nat) : Prop :=
  let op := w / 2 ^ 28
  let b := w / 2 ^ 27 % 2
  let n := w % 2 ^ 24
  let sub := w / 2 ^ 24 % 2 ^ 4
  let imm := w % 2 ^ 16
  op = 0 ∨
  ((op = 3 ∨ op = 4 ∨ op = 5) ∧ (b ≠ 0 ∨ n ≠ 0)) ∨
  (op = 6 ∧ b ≠ 0) ∨
  ((op = 7 ∨ op = 9 ∨ op = 10 ∨ op = 11 ∨ op = 12 ∨ op = 15) ∧ (sub ≠ 0 ∨ imm ≠ 0)) ∨
  (op = 8 ∧ sub ≠ 0) ∨
  ((op = 13 ∨ op = 14) ∧ (sub = 6 ∨ sub = 7) ∧ 8 ≤ imm) ∨
  ((op = 13 ∨ op = 14) ∧ sub ≠ 6 ∧ sub ≠ 7 ∧ imm ≠ 0) ∨
  (op = 6 ∧ 3 ≤ n) ∨
  ((op = 13 ∨ op = 14) ∧ 9 ≤ sub) ∨
  (op = 13 ∧ (sub = 4 ∨ sub = 5 ∨ sub = 8))

/-! ## Duties of hosts (70_reset_and_hazards.md); the block does not enforce them -/

/-- The port and the transfer of an agenda step that issues one. -/
def issuedTransfer : Event → Option (Nat × Request)
  | .issue p c => (requestOf (.issued c)).map (p, ·)
  | .perform _ | .complete _ | .collect _ | .reset => none

/-- R240: in the agenda, only `writer` issues writes of FIFO `f` and only `reader` issues reads of it. -/
def OneProducerOneConsumer (f writer reader : Nat) (agenda : List Event) : Prop :=
  ∀ e ∈ agenda,
    (∀ p n u, issuedTransfer e = some (p, .write f n u) → p = writer) ∧
    ∀ p n, issuedTransfer e = some (p, .read f n) → p = reader

/-- R242: no transfer of the agenda asks for more units than its FIFO can hold. -/
def NoOversizedRequest (cfg : Config) (agenda : List Event) : Prop :=
  ∀ e ∈ agenda, ∀ p r, issuedTransfer e = some (p, r) → r.size ≤ cfg.capOf r.fid

/-- The slot a command steps or changes: the kernel steps, DL_WRITE, SLOT_WR and SLOT_CLR. -/
def changedSlot : Instr → Option Nat
  | .dlWrite sid _ | .apStep sid _ | .combStep sid _ | .erStep sid _ | .slotWr sid _ _ | .slotClr sid => some sid.toNat
  | .fifoWrite _ _ _ _ | .fifoRead _ _ _ | .fifoAvailRd _ | .fifoAvailWr _ | .fifoClear _ | .fifoInfo _ _
  | .dlRead _ _ | .dlReadi _ _ | .slotRd _ _ => none

/-- R241, R245: in the agenda, only port `p` issues commands that step or change slot `sid`. -/
def OneWriterOfSlot (sid p : Nat) (agenda : List Event) : Prop :=
  ∀ e ∈ agenda, ∀ q c i, e = .issue q c → decode c = .ok i → changedSlot i = some sid → q = p

end Sys2Proof.Machine
end

