-- ==== Sys2Proof/Certificates/Slice0/Obligations.lean ====
section
/-! DEFINITION. The statements about AP-RFK. Each docstring names the rule of spec/ it formalises or rests on. -/

open Sys2Proof Sys2Proof.Machine

/-! ## Encoding -/

/-- Words written out from spec/95_test_vectors.md and the tables of 30_encoding.md, one or two per opcode. -/
def Obligations.SpecWordsDecode : Prop :=
  ∀ u : List Frame,
    decode ⟨0x10000005#32, 0#32, u⟩ = .ok (.fifoWrite false 0#3 5#24 u) ∧
    decode ⟨0x19000005#32, 0#32, u⟩ = .ok (.fifoWrite true 1#3 5#24 u) ∧
    decode ⟨0x28000006#32, 0#32, u⟩ = .ok (.fifoRead true 0#3 6#24) ∧
    decode ⟨0x31000000#32, 0#32, u⟩ = .ok (.fifoAvailRd 1#3) ∧
    decode ⟨0x41000000#32, 0#32, u⟩ = .ok (.fifoAvailWr 1#3) ∧
    decode ⟨0x51000000#32, 0#32, u⟩ = .ok (.fifoClear 1#3) ∧
    decode ⟨0x61000002#32, 0#32, u⟩ = .ok (.fifoInfo 1#3 .udr) ∧
    decode ⟨0x70010000#32, 0x7FC00001#32, u⟩ = .ok (.dlWrite 1#8 0x7FC00001#32) ∧
    decode ⟨0x8000FFFF#32, 0#32, u⟩ = .ok (.dlRead 0#8 0xFFFF#16) ∧
    decode ⟨0x90010000#32, 0x00008000#32, u⟩ = .ok (.dlReadi 1#8 0x00008000#32) ∧
    decode ⟨0xA0000000#32, 0x3F800000#32, u⟩ = .ok (.apStep 0#8 0x3F800000#32) ∧
    decode ⟨0xB0010000#32, 0#32, u⟩ = .ok (.combStep 1#8 0#32) ∧
    decode ⟨0xC0020000#32, 0x3F800000#32, u⟩ = .ok (.erStep 2#8 0x3F800000#32) ∧
    decode ⟨0xD6020003#32, 0x000001F4#32, u⟩ = .ok (.slotWr 2#8 (.tapd 3) 0x000001F4#32) ∧
    decode ⟨0xE8030000#32, 0#32, u⟩ = .ok (.slotRd 3#8 .cur) ∧
    decode ⟨0xF0010000#32, 0#32, u⟩ = .ok (.slotClr 1#8)

/-- DECODE AND ENCODE AGREE, for every well-formed instruction and every value of its operands (30_encoding.md R71 to R80). -/
def Obligations.DecodeEncodeAgree : Prop :=
  ∀ i : Instr, i.wellFormed = true → decode (encode i) = .ok i

/-- A word has one meaning and no bit of it is dropped: what decodes is well formed and encodes to that word again
(30_encoding.md R72, R73, R80). -/
def Obligations.DecodedWordIsItsEncoding : Prop :=
  ∀ (c : Command) (i : Instr), decode c = .ok i → i.wellFormed = true ∧ encodeWord i = c.cmd

/-- 30_encoding.md R81: exactly the words of its five cases have no instruction, and performing such a command answers ILLEGAL
and changes nothing else, whatever its operand and payload. -/
def Obligations.IllegalWordsAreRefused : Prop :=
  (∀ c : Command, R81Illegal c.cmd.toNat ↔ ∃ e, decode c = .error e) ∧
  ∀ (s : State) (p : Nat) (c : Command) (rest : List Event),
    s.agenda = .perform p :: rest → s.port? p = some (.issued c) → R81Illegal c.cmd.toNat →
    step s = .next (({ s with agenda := rest, serving := p } : State).setPort p (.done ⟨.illegal, 0#32, []⟩))

/-- The pseudo-commands of 30_encoding.md R85 expand to the commands it names, whose triples decode back to them. -/
def Obligations.PseudoCommandsExpand : Prop :=
  (∀ fid, decode (assemble (.fifoCap fid)) = .ok (.fifoInfo fid .cap)) ∧
  (∀ fid, decode (assemble (.fifoOvf fid)) = .ok (.fifoInfo fid .ovf)) ∧
  (∀ fid, decode (assemble (.fifoUdr fid)) = .ok (.fifoInfo fid .udr)) ∧
  (∀ sid d, decode (assemble (.slotSetcap sid d)) = .ok (.slotWr sid .cap d)) ∧
  ∀ sid x, decode (assemble (.dlDelay sid x)) = .ok (.apStep sid x)

/-! ## Steps of a run -/

/-- A STEP RUNS THE DECODED INSTRUCTION: where the next event is the performing of port `p` and the command issued there
decodes to `i`, the step is `exec i` with the event taken off the agenda and port `p` being served (20_memory.md R55, R57). -/
def Obligations.StepPerformsTheDecodedCommand : Prop :=
  ∀ (s : State) (p : Nat) (c : Command) (i : Instr) (rest : List Event),
    s.agenda = .perform p :: rest → s.port? p = some (.issued c) → decode c = .ok i →
    step s = exec i { s with agenda := rest, serving := p }

/-- 10_state.md R34: an agent issues a command only on an Idle port and collects only from Done, which returns the port to
Idle; anything else such an event would do is not done (the skipped event is the model's choice, log entry 5). -/
def Obligations.AgentsIssueAndCollect : Prop :=
  (∀ (s : State) (p : Nat) (c : Command) (rest : List Event), s.agenda = .issue p c :: rest →
    (s.port? p = some .idle → c.fits s.cfg →
      step s = .next (({ s with agenda := rest } : State).setPort p (.issued c))) ∧
    (s.port? p ≠ some .idle → step s = .next { s with agenda := rest })) ∧
  ∀ (s : State) (p : Nat) (rest : List Event), s.agenda = .collect p :: rest →
    (∀ r, s.port? p = some (.done r) → step s = .next (({ s with agenda := rest } : State).setPort p .idle)) ∧
    ((∀ r, s.port? p ≠ some (.done r)) → step s = .next { s with agenda := rest })

/-- Every step answers a next state: AP-RFK takes no traps (60_exceptions.md R211). -/
def Obligations.EveryStepAnswersNext : Prop := ∀ s : State, ∃ t, step s = .next t

/-- Each port is in one phase and goes only from Idle to Issued, from Issued to Done or Blocked, from Blocked to Done, from
Done to Idle, or by reset to Idle; and no step changes the build (10_state.md R33, R34; 00_scope.md R6). -/
def Obligations.PortPhasesAndBuild : Prop :=
  ∀ s t : State, s.ports.length = s.cfg.numPorts → step s = .next t →
    t.cfg = s.cfg ∧ t.ports.length = s.ports.length ∧
    ∀ p < s.ports.length, ∃ a b, s.port? p = some a ∧ t.port? p = some b ∧
      (b = a ∨ (a = .idle ∧ ∃ c, b = .issued c) ∨ (∃ c, a = .issued c ∧ ((∃ r, b = .done r) ∨ ∃ r, b = .blocked r)) ∨
        (∃ r, a = .blocked r ∧ ∃ r', b = .done r') ∨ (∃ r, a = .done r ∧ b = .idle) ∨
        ((nextEvent s).1 = .reset ∧ b = .idle))

/-- 70_reset_and_hazards.md R230: reset is one step from any state; every element takes its reset value and every port is Idle
whatever it was in. What the world has scripted and drawn is not the block's and stays (the model's choice, log entry 17). -/
def Obligations.ResetStepDiscardsEverything : Prop :=
  ∀ (s : State) (rest : List Event), s.agenda = .reset :: rest →
    step s = .next { State.resetOf s.cfg with agenda := rest, draws := s.draws } ∧
    ∀ p < s.cfg.numPorts, (State.resetOf s.cfg).port? p = some .idle

/-- 10_state.md R45, for every build: the value of every element after reset. -/
def Obligations.ResetValues : Prop :=
  ∀ cfg : Config, let s := State.resetOf cfg
    s.fifos.length = numFifo ∧ s.slots.length = cfg.numSlots ∧ s.ports.length = cfg.numPorts ∧
    (∀ f < numFifo, (s.fifo f).head = 0 ∧ (s.fifo f).tail = 0 ∧ (s.fifo f).count = 0 ∧ (s.fifo f).ovf = 0#32 ∧
      (s.fifo f).udr = 0#32) ∧
    (∀ sid < cfg.numSlots, (∀ i, bufRead (s.slot sid) i = 0x00000000#32) ∧ (s.slot sid).cap = 1 ∧
      (s.slot sid).cur = 0 ∧ (s.slot sid).gain = 0x00000000#32 ∧ (s.slot sid).fb = 0x00000000#32 ∧
      (s.slot sid).damp = 0x00000000#32 ∧ (s.slot sid).fstate = 0x00000000#32 ∧
      (s.slot sid).damp2 = 0x3F800000#32 ∧
      ∀ t : Fin 8, (s.slot sid).tapd[t] = 0#16 ∧ (s.slot sid).tapg[t] = 0x00000000#32) ∧
    ∀ p < cfg.numPorts, s.port? p = some .idle

/-! ## Invariants -/

/-- The state invariant `StateInv` (10_state.md R25, R29, R30, R32; 00_scope.md R5) is kept by every step from every state that has
it. -/
def Obligations.InvariantKeptByStep : Prop := ∀ s t : State, StateInv s → step s = .next t → StateInv t

/-- The state invariant holds right after reset, in every legal build and under every script; in particular at
`State.reset`. -/
def Obligations.InvariantHoldsAtReset : Prop :=
  (∀ (cfg : Config) (agenda : List Event) (draws : Nat), cfg.Legal →
    StateInv { State.resetOf cfg with agenda := agenda, draws := draws }) ∧ StateInv State.reset

/-- 10_state.md R25: the three FIFO invariants hold in every reachable state. -/
def Obligations.FifoInvariantsInReachableStates : Prop :=
  ∀ (cfg : Config) (s : State), cfg.Legal → Reachable cfg s → ∀ f < numFifo,
    0 ≤ (s.fifo f).count ∧ (s.fifo f).count ≤ cfg.capOf f ∧
    (s.fifo f).head < cfg.capOf f ∧ (s.fifo f).tail < cfg.capOf f ∧
    (s.fifo f).head = ((s.fifo f).tail + (s.fifo f).count) % cfg.capOf f

/-- 10_state.md R30: the slot invariants hold in every reachable state. -/
def Obligations.SlotInvariantsInReachableStates : Prop :=
  ∀ (cfg : Config) (s : State), cfg.Legal → Reachable cfg s → ∀ sid < cfg.numSlots, let sl := s.slot sid
    1 ≤ sl.cap ∧ sl.cap ≤ cfg.dmax ∧ sl.cur < sl.cap ∧ sl.damp2 = f32Sub f32One sl.damp ∧
    inRange f32NegF099 f32F099 sl.gain = true ∧ inRange f32Zero f32F099 sl.fb = true ∧
    inRange f32Zero f32One sl.damp = true ∧ ∀ t : Fin 8, f32IsNaN sl.tapg[t] = false

/-! ## The checks -/

/-- The checks of 60_exceptions.md R202 in their order: a missing FIFO or slot is BADID whatever the payload and operand are,
then a payload of another length is BADLEN, then a NaN for GAIN, FB, DAMP or TAPG is BADVAL; each with result 0 and no
payload, and nothing else changed (R201). ILLEGAL comes before them: `IllegalWordsAreRefused`. -/
def Obligations.FailedChecksAnswerInOrder : Prop :=
  ∀ s : State, let answer (st : Status) := s.setPort s.serving (.done ⟨st, 0#32, []⟩)
    (∀ fid : BitVec 3, numFifo ≤ fid.toNat →
      (∀ b n u, exec (.fifoWrite b fid n u) s = .next (answer .badId)) ∧
      (∀ b n, exec (.fifoRead b fid n) s = .next (answer .badId)) ∧
      exec (.fifoAvailRd fid) s = .next (answer .badId) ∧ exec (.fifoAvailWr fid) s = .next (answer .badId) ∧
      exec (.fifoClear fid) s = .next (answer .badId) ∧
      ∀ sel, exec (.fifoInfo fid sel) s = .next (answer .badId)) ∧
    (∀ sid : BitVec 8, s.cfg.numSlots ≤ sid.toNat →
      (∀ v, exec (.dlWrite sid v) s = .next (answer .badId) ∧ exec (.dlReadi sid v) s = .next (answer .badId) ∧
        exec (.apStep sid v) s = .next (answer .badId) ∧ exec (.combStep sid v) s = .next (answer .badId) ∧
        exec (.erStep sid v) s = .next (answer .badId) ∧
        ∀ reg : SlotReg, reg.writable = true → exec (.slotWr sid reg v) s = .next (answer .badId)) ∧
      (∀ k, exec (.dlRead sid k) s = .next (answer .badId)) ∧
      (∀ reg, exec (.slotRd sid reg) s = .next (answer .badId)) ∧ exec (.slotClr sid) s = .next (answer .badId)) ∧
    (∀ b (fid : BitVec 3) (n : BitVec 24) u, fid.toNat < numFifo → u.length ≠ n.toNat →
      exec (.fifoWrite b fid n u) s = .next (answer .badLen)) ∧
    ∀ (sid : BitVec 8) v, sid.toNat < s.cfg.numSlots → f32IsNaN v = true →
      ∀ reg ∈ [SlotReg.gain, .fb, .damp] ++ (List.finRange 8).map SlotReg.tapg,
        exec (.slotWr sid reg v) s = .next (answer .badVal)

/-- A command answered ILLEGAL, BADID, BADLEN or BADVAL has no effect but its response, which has result 0 and no payload, and
it is answered at once; and whether it is so answered is decided by the command and the build alone (60_exceptions.md R201,
R202). -/
def Obligations.RefusedCommandsHaveNoEffect : Prop :=
  ∀ (i : Instr) (s t : State) (r : Response), s.serving < s.ports.length → exec i s = .next t →
    t.port? s.serving = some (.done r) → r.status ∈ [Status.illegal, .badId, .badLen, .badVal] →
    t = s.setPort s.serving (.done ⟨r.status, 0#32, []⟩) ∧
    ∀ s' : State, s'.cfg = s.cfg → exec i s' = .next (s'.setPort s'.serving (.done ⟨r.status, 0#32, []⟩))

/-! ## FIFO commands -/

/-- FIFO_WRITE (40_fifo.md R100, R101, R110; 10_state.md R26, R27): with room the whole batch is appended; without room a
non-blocking write answers WOULDBLOCK and counts one overflow, and a blocking one waits; nothing else changes. The batch
is stored at `(head + j) mod C`; every other index of the storage is as before. -/
def Obligations.FifoWriteAppendsOrFails : Prop :=
  ∀ (s : State) (b : Bool) (fid : BitVec 3) (n : BitVec 24) (u : List Frame),
    StateInv s → s.serving < s.ports.length → fid.toNat < numFifo → u.length = n.toNat →
    let f := fid.toNat
    let q := s.fifo f
    let c := s.cfg.capOf f
    ∃ t, exec (.fifoWrite b fid n u) s = .next t ∧ OnlyFifo f s t ∧ (t.fifo f).udr = q.udr ∧
      (t.fifo f).tail = q.tail ∧
      (∀ a, (∀ j < u.length, a ≠ (q.head + j) % c) ∨ c < q.count + u.length →
        memFind (t.fifo f).mem a = memFind q.mem a) ∧
      (q.count + n.toNat ≤ c →
        Answered s t .ok 0#32 [] ∧ fifoContent t f = fifoContent s f ++ u ∧
        (t.fifo f).head = (q.head + n.toNat) % c ∧ (t.fifo f).count = q.count + n.toNat ∧ (t.fifo f).ovf = q.ovf) ∧
      (c < q.count + n.toNat →
        fifoContent t f = fifoContent s f ∧ (t.fifo f).head = q.head ∧ (t.fifo f).count = q.count ∧
        (b = false → Answered s t .wouldBlock 0#32 [] ∧ (t.fifo f).ovf.toNat = min (q.ovf.toNat + 1) (2 ^ 32 - 1)) ∧
        (b = true → t.port? s.serving = some (.blocked (.write f n.toNat u)) ∧ (t.fifo f).ovf = q.ovf))

/-- FIFO_READ (40_fifo.md R102, R103, R110; 10_state.md R26, R27): with enough units the `n` oldest are answered, oldest
first, and removed; without, a non-blocking read answers WOULDBLOCK and counts one underrun, and a blocking one waits;
nothing else changes, and no index of the storage does. -/
def Obligations.FifoReadRemovesOrFails : Prop :=
  ∀ (s : State) (b : Bool) (fid : BitVec 3) (n : BitVec 24),
    StateInv s → s.serving < s.ports.length → fid.toNat < numFifo →
    let f := fid.toNat
    let q := s.fifo f
    ∃ t, exec (.fifoRead b fid n) s = .next t ∧ OnlyFifo f s t ∧ (t.fifo f).ovf = q.ovf ∧ (t.fifo f).head = q.head ∧
      (t.fifo f).mem = q.mem ∧
      (n.toNat ≤ q.count →
        Answered s t .ok 0#32 ((fifoContent s f).take n.toNat) ∧ ((fifoContent s f).take n.toNat).length = n.toNat ∧
        fifoContent t f = (fifoContent s f).drop n.toNat ∧
        (t.fifo f).tail = (q.tail + n.toNat) % s.cfg.capOf f ∧ (t.fifo f).count = q.count - n.toNat ∧
        (t.fifo f).udr = q.udr) ∧
      (q.count < n.toNat →
        fifoContent t f = fifoContent s f ∧ (t.fifo f).tail = q.tail ∧ (t.fifo f).count = q.count ∧
        (b = false → Answered s t .wouldBlock 0#32 [] ∧ (t.fifo f).udr.toNat = min (q.udr.toNat + 1) (2 ^ 32 - 1)) ∧
        (b = true → t.port? s.serving = some (.blocked (.read f n.toNat)) ∧ (t.fifo f).udr = q.udr))

/-- 10_state.md R28, with FIFO_AVAIL_RD and FIFO_AVAIL_WR (40_fifo.md R104, R105): the two results are `count` and
`C − count`, their sum is C, and neither command changes anything but the response. -/
def Obligations.AvailabilitySumIsCapacity : Prop :=
  ∀ (s : State) (fid : BitVec 3), StateInv s → s.serving < s.ports.length → fid.toNat < numFifo →
    ∃ r w : Word,
      exec (.fifoAvailRd fid) s = .next (s.setPort s.serving (.done ⟨.ok, r, []⟩)) ∧
      exec (.fifoAvailWr fid) s = .next (s.setPort s.serving (.done ⟨.ok, w, []⟩)) ∧
      r.toNat = (s.fifo fid.toNat).count ∧ w.toNat = s.cfg.capOf fid.toNat - (s.fifo fid.toNat).count ∧
      r.toNat + w.toNat = s.cfg.capOf fid.toNat

/-- FIFO_CLEAR (40_fifo.md R106): head, tail and count are 0, storage and counters are kept, every request blocked on the FIFO
is answered ABORTED, and every other port, FIFO and slot is as before. -/
def Obligations.FifoClearEmptiesAndAborts : Prop :=
  ∀ (s : State) (fid : BitVec 3),
    s.serving < s.ports.length → fid.toNat < numFifo → s.fifos.length = numFifo →
    let f := fid.toNat
    ∃ t, exec (.fifoClear fid) s = .next t ∧ SameWorld s t ∧ t.slots = s.slots ∧ OtherFifosSame f s t ∧
      Answered s t .ok 0#32 [] ∧ fifoContent t f = [] ∧
      t.fifo f = { s.fifo f with head := 0, tail := 0, count := 0 } ∧
      t.ports.length = s.ports.length ∧
      (∀ q r, q ≠ s.serving → s.port? q = some (.blocked r) → r.fid = f →
        t.port? q = some (.done ⟨.aborted, 0#32, []⟩)) ∧
      ∀ q, q ≠ s.serving → (∀ r, s.port? q = some (.blocked r) → r.fid ≠ f) → t.port? q = s.port? q

/-- FIFO_INFO (40_fifo.md R107): the capacity, the overflow counter or the underrun counter; nothing else changes. -/
def Obligations.FifoInfoReadsCapacityAndCounters : Prop :=
  ∀ (s : State) (fid : BitVec 3), StateInv s → s.serving < s.ports.length → fid.toNat < numFifo →
    (∃ r : Word, exec (.fifoInfo fid .cap) s = .next (s.setPort s.serving (.done ⟨.ok, r, []⟩)) ∧
      r.toNat = s.cfg.capOf fid.toNat) ∧
    exec (.fifoInfo fid .ovf) s = .next (s.setPort s.serving (.done ⟨.ok, (s.fifo fid.toNat).ovf, []⟩)) ∧
    exec (.fifoInfo fid .udr) s = .next (s.setPort s.serving (.done ⟨.ok, (s.fifo fid.toNat).udr, []⟩))

/-- 40_fifo.md R108: in every response to a FIFO_WRITE or FIFO_READ, given when it is performed, when it completes or when it
is aborted, either the status is OK and exactly N units moved in that one step, or it is not OK and none of its units
moved (an abort comes with the clear that empties the FIFO). -/
def Obligations.NoPartialTransfer : Prop :=
  ∀ (s t : State) (p : Nat) (ph : Phase) (req : Request) (r : Response),
    StateInv s → step s = .next t → s.port? p = some ph → requestOf ph = some req → t.port? p = some (.done r) →
    (r.status = .ok → match req with
      | .write f n u => u.length = n ∧ r.payload = [] ∧ fifoContent t f = fifoContent s f ++ u
      | .read f n => r.payload.length = n ∧ fifoContent s f = r.payload ++ fifoContent t f) ∧
    (r.status ≠ .ok → r.payload = [] ∧
      (fifoContent t req.fid = fifoContent s req.fid ∨ (r.status = .aborted ∧ fifoContent t req.fid = [])))

/-- 10_state.md R26: OVF counts the non-blocking FIFO_WRITEs that answered WOULDBLOCK and UDR the non-blocking FIFO_READs,
saturating; no other step changes them but reset, which zeroes them, so they never decrease between resets. -/
def Obligations.CountersCountFailuresOnly : Prop :=
  ∀ (s t : State) (f : Nat), StateInv s → step s = .next t → f < numFifo →
    let failed (i : Instr) := ∃ p c, (nextEvent s).1 = .perform p ∧ s.port? p = some (.issued c) ∧ decode c = .ok i ∧
      t.port? p = some (.done ⟨.wouldBlock, 0#32, []⟩)
    let failedWrite := ∃ (fid : BitVec 3) (n : BitVec 24) (u : List Frame),
      fid.toNat = f ∧ failed (.fifoWrite false fid n u)
    let failedRead := ∃ (fid : BitVec 3) (n : BitVec 24), fid.toNat = f ∧ failed (.fifoRead false fid n)
    ((nextEvent s).1 = .reset → (t.fifo f).ovf = 0#32 ∧ (t.fifo f).udr = 0#32) ∧
    ((nextEvent s).1 ≠ .reset →
      (failedWrite → (t.fifo f).ovf.toNat = min ((s.fifo f).ovf.toNat + 1) (2 ^ 32 - 1)) ∧
      (¬failedWrite → (t.fifo f).ovf = (s.fifo f).ovf) ∧
      (failedRead → (t.fifo f).udr.toNat = min ((s.fifo f).udr.toNat + 1) (2 ^ 32 - 1)) ∧
      (¬failedRead → (t.fifo f).udr = (s.fifo f).udr) ∧
      (s.fifo f).ovf.toNat ≤ (t.fifo f).ovf.toNat ∧ (s.fifo f).udr.toNat ≤ (t.fifo f).udr.toNat)

/-- 10_state.md R27: a ring FIFO shows nothing but its content, capacity and counters. Two states that agree on these, and on
all that is not a FIFO's head, tail and storage, still agree after a step: every response is the same. -/
def Obligations.RingShowsOnlyItsContent : Prop :=
  ∀ s s' t t' : State, StateInv s → StateInv s' → SameView s s' → step s = .next t → step s' = .next t' → SameView t t'

/-- 20_memory.md R59: writes totalling W ≤ C units into an empty FIFO, then reads totalling W units, all answer OK and return
the units in the order written, whatever the batches are. The writes and then the reads are performed back to back, with no
other command between. -/
def Obligations.UnitsLeaveInTheOrderWritten : Prop :=
  ∀ (s : State) (fid : BitVec 3) (ws : List (List Frame)) (ns : List Nat),
    StateInv s → s.serving < s.ports.length → fid.toNat < numFifo → fifoContent s fid.toNat = [] →
    (∀ u ∈ ws, unitsFit s.cfg u) → (ws.map List.length).sum ≤ s.cfg.capOf fid.toNat →
    ns.sum = (ws.map List.length).sum →
    let writes := ws.map fun u => Instr.fifoWrite false fid (BitVec.ofNat 24 u.length) u
    let reads := ns.map fun n => Instr.fifoRead false fid (BitVec.ofNat 24 n)
    (execAll writes s).1 = ws.map (fun _ => some (.done ⟨.ok, 0#32, []⟩)) ∧
    ∃ us : List (List Frame), us.flatten = ws.flatten ∧ us.map List.length = ns ∧
      (execAll reads (execAll writes s).2).1 = us.map fun u => some (.done ⟨.ok, 0#32, u⟩)

/-! ## Blocking -/

/-- 40_fifo.md R111: a complete step of a blocked request whose condition holds is the whole transfer, answered OK, and
touches no other port, FIFO, slot or counter; where the condition does not hold it does nothing. -/
def Obligations.CompletionTransfersAtOnce : Prop :=
  ∀ (s : State) (p : Nat) (r : Request) (rest : List Event),
    StateInv s → s.agenda = .complete p :: rest → s.port? p = some (.blocked r) →
    let f := r.fid
    let ready := match r with
      | .write f n _ => n ≤ s.cfg.capOf f - (s.fifo f).count
      | .read f n => n ≤ (s.fifo f).count
    (ready → enabled s (.complete p) = true ∧ ∃ t, step s = .next t ∧ t.agenda = rest ∧ t.slots = s.slots ∧
      (∀ q, q ≠ p → t.port? q = s.port? q) ∧ (∀ g, g ≠ f → t.fifo g = s.fifo g) ∧
      (t.fifo f).ovf = (s.fifo f).ovf ∧ (t.fifo f).udr = (s.fifo f).udr ∧
      match r with
      | .write f _ u => t.port? p = some (.done ⟨.ok, 0#32, []⟩) ∧ fifoContent t f = fifoContent s f ++ u
      | .read f n => t.port? p = some (.done ⟨.ok, 0#32, (fifoContent s f).take n⟩) ∧
          fifoContent t f = (fifoContent s f).drop n) ∧
    (¬ready → enabled s (.complete p) = false ∧ step s = .next { s with agenda := rest })

/-- 40_fifo.md R113: a blocked request stays blocked, with its payload, until it completes with OK, or a FIFO_CLEAR of its
FIFO is performed, which answers it ABORTED, or a reset, which discards it with no response; nothing else ends it. -/
def Obligations.BlockedRequestEndsOnlySo : Prop :=
  ∀ (s t : State) (p : Nat) (r : Request), s.ports.length = s.cfg.numPorts → step s = .next t →
    s.port? p = some (.blocked r) →
    let e := (nextEvent s).1
    t.port? p = some (.blocked r) ∨
    (e = .complete p ∧ requestReady s r = true ∧ ∃ u, t.port? p = some (.done ⟨.ok, 0#32, u⟩)) ∨
    (∃ q c fid, e = .perform q ∧ s.port? q = some (.issued c) ∧ decode c = .ok (.fifoClear fid) ∧
      fid.toNat = r.fid ∧ t.port? p = some (.done ⟨.aborted, 0#32, []⟩)) ∨
    (e = .reset ∧ t.port? p = some .idle)

/-- 70_reset_and_hazards.md R242: a blocked request for more units than its FIFO can hold can never complete. -/
def Obligations.OversizedRequestNeverCompletes : Prop :=
  ∀ (s : State) (p : Nat) (r : Request), StateInv s → s.port? p = some (.blocked r) → s.cfg.capOf r.fid < r.size →
    enabled s (.complete p) = false ∧ requestReady s r = false

/-- 60_exceptions.md R204 and V-F7: a FIFO_CLEAR and the completion of a request whose condition holds may come in either
order; the request is then answered OK, or ABORTED, and the FIFO is empty either way. -/
def Obligations.ClearAndCompletionInEitherOrder : Prop :=
  ∀ (s : State) (p q : Nat) (r : Request) (c : Command) (fid : BitVec 3),
    StateInv s → s.port? q = some (.blocked r) → requestReady s r = true → s.port? p = some (.issued c) →
    decode c = .ok (.fifoClear fid) → fid.toNat = r.fid →
    (∃ m t u, step { s with agenda := [.complete q, .perform p] } = .next m ∧ step m = .next t ∧
      t.port? q = some (.done ⟨.ok, 0#32, u⟩) ∧ t.port? p = some (.done ⟨.ok, 0#32, []⟩) ∧ fifoContent t r.fid = []) ∧
    ∃ m t, step { s with agenda := [.perform p, .complete q] } = .next m ∧ step m = .next t ∧
      t.port? q = some (.done ⟨.aborted, 0#32, []⟩) ∧ t.port? p = some (.done ⟨.ok, 0#32, []⟩) ∧ fifoContent t r.fid = []

/-- 40_fifo.md R112 and V-F8: a read that arrives on another port may take the units a blocked read waited for, which then
waits on. -/
def Obligations.LateReadMayOvertake : Prop :=
  ∀ (s : State) (p q : Nat) (n : Nat) (c : Command) (b : Bool) (fid : BitVec 3) (k : BitVec 24) (rest : List Event),
    StateInv s → s.agenda = .perform p :: rest → s.port? q = some (.blocked (.read fid.toNat n)) →
    n ≤ (s.fifo fid.toNat).count → s.port? p = some (.issued c) → decode c = .ok (.fifoRead b fid k) →
    k.toNat ≤ (s.fifo fid.toNat).count → (s.fifo fid.toNat).count < n + k.toNat →
    enabled s (.complete q) = true ∧
    ∃ t, step s = .next t ∧ t.port? p = some (.done ⟨.ok, 0#32, (fifoContent s fid.toNat).take k.toNat⟩) ∧
      t.port? q = some (.blocked (.read fid.toNat n)) ∧ enabled t (.complete q) = false

/-- 20_memory.md R61: in a weakly fair run a blocked request whose condition holds from some step on does not stay blocked: it is
completed, unless a clear or a reset ends it first. (Weak fairness is a premise on the run, log entry 11.) -/
def Obligations.FairRunsEndReadyRequests : Prop :=
  ∀ (ρ : Nat → State) (ev : Nat → Option Event) (p n : Nat) (r : Request),
    IsRun ρ ev → WeaklyFair ρ ev → (ρ n).ports.length = (ρ n).cfg.numPorts → (ρ n).port? p = some (.blocked r) →
    (∀ m, n ≤ m → requestReady (ρ m) r = true) →
    ∃ m, n < m ∧ ((∃ u, (ρ m).port? p = some (.done ⟨.ok, 0#32, u⟩)) ∨
      (ρ m).port? p = some (.done ⟨.aborted, 0#32, []⟩) ∨ (ρ m).port? p = some .idle)

/-! ## Delay-line commands -/

/-- DL_WRITE (41_delay_line.md R131): the word is stored at the cursor bit for bit and the cursor advances; every other word
and register of the slot, and everything else, is as before. -/
def Obligations.DlWriteStoresAtTheCursor : Prop :=
  ∀ (s : State) (sid : BitVec 8) (v : Word), StateInv s → s.serving < s.ports.length → sid.toNat < s.cfg.numSlots →
    let sl := s.slot sid.toNat
    ∃ t, exec (.dlWrite sid v) s = .next t ∧ OnlySlot sid.toNat s t ∧ Answered s t .ok 0#32 [] ∧
      SameSettings sl (t.slot sid.toNat) ∧ (t.slot sid.toNat).fstate = sl.fstate ∧
      (t.slot sid.toNat).cur = (sl.cur + 1) % sl.cap ∧
      ∀ a, bufRead (t.slot sid.toNat) a = if a = sl.cur then v else bufRead sl a

/-- DL_READ (41_delay_line.md R132, R130; 10_state.md R31): the word `min(k, CAP − 1)` writes before the most recent one; nothing
but the response changes. -/
def Obligations.DlReadReturnsTheLookback : Prop :=
  ∀ (s : State) (sid : BitVec 8) (k : BitVec 16), StateInv s → s.serving < s.ports.length → sid.toNat < s.cfg.numSlots →
    exec (.dlRead sid k) s = .next (s.setPort s.serving (.done ⟨.ok, lookback (s.slot sid.toNat) k.toNat, []⟩))

/-- DL_READI (41_delay_line.md R133): with a zero fraction the word of the integer lookback bit for bit, otherwise
`a + fr × (b − a)` of the two neighbouring words; nothing but the response changes. -/
def Obligations.DlReadiInterpolates : Prop :=
  ∀ (s : State) (sid : BitVec 8) (off : Word), StateInv s → s.serving < s.ports.length → sid.toNat < s.cfg.numSlots →
    let a := lookback (s.slot sid.toNat) (off.toNat / 2 ^ 16)
    let b := lookback (s.slot sid.toNat) (off.toNat / 2 ^ 16 + 1)
    let fr := off.toNat % 2 ^ 16
    (fr = 0 → exec (.dlReadi sid off) s = .next (s.setPort s.serving (.done ⟨.ok, a, []⟩))) ∧
    (fr ≠ 0 → exec (.dlReadi sid off) s = .next (s.setPort s.serving
      (.done ⟨.ok, f32Add a (f32Mul (frac16 (BitVec.ofNat 16 fr)) (f32Sub b a)), []⟩)))

/-- 41_delay_line.md R134, its four properties: read(0) after a write is the word written; a lookback at or past D reads as
D − 1; an integer offset of DL_READI is DL_READ; and after n ≥ D writes the D newest words are read back. -/
def Obligations.DelayLineProperties : Prop :=
  ∀ (cfg : Config) (sl : Slot), SlotOk cfg sl →
    (∀ v, dlRead (dlWrite sl v) 0 = v) ∧
    (∀ k, sl.cap ≤ k → dlRead sl k = dlRead sl (sl.cap - 1)) ∧
    (∀ k : BitVec 16, interpolate sl (k ++ 0#16) = dlRead sl k.toNat) ∧
    ∀ vs : List Word, sl.cap ≤ vs.length → ∀ k < sl.cap,
      some (dlRead (vs.foldl dlWrite sl) k) = vs[vs.length - 1 - k]?

/-! ## Filter kernels -/

/-- AP_STEP (42_filter_kernels.md R151, R150): the response is `d − g·x`, `x + g·d` is stored at the cursor, which advances;
every other word and register of the slot, and everything else, is as before. -/
def Obligations.ApStepFollowsTheRecurrence : Prop :=
  ∀ (s : State) (sid : BitVec 8) (x : Word), StateInv s → s.serving < s.ports.length → sid.toNat < s.cfg.numSlots →
    let sl := s.slot sid.toNat
    let d := bufRead sl sl.cur
    ∃ t, exec (.apStep sid x) s = .next t ∧ OnlySlot sid.toNat s t ∧
      Answered s t .ok (f32Sub d (f32Mul sl.gain x)) [] ∧ d = lookback sl (sl.cap - 1) ∧
      SameSettings sl (t.slot sid.toNat) ∧ (t.slot sid.toNat).fstate = sl.fstate ∧
      (t.slot sid.toNat).cur = (sl.cur + 1) % sl.cap ∧
      ∀ a, bufRead (t.slot sid.toNat) a = if a = sl.cur then f32Add x (f32Mul sl.gain d) else bufRead sl a

/-- COMB_STEP (42_filter_kernels.md R156, R150): the response is the word at the cursor, bit for bit; FSTATE is
`d·DAMP2 + FSTATE·DAMP`, and `x + FSTATE·FB` is stored at the cursor, which advances; everything else is as before. -/
def Obligations.CombStepFollowsTheRecurrence : Prop :=
  ∀ (s : State) (sid : BitVec 8) (x : Word), StateInv s → s.serving < s.ports.length → sid.toNat < s.cfg.numSlots →
    let sl := s.slot sid.toNat
    let d := bufRead sl sl.cur
    let fs := f32Add (f32Mul d sl.damp2) (f32Mul sl.fstate sl.damp)
    ∃ t, exec (.combStep sid x) s = .next t ∧ OnlySlot sid.toNat s t ∧ Answered s t .ok d [] ∧
      SameSettings sl (t.slot sid.toNat) ∧ (t.slot sid.toNat).fstate = fs ∧
      (t.slot sid.toNat).cur = (sl.cur + 1) % sl.cap ∧
      ∀ a, bufRead (t.slot sid.toNat) a = if a = sl.cur then f32Add x (f32Mul fs sl.fb) else bufRead sl a

/-- ER_STEP (42_filter_kernels.md R162): the sample is stored first, then the eight taps are read in order, and the response is
their gain-weighted sum from +0.0 times 0.125; everything else is as before. -/
def Obligations.ErStepSumsTheTaps : Prop :=
  ∀ (s : State) (sid : BitVec 8) (x : Word), StateInv s → s.serving < s.ports.length → sid.toNat < s.cfg.numSlots →
    let sl := s.slot sid.toNat
    ∃ t, exec (.erStep sid x) s = .next t ∧ OnlySlot sid.toNat s t ∧
      SameSettings sl (t.slot sid.toNat) ∧ (t.slot sid.toNat).fstate = sl.fstate ∧
      (t.slot sid.toNat).cur = (sl.cur + 1) % sl.cap ∧
      (∀ a, bufRead (t.slot sid.toNat) a = if a = sl.cur then x else bufRead sl a) ∧
      (let p (i : Fin 8) := f32Mul sl.tapg[i] (lookback (t.slot sid.toNat) sl.tapd[i].toNat)
       Answered s t .ok (f32Mul (f32Add (f32Add (f32Add (f32Add (f32Add (f32Add (f32Add (f32Add f32Zero
        (p 0)) (p 1)) (p 2)) (p 3)) (p 4)) (p 5)) (p 6)) (p 7)) 0x3E000000#32) [])

/-- 42_filter_kernels.md R152: the all-pass recurrence over AP_STEPs performed back to back on one slot with a cleared
history. (What other steps come between leaves the slot as it is: `SlotsAndFifosChangeOnlyByTheirCommands`.) -/
def Obligations.AllPassRecurrenceOverARun : Prop :=
  ∀ (st : Nat → State) (sid : BitVec 8) (x v : Nat → Word),
    StateInv (st 0) → (st 0).serving < (st 0).ports.length → sid.toNat < (st 0).cfg.numSlots →
    (∀ a, bufRead ((st 0).slot sid.toNat) a = f32Zero) →
    (∀ n, exec (.apStep sid (x n)) (st n) = .next (st (n + 1))) →
    let d := ((st 0).slot sid.toNat).cap
    let g := ((st 0).slot sid.toNat).gain
    (∀ n, v n = f32Add (x n) (f32Mul g (stepsBefore d v n))) →
    ∀ n, Answered (st n) (st (n + 1)) .ok (f32Sub (stepsBefore d v n) (f32Mul g (x n))) [] ∧
      bufRead ((st (n + 1)).slot sid.toNat) ((st n).slot sid.toNat).cur = v n

/-- 42_filter_kernels.md R157: the comb recurrence over COMB_STEPs performed back to back on one slot with a cleared history;
`fs n` is the filter state before step `n`. (For other steps between them see `SlotsAndFifosChangeOnlyByTheirCommands`.) -/
def Obligations.CombRecurrenceOverARun : Prop :=
  ∀ (st : Nat → State) (sid : BitVec 8) (x v fs : Nat → Word),
    StateInv (st 0) → (st 0).serving < (st 0).ports.length → sid.toNat < (st 0).cfg.numSlots →
    (∀ a, bufRead ((st 0).slot sid.toNat) a = f32Zero) →
    (∀ n, exec (.combStep sid (x n)) (st n) = .next (st (n + 1))) →
    let sl := (st 0).slot sid.toNat
    fs 0 = sl.fstate →
    (∀ n, fs (n + 1) = f32Add (f32Mul (stepsBefore sl.cap v n) sl.damp2) (f32Mul (fs n) sl.damp)) →
    (∀ n, v n = f32Add (x n) (f32Mul (fs (n + 1)) sl.fb)) →
    ∀ n, Answered (st n) (st (n + 1)) .ok (stepsBefore sl.cap v n) [] ∧
      ((st (n + 1)).slot sid.toNat).fstate = fs (n + 1) ∧
      bufRead ((st (n + 1)).slot sid.toNat) ((st n).slot sid.toNat).cur = v n

/-- 42_filter_kernels.md R163: over ER_STEPs performed back to back on one slot with a cleared history, step `n` returns the sum of
the inputs of `min(TAPD, D − 1)` steps before, weighted and rounded in tap order, times 0.125. -/
def Obligations.EarlyReflectionsOverARun : Prop :=
  ∀ (st : Nat → State) (sid : BitVec 8) (x : Nat → Word),
    StateInv (st 0) → (st 0).serving < (st 0).ports.length → sid.toNat < (st 0).cfg.numSlots →
    (∀ a, bufRead ((st 0).slot sid.toNat) a = f32Zero) →
    (∀ n, exec (.erStep sid (x n)) (st n) = .next (st (n + 1))) →
    let sl := (st 0).slot sid.toNat
    ∀ n, let p (i : Fin 8) := f32Mul sl.tapg[i] (stepsBefore (min sl.tapd[i].toNat (sl.cap - 1)) x n)
      Answered (st n) (st (n + 1)) .ok (f32Mul (f32Add (f32Add (f32Add (f32Add (f32Add (f32Add (f32Add (f32Add f32Zero
        (p 0)) (p 1)) (p 2)) (p 3)) (p 4)) (p 5)) (p 6)) (p 7)) 0x3E000000#32) []

/-- 42_filter_kernels.md R153: at gain ±0.0 and finite inputs the all-pass is a pure delay of D samples: the response equals
the input of D steps before, but for the sign of a zero, and is +0.0 in the first D steps. -/
def Obligations.AllPassAtGainZeroIsADelay : Prop :=
  ∀ (st : Nat → State) (sid : BitVec 8) (x : Nat → Word),
    StateInv (st 0) → (st 0).serving < (st 0).ports.length → sid.toNat < (st 0).cfg.numSlots →
    (∀ a, bufRead ((st 0).slot sid.toNat) a = f32Zero) →
    f32Magnitude ((st 0).slot sid.toNat).gain = 0 → (∀ n, f32IsFinite (x n) = true) →
    (∀ n, exec (.apStep sid (x n)) (st n) = .next (st (n + 1))) →
    let d := ((st 0).slot sid.toNat).cap
    ∀ n, (n < d → Answered (st n) (st (n + 1)) .ok f32Zero []) ∧
      (d ≤ n → ∃ y, Answered (st n) (st (n + 1)) .ok y [] ∧ SameUpToZeroSign y (x (n - d)))

/-- 42_filter_kernels.md R158, one step: at feedback ±0.0, with a finite input and a finite next filter state, the comb stores
the input in value; the damping does not matter. -/
def Obligations.CombAtFeedbackZeroStoresItsInput : Prop :=
  ∀ (sl : Slot) (x : Word), f32Magnitude sl.fb = 0 → f32IsFinite x = true → f32IsFinite (combState sl) = true →
    SameUpToZeroSign (combStore sl x) x

/-- 42_filter_kernels.md R159, one step: with DAMP +0.0 and DAMP2 1.0 the filter state becomes the delayed sample in value;
with DAMP 1.0 and DAMP2 +0.0 it keeps its value (finite words). -/
def Obligations.CombDampingExtremes : Prop :=
  ∀ sl : Slot, f32IsFinite (delayedSample sl) = true → f32IsFinite sl.fstate = true →
    (sl.damp = f32Zero → sl.damp2 = f32One → SameUpToZeroSign (combState sl) (delayedSample sl)) ∧
    (sl.damp = f32One → sl.damp2 = f32Zero → SameUpToZeroSign (combState sl) sl.fstate)

/-! ## Slot configuration -/

/-- `write_CAP` (43_slot_config.md R182): CAP is the operand clamped to 1..DMAX, and storage, CUR and FSTATE are zero, on every
such write; GAIN, FB, DAMP, DAMP2, TAPD and TAPG keep their values. -/
def Obligations.CapWriteIsADestructiveReset : Prop :=
  ∀ (s : State) (sid : BitVec 8) (v : Word), StateInv s → s.serving < s.ports.length → sid.toNat < s.cfg.numSlots →
    let sl := s.slot sid.toNat
    ∃ t, exec (.slotWr sid .cap v) s = .next t ∧ OnlySlot sid.toNat s t ∧ Answered s t .ok 0#32 [] ∧
      (t.slot sid.toNat).cap = min (max v.toNat 1) s.cfg.dmax ∧ (t.slot sid.toNat).cur = 0 ∧
      (t.slot sid.toNat).fstate = 0x00000000#32 ∧ (∀ a, bufRead (t.slot sid.toNat) a = 0x00000000#32) ∧
      (t.slot sid.toNat).gain = sl.gain ∧ (t.slot sid.toNat).fb = sl.fb ∧ (t.slot sid.toNat).damp = sl.damp ∧
      (t.slot sid.toNat).damp2 = sl.damp2 ∧ (t.slot sid.toNat).tapd = sl.tapd ∧ (t.slot sid.toNat).tapg = sl.tapg

/-- `write_GAIN`, `write_FB` and `write_DAMP` (43_slot_config.md R183, R184, R185) for a non-NaN operand: the value clamped to
its range by the IEEE order (a value in range, −0.0 among them, is kept bit for bit), DAMP2 with DAMP; no other state
changes. -/
def Obligations.CoefficientWritesClamp : Prop :=
  ∀ (s : State) (sid : BitVec 8) (v : Word), StateInv s → s.serving < s.ports.length → sid.toNat < s.cfg.numSlots →
    f32IsNaN v = false →
    let sl := s.slot sid.toNat
    let clamped (lo hi : Word) := if f32Key v < f32Key lo then lo else if f32Key hi < f32Key v then hi else v
    let done (sl' : Slot) := (s.setSlot sid.toNat sl').setPort s.serving (.done ⟨.ok, 0#32, []⟩)
    exec (.slotWr sid .gain v) s = .next (done { sl with gain := clamped 0xBF7D70A4#32 0x3F7D70A4#32 }) ∧
    exec (.slotWr sid .fb v) s = .next (done { sl with fb := clamped 0x00000000#32 0x3F7D70A4#32 }) ∧
    exec (.slotWr sid .damp v) s = .next (done { sl with
      damp := clamped 0x00000000#32 0x3F800000#32
      damp2 := f32Sub 0x3F800000#32 (clamped 0x00000000#32 0x3F800000#32) })

/-- The tap writes (43_slot_config.md R187, R188): TAPD[t] takes the low half of the operand as it is, TAPG[t] a non-NaN operand
as it is; the other taps, and everything else, are as before. -/
def Obligations.TapWritesStoreAsWritten : Prop :=
  ∀ (s : State) (sid : BitVec 8) (i : Fin 8) (v : Word),
    StateInv s → s.serving < s.ports.length → sid.toNat < s.cfg.numSlots →
    let sl := s.slot sid.toNat
    (∃ t, exec (.slotWr sid (.tapd i) v) s = .next t ∧ OnlySlot sid.toNat s t ∧ Answered s t .ok 0#32 [] ∧
      t.slot sid.toNat = { sl with tapd := (t.slot sid.toNat).tapd } ∧
      (t.slot sid.toNat).tapd[i].toNat = v.toNat % 2 ^ 16 ∧
      ∀ j : Fin 8, j ≠ i → (t.slot sid.toNat).tapd[j] = sl.tapd[j]) ∧
    (f32IsNaN v = false →
      ∃ t, exec (.slotWr sid (.tapg i) v) s = .next t ∧ OnlySlot sid.toNat s t ∧ Answered s t .ok 0#32 [] ∧
        t.slot sid.toNat = { sl with tapg := (t.slot sid.toNat).tapg } ∧ (t.slot sid.toNat).tapg[i] = v ∧
        ∀ j : Fin 8, j ≠ i → (t.slot sid.toNat).tapg[j] = sl.tapg[j])

/-- SLOT_RD (43_slot_config.md R189): the register's value, zero-extended where it is narrower than 32 bits; nothing but the
response changes. -/
def Obligations.SlotRdReturnsTheRegister : Prop :=
  ∀ (s : State) (sid : BitVec 8) (reg : SlotReg), StateInv s → s.serving < s.ports.length → sid.toNat < s.cfg.numSlots →
    let sl := s.slot sid.toNat
    ∃ r : Word, exec (.slotRd sid reg) s = .next (s.setPort s.serving (.done ⟨.ok, r, []⟩)) ∧
      match reg with
      | .cap => r.toNat = sl.cap
      | .gain => r = sl.gain
      | .fb => r = sl.fb
      | .damp => r = sl.damp
      | .damp2 => r = sl.damp2
      | .fstate => r = sl.fstate
      | .tapd i => r.toNat = sl.tapd[i].toNat
      | .tapg i => r = sl.tapg[i]
      | .cur => r.toNat = sl.cur

/-- SLOT_CLR (43_slot_config.md R190): storage, CUR and FSTATE are zero, the configuration is kept; it is the same as a CAP
write of the current CAP. -/
def Obligations.SlotClrZeroesTheHistory : Prop :=
  ∀ (s : State) (sid : BitVec 8), StateInv s → s.serving < s.ports.length → sid.toNat < s.cfg.numSlots →
    let sl := s.slot sid.toNat
    ∃ t, exec (.slotClr sid) s = .next t ∧ OnlySlot sid.toNat s t ∧ Answered s t .ok 0#32 [] ∧
      SameSettings sl (t.slot sid.toNat) ∧ (t.slot sid.toNat).cur = 0 ∧ (t.slot sid.toNat).fstate = 0x00000000#32 ∧
      (∀ a, bufRead (t.slot sid.toNat) a = 0x00000000#32) ∧
      exec (.slotWr sid .cap (BitVec.ofNat 32 sl.cap)) s = .next t

/-- 43_slot_config.md R186: SLOT_WR of DAMP2, FSTATE or CUR, and SLOT_WR or SLOT_RD with SUB 9 to 15, have no instruction (they
are ILLEGAL, with no effect); the comb state and the cursor change only by the kernel steps, DL_WRITE, SLOT_CLR, a CAP write
and reset. -/
def Obligations.ReadOnlyRegistersAreProtected : Prop :=
  (∀ c : Command,
    ((c.cmd.toNat / 2 ^ 28 = 13 ∧ c.cmd.toNat / 2 ^ 24 % 2 ^ 4 ∈ [4, 5, 8]) ∨
      ((c.cmd.toNat / 2 ^ 28 = 13 ∨ c.cmd.toNat / 2 ^ 28 = 14) ∧ 9 ≤ c.cmd.toNat / 2 ^ 24 % 2 ^ 4)) →
    (∃ e, decode c = .error e) ∧
    ∀ (s : State) (p : Nat) (rest : List Event), s.agenda = .perform p :: rest → s.port? p = some (.issued c) →
      step s = .next (({ s with agenda := rest, serving := p } : State).setPort p (.done ⟨.illegal, 0#32, []⟩))) ∧
  ∀ (s t : State) (sid : Nat), step s = .next t →
    (t.slot sid).cur ≠ (s.slot sid).cur ∨ (t.slot sid).fstate ≠ (s.slot sid).fstate →
    (nextEvent s).1 = .reset ∨ ∃ p c i, (nextEvent s).1 = .perform p ∧ s.port? p = some (.issued c) ∧
      decode c = .ok i ∧ ∃ id : BitVec 8, id.toNat = sid ∧
        ((∃ v, i = .dlWrite id v ∨ i = .apStep id v ∨ i = .combStep id v ∨ i = .erStep id v ∨ i = .slotWr id .cap v) ∨
          i = .slotClr id)

/-! ## Isolation -/

/-- A command acts on the one FIFO or the one slot it names, and on no port but its own; only FIFO_CLEAR answers others
(10_state.md R35, 20_memory.md R50, R54). -/
def Obligations.CommandsActOnlyOnTheirTarget : Prop :=
  ∀ (i : Instr) (s t : State), exec i s = .next t →
    match i with
    | .fifoWrite _ fid _ _ => OnlyFifo fid.toNat s t
    | .fifoRead _ fid _ => OnlyFifo fid.toNat s t
    | .fifoAvailRd _ | .fifoAvailWr _ | .fifoInfo _ _ | .dlRead _ _ | .dlReadi _ _ | .slotRd _ _ =>
      SameWorld s t ∧ t.fifos = s.fifos ∧ t.slots = s.slots ∧ OtherPortsSame s t
    | .fifoClear fid => SameWorld s t ∧ t.slots = s.slots ∧ OtherFifosSame fid.toNat s t
    | .dlWrite sid _ | .apStep sid _ | .combStep sid _ | .erStep sid _ | .slotWr sid _ _ | .slotClr sid =>
      OnlySlot sid.toNat s t

/-- What a slot command answers and leaves in its slot depends on nothing but that slot and the build (20_memory.md R50, R55,
R58): two states that agree there agree afterwards. -/
def Obligations.SlotCommandsDependOnlyOnTheirSlot : Prop :=
  ∀ (i : Instr) (sid : BitVec 8) (s s' t t' : State),
    (∃ v k reg, i ∈ [Instr.dlWrite sid v, .dlRead sid k, .dlReadi sid v, .apStep sid v, .combStep sid v, .erStep sid v,
      .slotWr sid reg v, .slotRd sid reg, .slotClr sid]) →
    s.cfg = s'.cfg → s.slot sid.toNat = s'.slot sid.toNat →
    s.slots.length = s.cfg.numSlots → s'.slots.length = s'.cfg.numSlots →
    s.serving < s.ports.length → s'.serving < s'.ports.length →
    exec i s = .next t → exec i s' = .next t' →
    t.port? s.serving = t'.port? s'.serving ∧ t.slot sid.toNat = t'.slot sid.toNat

/-! ## binary32 -/

/-- 00_scope.md R11: every NaN an operation produces is 0x7FC00000; it produces one for a NaN operand, inf − inf and 0 × inf,
and from finite operands it produces none. -/
def Obligations.NaNResultsAreCanonical : Prop :=
  ∀ a b : Word,
    (∀ op ∈ [f32Add, f32Sub, f32Mul],
      (f32IsNaN (op a b) = true → op a b = 0x7FC00000#32) ∧
      (f32IsNaN a = true ∨ f32IsNaN b = true → op a b = 0x7FC00000#32) ∧
      (f32IsFinite a = true → f32IsFinite b = true → f32IsNaN (op a b) = false)) ∧
    f32Sub 0x7F800000#32 0x7F800000#32 = 0x7FC00000#32 ∧
    (f32Magnitude a = 0 → f32IsInf b = true → f32Mul a b = 0x7FC00000#32 ∧ f32Mul b a = 0x7FC00000#32)

/-- 00_scope.md R12 and 42_filter_kernels.md R151: addition and multiplication are commutative, and `d − g·x` is `−g·x + d` bit
for bit. -/
def Obligations.OperandOrderAndSpellingDoNotMatter : Prop :=
  (∀ a b : Word, f32Add a b = f32Add b a) ∧ (∀ a b : Word, f32Mul a b = f32Mul b a) ∧
  ∀ d g x : Word, f32Sub d (f32Mul g x) = f32Add (f32Mul (f32Neg g) x) d

/-- 00_scope.md R10: sum and product of finite operands are rounded once, to nearest, ties to even: no finite binary32 value is
closer to the exact result than a finite answer, and where another is as close the answer's last bit is 0; and the answer
is infinite exactly where the exact result reaches the largest finite value and half its last place. R10 names the IEEE 754
operation and does not write out where it overflows: that clause is log entry 13, PRESUMED. Infinite operands and the sign of
a zero or infinite result are in `SignsAndInfinities`. Values are in units of 2^−149 (products of 2^−298). -/
def Obligations.SumsAndProductsAreRoundedToNearestEven : Prop :=
  ∀ a b : Word, f32IsFinite a = true → f32IsFinite b = true →
    let nearest (r : Word) (exact scale : Int) :=
      (f32IsFinite r = true → ∀ c : Word, f32IsFinite c = true →
        |f32Value r * scale - exact| ≤ |f32Value c * scale - exact| ∧
        (|f32Value r * scale - exact| = |f32Value c * scale - exact| → f32Value c ≠ f32Value r →
          r.getLsbD 0 = false)) ∧
      (f32IsInf r = true ↔ (2 ^ 277 - 2 ^ 252) * scale ≤ |exact|)
    nearest (f32Add a b) (f32Value a + f32Value b) 1 ∧
    nearest (f32Mul a b) (f32Value a * f32Value b) (2 ^ 149)

/-- 00_scope.md R10: on finite words `f32_lt` is the order of the values (so −0 < +0 is false), it is false on a NaN, and
`frac16` is exact. -/
def Obligations.ComparisonAndFractionAreExact : Prop :=
  (∀ a b : Word, f32IsFinite a = true → f32IsFinite b = true →
    (f32Lt a b = true ↔ f32Value a < f32Value b)) ∧
  (∀ a b : Word, f32IsNaN a = true ∨ f32IsNaN b = true → f32Lt a b = false) ∧
  ∀ f : BitVec 16, f32IsFinite (frac16 f) = true ∧ f32Value (frac16 f) * 2 ^ 16 = f.toNat * f32Value 0x3F800000#32

/-- 20_memory.md R52, the hosts' packing: channel `c` of a packed unit is the sample given for it, and the unit has as many
bits as its channels. -/
def Obligations.PackedChannelsReadBack : Prop :=
  ∀ (sw : Nat) (xs : List Nat), (∀ x ∈ xs, x < 2 ^ sw) →
    packFrame sw xs < 2 ^ (sw * xs.length) ∧
    ∀ c, (h : c < xs.length) → frameChannel sw c (packFrame sw xs) = xs[c]

/-- Infinities and signs, for sum, difference and product of words that are no NaN. 00_scope.md R10 names the IEEE 754 operation
and R11 says where it makes a NaN; the rest is the model's reading of the standard, log entry 13, PRESUMED. An infinite
operand of a sum is the sum, unless the other is the opposite infinity; a finite sum that is exactly zero is −0.0 only for two
negative operands, and any other sum has the sign of the exact one; a product is infinite where an operand is, unless the
other is a zero, and has the exclusive or of the signs; and a difference is the sum with the second sign flipped. -/
def Obligations.SignsAndInfinities : Prop :=
  ∀ a b : Word, f32IsNaN a = false → f32IsNaN b = false →
    (f32IsInf a = true → f32IsInf b = false ∨ b = a → f32Add a b = a ∧ f32Add b a = a) ∧
    (f32IsInf a = true → f32IsInf b = true → b ≠ a → f32Add a b = 0x7FC00000#32) ∧
    (f32IsFinite a = true → f32IsFinite b = true →
      (f32Value a + f32Value b = 0 →
        f32Add a b = if a.msb = true ∧ b.msb = true then 0x80000000#32 else 0x00000000#32) ∧
      (f32Value a + f32Value b ≠ 0 → ((f32Add a b).msb = true ↔ f32Value a + f32Value b < 0))) ∧
    (f32IsInf a = true → f32Magnitude b ≠ 0 → f32IsInf (f32Mul a b) = true ∧ f32IsInf (f32Mul b a) = true) ∧
    (f32IsNaN (f32Mul a b) = false → (f32Mul a b).msb = (a.msb ^^ b.msb)) ∧
    f32Sub a b = f32Add a (b ^^^ 0x80000000#32)

/-! ## Between the commands on one slot or FIFO -/

/-- 10_state.md R20, R35, 20_memory.md R55, R65: over any step a slot changes only by a command that writes that slot, and a FIFO
only by a transfer on that FIFO, performed or completed, or its FIFO_CLEAR; and reset. So issue and collect steps and the
commands of other slots and FIFOs, on whatever port, may come between the steps of a run on one of them. -/
def Obligations.SlotsAndFifosChangeOnlyByTheirCommands : Prop :=
  ∀ s t : State, step s = .next t →
    let performed (i : Instr) := ∃ p c, (nextEvent s).1 = .perform p ∧ s.port? p = some (.issued c) ∧ decode c = .ok i
    (∀ sid, t.slot sid ≠ s.slot sid → (nextEvent s).1 = .reset ∨
      ∃ id : BitVec 8, id.toNat = sid ∧ ∃ i, performed i ∧ ∃ v reg,
        i ∈ [Instr.dlWrite id v, .apStep id v, .combStep id v, .erStep id v, .slotWr id reg v, .slotClr id]) ∧
    ∀ f, t.fifo f ≠ s.fifo f → (nextEvent s).1 = .reset ∨
      (∃ p r, (nextEvent s).1 = .complete p ∧ s.port? p = some (.blocked r) ∧ requestReady s r = true ∧ r.fid = f) ∨
      ∃ id : BitVec 3, id.toNat = f ∧ ∃ i, performed i ∧ ∃ b n u,
        i ∈ [Instr.fifoWrite b id n u, .fifoRead b id n, .fifoClear id]
end

