-- ==== Sys2Proof/Laws/Encoding.lean ====
section
/-! SUPPORT. The fields of a word as numbers, what the two formats hold, and masking a format (30_encoding.md R72, R73). -/

namespace Sys2Proof

section

variable (op : BitVec 4) (b : Bool) (fid : BitVec 3) (n : BitVec 24) (sub : BitVec 4) (sid : BitVec 8) (imm : BitVec 16)
  (w : Word)

/-- A word of format F as a number. -/
theorem formatF_toNat :
    (formatF op b fid n).toNat = op.toNat * 2 ^ 28 + b.toNat * 2 ^ 27 + fid.toNat * 2 ^ 24 + n.toNat := by
  have := n.isLt
  have := fid.isLt
  have := Bool.toNat_lt b
  simp only [formatF, BitVec.toNat_append, BitVec.toNat_ofBool]
  rw [← Nat.shiftLeft_add_eq_or_of_lt (by assumption), ← Nat.shiftLeft_add_eq_or_of_lt (by assumption),
    ← Nat.shiftLeft_add_eq_or_of_lt (by omega)]
  simp only [Nat.shiftLeft_eq]
  omega

/-- A word of format S as a number. -/
theorem formatS_toNat :
    (formatS op sub sid imm).toNat = op.toNat * 2 ^ 28 + sub.toNat * 2 ^ 24 + sid.toNat * 2 ^ 16 + imm.toNat := by
  have := imm.isLt
  have := sid.isLt
  have := sub.isLt
  simp only [formatS, BitVec.toNat_append]
  rw [← Nat.shiftLeft_add_eq_or_of_lt (by assumption), ← Nat.shiftLeft_add_eq_or_of_lt (by assumption),
    ← Nat.shiftLeft_add_eq_or_of_lt (by omega)]
  simp only [Nat.shiftLeft_eq]
  omega

/-! The fields of a word as numbers. -/

theorem fieldOp_toNat : (fieldOp w).toNat = w.toNat / 2 ^ 28 := by
  have := w.isLt
  simp only [fieldOp, BitVec.extractLsb'_toNat, Nat.shiftRight_eq_div_pow]
  omega

theorem fieldB_toNat : (fieldB w).toNat = w.toNat / 2 ^ 27 % 2 := by
  simp [fieldB, BitVec.getLsbD, Nat.testBit_eq_decide_div_mod_eq]
  rcases Nat.mod_two_eq_zero_or_one (w.toNat / 134217728) with h | h <;> simp [h]

theorem fieldFid_toNat : (fieldFid w).toNat = w.toNat / 2 ^ 24 % 8 := by
  simp only [fieldFid, BitVec.extractLsb'_toNat, Nat.shiftRight_eq_div_pow]

theorem fieldN_toNat : (fieldN w).toNat = w.toNat % 2 ^ 24 := by
  simp [fieldN, BitVec.extractLsb'_toNat]

theorem fieldSub_toNat : (fieldSub w).toNat = w.toNat / 2 ^ 24 % 16 := by
  simp only [fieldSub, BitVec.extractLsb'_toNat, Nat.shiftRight_eq_div_pow]

theorem fieldSid_toNat : (fieldSid w).toNat = w.toNat / 2 ^ 16 % 256 := by
  simp only [fieldSid, BitVec.extractLsb'_toNat, Nat.shiftRight_eq_div_pow]

theorem fieldImm_toNat : (fieldImm w).toNat = w.toNat % 2 ^ 16 := by
  simp [fieldImm, BitVec.extractLsb'_toNat]

theorem fieldTap_val : (fieldTap w).val = w.toNat % 8 := by
  simp [fieldTap]

/-! Masking a word of a format. -/

theorem formatF_and (op' : BitVec 4) (b' : Bool) (fid' : BitVec 3) (n' : BitVec 24) :
    formatF op b fid n &&& formatF op' b' fid' n' = formatF (op &&& op') (b && b') (fid &&& fid') (n &&& n') := by
  simp only [formatF]
  erw [BitVec.and_append, BitVec.and_append, BitVec.and_append]
  cases b <;> cases b' <;> rfl

theorem formatS_and (op' sub' : BitVec 4) (sid' : BitVec 8) (imm' : BitVec 16) :
    formatS op sub sid imm &&& formatS op' sub' sid' imm' =
      formatS (op &&& op') (sub &&& sub') (sid &&& sid') (imm &&& imm') := by
  simp only [formatS]
  erw [BitVec.and_append, BitVec.and_append, BitVec.and_append]

end

end Sys2Proof
end

