-- ==== Sys2Proof/Laws/Memory.lean ====
section
/-! SUPPORT. The laws of storage: a read after a write, and that a write keeps the canonical form. -/

namespace Sys2Proof.Machine

variable {α : Type}

/-- An index below every listed one is not listed. -/
theorem memFind_eq_none_of_lt {m : List (Nat × α)} {i : Nat} (h : ∀ e ∈ m, i < e.1) : memFind m i = none := by
  induction m with
  | nil => rfl
  | cons e r ih =>
    obtain ⟨a, v⟩ := e
    have hi : i < a := h (a, v) (by simp)
    rw [memFind, if_neg (by omega), ih fun e he => h e (List.mem_cons_of_mem _ he)]

/-- What is found is listed. -/
theorem mem_of_memFind {m : List (Nat × α)} {i : Nat} {v : α} (h : memFind m i = some v) : (i, v) ∈ m := by
  induction m with
  | nil => simp [memFind] at h
  | cons e r ih =>
    obtain ⟨a, w⟩ := e
    rw [memFind] at h
    split at h
    · simp_all
    · exact List.mem_cons_of_mem _ (ih h)

/-- Reading after a write: the entry written, and every other entry as it was. -/
theorem memFind_memPut {m : List (Nat × α)} (h : m.Pairwise fun a b => a.1 < b.1) (i j : Nat) (e : Option α) :
    memFind (memPut i e m) j = if j = i then e else memFind m j := by
  induction m with
  | nil => cases e <;> simp [memPut, memFind, eq_comm]
  | cons x r ih =>
    obtain ⟨a, v⟩ := x
    rw [List.pairwise_cons] at h
    have low : ∀ k, k ≤ a → memFind r k = none := fun k hk =>
      memFind_eq_none_of_lt fun e he => Nat.lt_of_le_of_lt hk (h.1 e he)
    rw [memPut]
    split
    · rename_i hia
      by_cases hj : j = i
      · subst hj
        cases e <;> simp [memFind, low j (by omega)]
        omega
      · cases e <;> simp [memFind, hj, Ne.symm hj]
    · split
      · rename_i _ hia
        subst hia
        by_cases hj : j = i
        · subst hj
          cases e <;> simp [memFind, low j (le_refl j)]
        · cases e <;> simp [memFind, hj, Ne.symm hj]
      · rename_i hlt hne
        simp only [memFind, ih h.2]
        by_cases hj : j = i
        · subst hj; simp [Ne.symm hne]
        · simp [hj]

/-- The entries of a written list are those of the old one and the new entry. -/
theorem mem_memPut {m : List (Nat × α)} {i : Nat} {e : Option α} {x : Nat × α} (h : x ∈ memPut i e m) :
    x ∈ m ∨ (x.1 = i ∧ e = some x.2) := by
  induction m with
  | nil => cases e <;> simp_all [memPut]
  | cons y r ih =>
    obtain ⟨a, v⟩ := y
    rw [memPut] at h
    split at h
    · cases e <;> simp_all; grind
    · split at h
      · cases e <;> simp_all; grind
      · rcases List.mem_cons.mp h with h | h
        · simp [h]
        · rcases ih h with h | h
          · exact .inl (List.mem_cons_of_mem _ h)
          · exact .inr h

/-- A write keeps the indices strictly rising. -/
theorem memPut_rising {m : List (Nat × α)} (h : m.Pairwise fun a b => a.1 < b.1) (i : Nat) (e : Option α) :
    (memPut i e m).Pairwise fun a b => a.1 < b.1 := by
  induction m with
  | nil => cases e <;> simp [memPut]
  | cons y r ih =>
    obtain ⟨a, v⟩ := y
    have hr := List.pairwise_cons.mp h
    rw [memPut]
    split
    · cases e with
      | none => simpa using hr
      | some u =>
        simp only [Option.toList, List.map_cons, List.map_nil, List.cons_append, List.nil_append]
        refine List.pairwise_cons.mpr ⟨fun x hx => ?_, h⟩
        rcases List.mem_cons.mp hx with hx | hx
        · subst hx; assumption
        · have := hr.1 x hx; dsimp only at *; omega
    · split
      · rename_i hia
        subst hia
        cases e with
        | none => simpa using hr.2
        | some u => simpa using hr
      · refine List.pairwise_cons.mpr ⟨fun x hx => ?_, ih hr.2⟩
        rcases mem_memPut hx with hx | hx
        · exact hr.1 x hx
        · have := hx.1; dsimp only at *; omega

/-- A write that lists no blank entry keeps the canonical form. -/
theorem memPut_wf {blank : Option α} {m : List (Nat × α)} (h : Memory.wf blank m) (i : Nat) {e : Option α}
    (he : ∀ v, e = some v → some v ≠ blank) : Memory.wf blank (memPut i e m) :=
  ⟨memPut_rising h.1 i e, fun x hx => (mem_memPut hx).elim (h.2 x) fun hx => he x.2 hx.2⟩

/-- Lists in canonical form that read alike everywhere are equal: equal storage is equal data. -/
theorem memory_ext {m m' : List (Nat × α)} (h : m.Pairwise fun a b => a.1 < b.1)
    (h' : m'.Pairwise fun a b => a.1 < b.1) (e : ∀ i, memFind m i = memFind m' i) : m = m' := by
  induction m generalizing m' with
  | nil =>
    cases m' with
    | nil => rfl
    | cons y r => have := e y.1; simp [memFind] at this
  | cons x r ih =>
    cases m' with
    | nil => have := e x.1; simp [memFind] at this
    | cons y r' =>
      obtain ⟨a, v⟩ := x
      obtain ⟨b, w⟩ := y
      rw [List.pairwise_cons] at h h'
      have key : a = b := by
        rcases Nat.lt_trichotomy a b with hab | hab | hab
        · have := e a
          rw [memFind, if_pos rfl, memFind, if_neg (by omega),
            memFind_eq_none_of_lt fun z hz => Nat.lt_trans hab (h'.1 z hz)] at this
          cases this
        · exact hab
        · have := e b
          rw [memFind, if_neg (by omega), memFind_eq_none_of_lt fun z hz => Nat.lt_trans hab (h.1 z hz), memFind,
            if_pos rfl] at this
          cases this
      subst key
      have hv := e a
      simp only [memFind, if_true, Option.some.injEq] at hv
      subst hv
      congr 1
      refine ih h.2 h'.2 fun i => ?_
      by_cases hi : a = i
      · subst hi
        rw [memFind_eq_none_of_lt h.1, memFind_eq_none_of_lt h'.1]
      · have := e i
        simpa [memFind, hi] using this

end Sys2Proof.Machine
end

