-- ==== Sys2Proof/Laws/State.lean ====
section
/-! SUPPORT. One lemma per field per update of the state, and what the accessors read after an update. -/

namespace Sys2Proof.Machine

section Setters

variable (s : State) (i : Nat) (q : Fifo) (sl : Slot) (ph : Phase)

@[simp] theorem State.setFifo_cfg : (s.setFifo i q).cfg = s.cfg := rfl
@[simp] theorem State.setFifo_fifos : (s.setFifo i q).fifos = s.fifos.set i q := rfl
@[simp] theorem State.setFifo_slots : (s.setFifo i q).slots = s.slots := rfl
@[simp] theorem State.setFifo_ports : (s.setFifo i q).ports = s.ports := rfl
@[simp] theorem State.setFifo_serving : (s.setFifo i q).serving = s.serving := rfl
@[simp] theorem State.setFifo_agenda : (s.setFifo i q).agenda = s.agenda := rfl
@[simp] theorem State.setFifo_draws : (s.setFifo i q).draws = s.draws := rfl

@[simp] theorem State.setSlot_cfg : (s.setSlot i sl).cfg = s.cfg := rfl
@[simp] theorem State.setSlot_fifos : (s.setSlot i sl).fifos = s.fifos := rfl
@[simp] theorem State.setSlot_slots : (s.setSlot i sl).slots = s.slots.set i sl := rfl
@[simp] theorem State.setSlot_ports : (s.setSlot i sl).ports = s.ports := rfl
@[simp] theorem State.setSlot_serving : (s.setSlot i sl).serving = s.serving := rfl
@[simp] theorem State.setSlot_agenda : (s.setSlot i sl).agenda = s.agenda := rfl
@[simp] theorem State.setSlot_draws : (s.setSlot i sl).draws = s.draws := rfl

@[simp] theorem State.setPort_cfg : (s.setPort i ph).cfg = s.cfg := rfl
@[simp] theorem State.setPort_fifos : (s.setPort i ph).fifos = s.fifos := rfl
@[simp] theorem State.setPort_slots : (s.setPort i ph).slots = s.slots := rfl
@[simp] theorem State.setPort_ports : (s.setPort i ph).ports = s.ports.set i ph := rfl
@[simp] theorem State.setPort_serving : (s.setPort i ph).serving = s.serving := rfl
@[simp] theorem State.setPort_agenda : (s.setPort i ph).agenda = s.agenda := rfl
@[simp] theorem State.setPort_draws : (s.setPort i ph).draws = s.draws := rfl

@[simp] theorem serve_cfg : (serve i s).cfg = s.cfg := rfl
@[simp] theorem serve_fifos : (serve i s).fifos = s.fifos := rfl
@[simp] theorem serve_slots : (serve i s).slots = s.slots := rfl
@[simp] theorem serve_ports : (serve i s).ports = s.ports := rfl
@[simp] theorem serve_serving : (serve i s).serving = i := rfl
@[simp] theorem serve_agenda : (serve i s).agenda = s.agenda := rfl
@[simp] theorem serve_draws : (serve i s).draws = s.draws := rfl

@[simp] theorem resetStep_cfg : (resetStep s).cfg = s.cfg := rfl
@[simp] theorem resetStep_fifos : (resetStep s).fifos = List.replicate numFifo Fifo.reset := rfl
@[simp] theorem resetStep_slots : (resetStep s).slots = List.replicate s.cfg.numSlots Slot.reset := rfl
@[simp] theorem resetStep_ports : (resetStep s).ports = List.replicate s.cfg.numPorts Phase.idle := rfl
@[simp] theorem resetStep_serving : (resetStep s).serving = 0 := rfl
@[simp] theorem resetStep_agenda : (resetStep s).agenda = s.agenda := rfl
@[simp] theorem resetStep_draws : (resetStep s).draws = s.draws := rfl

@[simp] theorem clearFifo_cfg (f : Nat) : (clearFifo f s).cfg = s.cfg := rfl
@[simp] theorem clearFifo_slots (f : Nat) : (clearFifo f s).slots = s.slots := rfl
@[simp] theorem clearFifo_ports (f : Nat) : (clearFifo f s).ports = s.ports.map (abortPhase f) := rfl
@[simp] theorem clearFifo_serving (f : Nat) : (clearFifo f s).serving = s.serving := rfl
@[simp] theorem clearFifo_agenda (f : Nat) : (clearFifo f s).agenda = s.agenda := rfl
@[simp] theorem clearFifo_draws (f : Nat) : (clearFifo f s).draws = s.draws := rfl

end Setters

section Getters

variable (s : State) (i j : Nat) (q : Fifo) (sl : Slot) (ph : Phase)

@[simp] theorem State.fifo_setSlot : (s.setSlot i sl).fifo j = s.fifo j := rfl
@[simp] theorem State.fifo_setPort : (s.setPort i ph).fifo j = s.fifo j := rfl
@[simp] theorem State.fifo_serve : (serve i s).fifo j = s.fifo j := rfl
@[simp] theorem State.slot_setFifo : (s.setFifo i q).slot j = s.slot j := rfl
@[simp] theorem State.slot_setPort : (s.setPort i ph).slot j = s.slot j := rfl
@[simp] theorem State.slot_serve : (serve i s).slot j = s.slot j := rfl
@[simp] theorem State.slot_clearFifo (f : Nat) : (clearFifo f s).slot j = s.slot j := rfl
@[simp] theorem State.port_setFifo : (s.setFifo i q).port? j = s.port? j := rfl
@[simp] theorem State.port_setSlot : (s.setSlot i sl).port? j = s.port? j := rfl
@[simp] theorem State.port_serve : (serve i s).port? j = s.port? j := rfl

/-- Putting a FIFO and reading it back. -/
theorem State.fifo_setFifo_self (h : i < s.fifos.length) : (s.setFifo i q).fifo i = q := by
  simp [State.fifo, h]

/-- Putting a FIFO leaves the others. -/
theorem State.fifo_setFifo_other (h : j ≠ i) : (s.setFifo i q).fifo j = s.fifo j := by
  simp [State.fifo, List.getElem?_set_ne (Ne.symm h)]

/-- Putting a slot and reading it back. -/
theorem State.slot_setSlot_self (h : i < s.slots.length) : (s.setSlot i sl).slot i = sl := by
  simp [State.slot, h]

/-- Putting a slot leaves the others. -/
theorem State.slot_setSlot_other (h : j ≠ i) : (s.setSlot i sl).slot j = s.slot j := by
  simp [State.slot, List.getElem?_set_ne (Ne.symm h)]

/-- Putting a phase and reading it back. -/
theorem State.port_setPort_self (h : i < s.ports.length) : (s.setPort i ph).port? i = some ph := by
  simp [State.port?, h]

/-- Putting a phase leaves the other ports. -/
theorem State.port_setPort_other (h : j ≠ i) : (s.setPort i ph).port? j = s.port? j := by
  simp [State.port?, List.getElem?_set_ne (Ne.symm h)]

end Getters

end Sys2Proof.Machine
end

