-- ==== Sys2Proof/Laws/Ops.lean ====
section
/-! SUPPORT. What each shared operation can do, said once. -/

namespace Sys2Proof.Machine

/-! ## Responses, checks, transfers -/

/-- `respond` answers the port being served and changes nothing else. -/
theorem respond_eq (st : Status) (r : Word) (u : List Frame) (s : State) :
    respond st r u s = s.setPort s.serving (.done ⟨st, r, u⟩) := rfl

/-- `refuse` answers with the status, result 0 and no payload, and changes nothing else (60_exceptions.md R201). -/
theorem refuse_eq (st : Status) (s : State) : refuse st s = s.setPort s.serving (.done ⟨st, 0#32, []⟩) := rfl

/-- A command is refused with the status of its first failing check, or its rule runs. -/
theorem checked_cases (i : Instr) (rule : State → State) (s : State) :
    (∃ st, checkCommand s.cfg i = some st ∧ checked i rule s = refuse st s) ∨
    (checkCommand s.cfg i = none ∧ checked i rule s = rule s) := by
  unfold checked
  split
  · exact .inl ⟨_, ‹_›, rfl⟩
  · exact .inr ⟨‹_›, rfl⟩

/-- A command whose checks pass runs its rule. -/
theorem checked_of_none {i : Instr} {s : State} (h : checkCommand s.cfg i = none) (rule : State → State) :
    checked i rule s = rule s := by simp [checked, h]

/-- A command is refused only with ILLEGAL, BADID, BADLEN or BADVAL. -/
theorem checkCommand_status {cfg : Config} {i : Instr} {st : Status} (h : checkCommand cfg i = some st) :
    st = .illegal ∨ st = .badId ∨ st = .badLen ∨ st = .badVal := by
  unfold checkCommand at h
  repeat' split at h
  all_goals simp_all

/-- A transfer at its perform step: done in full, or blocked, or WOULDBLOCK with one event counted. -/
theorem attempt_cases (b : Bool) (r : Request) (s : State) :
    (requestReady s r = true ∧ attempt b r s = transfer r s) ∨
    (requestReady s r = false ∧ b = true ∧ attempt b r s = s.setPort s.serving (.blocked r)) ∨
    (requestReady s r = false ∧ b = false ∧
      attempt b r s = (countFailure r s).setPort s.serving (.done ⟨.wouldBlock, 0#32, []⟩)) := by
  unfold attempt
  split
  · exact .inl ⟨‹_›, rfl⟩
  · split
    · exact .inr (.inl ⟨by simp_all, ‹_›, rfl⟩)
    · refine .inr (.inr ⟨by simp_all, by simp_all, ?_⟩)
      cases r <;> rfl

/-! ## Counters -/

/-- A counter goes up by one and stops at 2^32 − 1 (10_state.md R26). -/
theorem satInc_toNat (v : BitVec 32) : (satInc v).toNat = min (v.toNat + 1) (2 ^ 32 - 1) := by
  unfold satInc
  have := v.isLt
  split
  · subst v; decide
  · rename_i h
    have : v.toNat ≠ 2 ^ 32 - 1 := fun h' => h (BitVec.eq_of_toNat_eq (by simpa using h'))
    rw [BitVec.toNat_add]
    simp only [BitVec.toNat_ofNat]
    omega

/-! ## Slot storage -/

/-- A word written is the word read, and every other word is as it was. -/
theorem bufRead_bufWrite {sl : Slot} (h : Memory.wf (some 0#32) sl.buf) (i j : Nat) (v : Word) :
    bufRead (bufWrite sl i v) j = if j = i then v else bufRead sl j := by
  simp only [bufRead, bufWrite, memFind_memPut h.1]
  by_cases hj : j = i
  · by_cases hv : v = 0#32 <;> simp [hj, hv]
  · simp [hj]

/-- A write keeps the canonical form of slot storage. -/
theorem bufWrite_wf {sl : Slot} (h : Memory.wf (some 0#32) sl.buf) (i : Nat) (v : Word) :
    Memory.wf (some 0#32) (bufWrite sl i v).buf := by
  refine memPut_wf h i fun u hu => ?_
  by_cases hv : v = 0#32
  · simp [hv] at hu
  · simp only [hv, if_false, Option.some.injEq] at hu
    simpa [← hu] using hv

/-- A write lists no index but its own and those already listed. -/
theorem mem_bufWrite {sl : Slot} {i : Nat} {v : Word} {e : Nat × Word} (h : e ∈ (bufWrite sl i v).buf) :
    e ∈ sl.buf ∨ e.1 = i := (mem_memPut h).imp_right And.left

/-- Circular addressing without negative numbers: the index of 10_state.md R31 with the lookback clamped. -/
theorem dlIndex_eq {sl : Slot} (h : 1 ≤ sl.cap) (k : Nat) :
    dlIndex sl k = (sl.cur + sl.cap - 1 - min k (sl.cap - 1)) % sl.cap := by
  unfold dlIndex
  have e : ((sl.cur : Int) - 1 - (min k (sl.cap - 1) : Nat)) % (sl.cap : Int) =
      ((sl.cur + sl.cap - 1 - min k (sl.cap - 1) : Nat) : Int) % (sl.cap : Int) := by
    rw [← Int.add_emod_right]
    congr 1
    omega
  rw [e, ← Int.natCast_emod, Int.toNat_natCast]

/-- Circular addressing stays inside the live words. -/
theorem dlIndex_lt {sl : Slot} (h : 1 ≤ sl.cap) (k : Nat) : dlIndex sl k < sl.cap := by
  rw [dlIndex_eq h]; exact Nat.mod_lt _ h

/-- A lookback at or past the capacity reads the oldest word (41_delay_line.md R130). -/
theorem dlIndex_clamp (sl : Slot) {k : Nat} (hk : sl.cap - 1 ≤ k) : dlIndex sl k = dlIndex sl (sl.cap - 1) := by
  simp [dlIndex, Nat.min_eq_right hk]

@[simp] theorem dlWrite_cap (sl : Slot) (v : Word) : (dlWrite sl v).cap = sl.cap := rfl
@[simp] theorem dlWrite_cur (sl : Slot) (v : Word) : (dlWrite sl v).cur = (sl.cur + 1) % sl.cap := rfl
@[simp] theorem dlWrite_buf (sl : Slot) (v : Word) : (dlWrite sl v).buf = (bufWrite sl sl.cur v).buf := rfl
@[simp] theorem dlWrite_gain (sl : Slot) (v : Word) : (dlWrite sl v).gain = sl.gain := rfl
@[simp] theorem dlWrite_fb (sl : Slot) (v : Word) : (dlWrite sl v).fb = sl.fb := rfl
@[simp] theorem dlWrite_damp (sl : Slot) (v : Word) : (dlWrite sl v).damp = sl.damp := rfl
@[simp] theorem dlWrite_damp2 (sl : Slot) (v : Word) : (dlWrite sl v).damp2 = sl.damp2 := rfl
@[simp] theorem dlWrite_fstate (sl : Slot) (v : Word) : (dlWrite sl v).fstate = sl.fstate := rfl
@[simp] theorem dlWrite_tapd (sl : Slot) (v : Word) : (dlWrite sl v).tapd = sl.tapd := rfl
@[simp] theorem dlWrite_tapg (sl : Slot) (v : Word) : (dlWrite sl v).tapg = sl.tapg := rfl

/-- `dl_write` stores at the cursor and leaves every other word (41_delay_line.md R130). -/
theorem bufRead_dlWrite {sl : Slot} (h : Memory.wf (some 0#32) sl.buf) (v : Word) (j : Nat) :
    bufRead (dlWrite sl v) j = if j = sl.cur then v else bufRead sl j := bufRead_bufWrite h sl.cur j v

/-- The delayed sample is the oldest word of the line (42_filter_kernels.md R150). -/
theorem delayedSample_eq {sl : Slot} (h : 1 ≤ sl.cap) (hc : sl.cur < sl.cap) :
    delayedSample sl = dlRead sl (sl.cap - 1) := by
  unfold delayedSample dlRead
  congr 1
  rw [dlIndex_eq h, Nat.min_self, show sl.cur + sl.cap - 1 - (sl.cap - 1) = sl.cur by omega, Nat.mod_eq_of_lt hc]

/-- After a cleared history every word reads 0 (41_delay_line.md R135). -/
@[simp] theorem bufRead_clearHistory (sl : Slot) (i : Nat) : bufRead (clearHistory sl) i = 0#32 := rfl

/-! ## FIFO storage -/

/-- What the stores of a batch leave at an index: the unit stored there, or what was there. -/
theorem memFind_storeUnits {c head : Nat} {m : List (Nat × Frame)} (h : m.Pairwise fun a b => a.1 < b.1) (i : Nat)
    (u : List Frame) (hu : u.length ≤ c) (j : Nat) (hj : j < u.length) :
    memFind (storeUnits c head i u m) ((head + i + j) % c) = u[j]? := by
  induction u generalizing i m j with
  | nil => simp at hj
  | cons x us ih =>
    have hc : 0 < c := by simp at hu; omega
    rw [storeUnits]
    cases j with
    | succ j =>
      have := ih (memPut_rising h ((head + i) % c) (some x)) (i + 1) (by simp at hu; omega) j (by simpa using hj)
      rw [show head + i + (j + 1) = head + (i + 1) + j by omega, this]
      rfl
    | zero =>
      clear ih hj
      simp only [List.length_cons] at hu
      have keep : ∀ (vs : List Frame) (k : Nat) (m' : List (Nat × Frame)),
          m'.Pairwise (fun a b => a.1 < b.1) → 1 ≤ k → k + vs.length ≤ c →
          memFind m' ((head + i) % c) = some x →
          memFind (storeUnits c head (i + k) vs m') ((head + i) % c) = some x := by
        intro vs
        induction vs with
        | nil => intro k m' _ _ _ hx; exact hx
        | cons y ys ih =>
          intro k m' hm hk hl hx
          simp only [List.length_cons] at hl
          rw [storeUnits, Nat.add_assoc]
          refine ih (k + 1) _ (memPut_rising hm _ _) (by omega) (by omega) ?_
          rw [memFind_memPut hm, if_neg, hx]
          intro e
          have := Nat.sub_mod_eq_zero_of_mod_eq e.symm
          rw [show head + (i + k) - (head + i) = k by omega, Nat.mod_eq_of_lt (by omega)] at this
          omega
      exact keep us 1 _ (memPut_rising h _ _) (le_refl 1) (by omega) (by rw [memFind_memPut h, if_pos rfl])

/-- The stores of a batch leave every index alone that is not one of theirs. -/
theorem memFind_storeUnits_other {c head : Nat} {m : List (Nat × Frame)} (h : m.Pairwise fun a b => a.1 < b.1) (i : Nat)
    (u : List Frame) (a : Nat) (ha : ∀ j < u.length, a ≠ (head + i + j) % c) :
    memFind (storeUnits c head i u m) a = memFind m a := by
  induction u generalizing i m with
  | nil => rfl
  | cons x us ih =>
    rw [storeUnits, ih (memPut_rising h _ _) (i + 1) fun j hj => by
      rw [show head + (i + 1) + j = head + i + (j + 1) by omega]
      exact ha (j + 1) (by simpa using hj)]
    rw [memFind_memPut h, if_neg]
    simpa using ha 0 (by simp)

/-- The stores of a batch keep the canonical form of FIFO storage. -/
theorem storeUnits_wf {c head : Nat} {m : List (Nat × Frame)} (h : Memory.wf none m) (i : Nat) (u : List Frame) :
    Memory.wf none (storeUnits c head i u m) := by
  induction u generalizing i m with
  | nil => exact h
  | cons x us ih => exact ih (memPut_wf h _ (by simp)) (i + 1)

/-- The entries after the stores of a batch: old ones, and units of the batch inside the storage. -/
theorem mem_storeUnits {c head : Nat} {m : List (Nat × Frame)} {i : Nat} {u : List Frame} {e : Nat × Frame}
    (hc : 0 < c) (h : e ∈ storeUnits c head i u m) : e ∈ m ∨ (e.1 < c ∧ e.2 ∈ u) := by
  induction u generalizing i m with
  | nil => exact .inl h
  | cons x us ih =>
    rcases ih h with h | ⟨h1, h2⟩
    · rcases mem_memPut h with h | ⟨h1, h2⟩
      · exact .inl h
      · refine .inr ⟨h1 ▸ Nat.mod_lt _ hc, ?_⟩
        simp only [Option.some.injEq] at h2
        simp [h2]
    · exact .inr ⟨h1, List.mem_cons_of_mem _ h2⟩

@[simp] theorem oldestUnits_length (w f c n : Nat) (q : Fifo) : (oldestUnits w f c n q).length = n := by
  simp [oldestUnits]

/-- The `n` oldest units are the first `n` of the content (40_fifo.md R103). -/
theorem oldestUnits_take (w f c : Nat) (q : Fifo) {n m : Nat} (h : n ≤ m) :
    oldestUnits w f c n q = (oldestUnits w f c m q).take n := by
  simp only [oldestUnits, ← List.map_take]
  rw [List.take_range, Nat.min_eq_left h]

/-- `dequeue` leaves the content without its first `n` units (40_fifo.md R103). -/
theorem oldestUnits_dequeue (w f c : Nat) (q : Fifo) (n m : Nat) :
    oldestUnits w f c (m - n) (dequeue c n q) = (oldestUnits w f c m q).drop n := by
  apply List.ext_getElem
  · simp
  · intro i h1 h2
    simp only [oldestUnits_length, List.length_drop] at h1 h2
    simp only [oldestUnits, List.getElem_map, List.getElem_range, List.getElem_drop, dequeue, loadUnit]
    rw [Nat.mod_add_mod, Nat.add_assoc]

/-- `enqueue` appends the batch to the content (40_fifo.md R101). -/
theorem oldestUnits_enqueue {cfg : Config} {f : Nat} {q : Fifo} (h : FifoOk cfg f q) (u : List Frame)
    (hu : q.count + u.length ≤ cfg.capOf f) (w : Nat) :
    oldestUnits w f (cfg.capOf f) (q.count + u.length) (enqueue (cfg.capOf f) u q) =
      oldestUnits w f (cfg.capOf f) q.count q ++ u := by
  obtain ⟨_, hh, _, hr, hm, _, _⟩ := h
  have hc : 0 < cfg.capOf f := by omega
  apply List.ext_getElem
  · simp
  · intro i h1 h2
    rw [oldestUnits_length] at h1
    simp only [oldestUnits, List.getElem_map, List.getElem_range, enqueue, loadUnit]
    by_cases hi : i < q.count
    · rw [List.getElem_append_left (by simpa using hi)]
      simp only [List.getElem_map, List.getElem_range]
      rw [memFind_storeUnits_other hm.1 0 u]
      intro j hj e
      rw [hr, Nat.add_zero, Nat.mod_add_mod, Nat.add_assoc] at e
      have := Nat.sub_mod_eq_zero_of_mod_eq e.symm
      rw [show q.tail + (q.count + j) - (q.tail + i) = q.count + j - i by omega, Nat.mod_eq_of_lt (by omega)] at this
      omega
    · rw [List.getElem_append_right (by simpa using hi)]
      have := memFind_storeUnits (c := cfg.capOf f) (head := q.head) hm.1 0 u (by omega) (i - q.count) (by omega)
      rw [hr, Nat.add_zero, Nat.mod_add_mod, show q.tail + q.count + (i - q.count) = q.tail + i by omega, ← hr] at this
      rw [this, List.getElem?_eq_getElem (by omega : i - q.count < u.length)]
      simp

/-! ## Storage after reset and after a clear is in canonical form -/

theorem fifo_reset_wf (cfg : Config) (f : Nat) : Memory.wf none ((State.resetOf cfg).fifo f).mem := by
  have h : (State.resetOf cfg).fifo f = Fifo.reset := by
    simp only [State.fifo, State.resetOf, List.getD_eq_getElem?_getD, List.getElem?_replicate]
    split <;> rfl
  rw [h]
  exact ⟨List.Pairwise.nil, by simp [Fifo.reset]⟩

theorem slot_reset_wf (cfg : Config) (sid : Nat) : Memory.wf (some 0#32) ((State.resetOf cfg).slot sid).buf := by
  have h : (State.resetOf cfg).slot sid = Slot.reset := by
    simp only [State.slot, State.resetOf, List.getD_eq_getElem?_getD, List.getElem?_replicate]
    split <;> rfl
  rw [h]
  exact ⟨List.Pairwise.nil, by simp [Slot.reset]⟩

theorem clearHistory_wf (sl : Slot) : Memory.wf (some 0#32) (clearHistory sl).buf :=
  ⟨List.Pairwise.nil, by simp [clearHistory]⟩

/-! ## Words of a given sign and magnitude -/

@[simp] theorem f32Pack_msb (sign : Bool) (mag : Nat) : (f32Pack sign mag).msb = sign := by
  unfold f32Pack
  rw [BitVec.msb_append]
  cases sign <;> simp

theorem f32Pack_magnitude (sign : Bool) {mag : Nat} (h : mag < 2 ^ 31) : f32Magnitude (f32Pack sign mag) = mag := by
  unfold f32Pack f32Magnitude
  rw [BitVec.extractLsb'_append_eq_of_add_le (by omega)]
  simp
  omega

/-- A word is its sign and its magnitude. -/
theorem f32_ext {a b : Word} (hs : a.msb = b.msb) (hm : f32Magnitude a = f32Magnitude b) : a = b := by
  have split_toNat : ∀ z : Word, z.toNat = (if z.msb then 2 ^ 31 else 0) + f32Magnitude z := by
    intro z
    have := z.isLt
    simp only [f32Magnitude, BitVec.extractLsb'_toNat, BitVec.msb_eq_decide, Nat.shiftRight_zero, decide_eq_true_eq]
    split <;> omega
  exact BitVec.eq_of_toNat_eq (by rw [split_toNat, split_toNat, hs, hm])

end Sys2Proof.Machine
end

