-- ==== Sys2Proof/Laws/PerInstr.lean ====
section
/-! SUPPORT. The family OpcodeTable: the word the encoder writes for an instruction meets the mask and the match of that
instruction's row of spec/opcode_table.json (30_encoding.md R80). -/

namespace Sys2Proof.Laws.OpcodeTable

/-- The mask of an instruction's row, as a word of its format: the opcode and the must-be-zero bits. -/
def rowMask : Instr → Word
  | .fifoWrite _ _ _ _ | .fifoRead _ _ _ => 0xF0000000#32
  | .fifoAvailRd _ | .fifoAvailWr _ | .fifoClear _ => 0xF8FFFFFF#32
  | .fifoInfo _ _ => 0xF8000000#32
  | .dlRead _ _ => 0xFF000000#32
  | .dlWrite _ _ | .dlReadi _ _ | .apStep _ _ | .combStep _ _ | .erStep _ _ | .slotClr _ => 0xFF00FFFF#32
  | .slotWr _ _ _ | .slotRd _ _ => 0xF000FFF8#32

/-- The match of an instruction's row. -/
def rowMatch : Instr → Word
  | .fifoWrite _ _ _ _ => 0x10000000#32
  | .fifoRead _ _ _ => 0x20000000#32
  | .fifoAvailRd _ => 0x30000000#32
  | .fifoAvailWr _ => 0x40000000#32
  | .fifoClear _ => 0x50000000#32
  | .fifoInfo _ _ => 0x60000000#32
  | .dlWrite _ _ => 0x70000000#32
  | .dlRead _ _ => 0x80000000#32
  | .dlReadi _ _ => 0x90000000#32
  | .apStep _ _ => 0xA0000000#32
  | .combStep _ _ => 0xB0000000#32
  | .erStep _ _ => 0xC0000000#32
  | .slotWr _ _ _ => 0xD0000000#32
  | .slotRd _ _ => 0xE0000000#32
  | .slotClr _ => 0xF0000000#32

/-- The encoded word meets its row. -/
def Statement (i : Instr) : Prop := encodeWord i &&& rowMask i = rowMatch i

theorem formatF_row (op : BitVec 4) (b b' : Bool) (fid : BitVec 3) (n n' : BitVec 24) (m : Word)
    (h : m = formatF 0xF#4 b' 0#3 n') : formatF op b fid n &&& m = formatF op (b && b') 0#3 (n &&& n') := by
  rw [h, formatF_and]
  have : op &&& 0xF#4 = op := BitVec.and_allOnes
  simp [this]

theorem formatS_row (op sub sub' : BitVec 4) (sid : BitVec 8) (imm imm' : BitVec 16) (m : Word)
    (h : m = formatS 0xF#4 sub' 0#8 imm') : formatS op sub sid imm &&& m = formatS op (sub &&& sub') 0#8 (imm &&& imm') := by
  rw [h, formatS_and]
  have : op &&& 0xF#4 = op := BitVec.and_allOnes
  simp [this]

/-- The IMM16 of a register has no bit above its tap index. -/
theorem imm_and_high (reg : SlotReg) : reg.imm &&& 0xFFF8#16 = 0#16 := by
  have (t : Fin 8) : BitVec.ofNat 16 t.val &&& 0xFFF8#16 = 0#16 := by revert t; decide
  cases reg <;> first | exact this _ | rfl

theorem fifoWrite (b : Bool) (fid : BitVec 3) (n : BitVec 24) (u : List Frame) : Statement (.fifoWrite b fid n u) := by
  simp only [Statement, encodeWord, rowMask, rowMatch]
  rw [formatF_row _ b false fid n 0#24 _ (by decide)]
  simp only [BitVec.and_zero, Bool.and_false]
  decide
theorem fifoRead (b : Bool) (fid : BitVec 3) (n : BitVec 24) : Statement (.fifoRead b fid n) := by
  simp only [Statement, encodeWord, rowMask, rowMatch]
  rw [formatF_row _ b false fid n 0#24 _ (by decide)]
  simp only [BitVec.and_zero, Bool.and_false]
  decide
theorem fifoAvailRd (fid : BitVec 3) : Statement (.fifoAvailRd fid) := by
  simp only [Statement, encodeWord, rowMask, rowMatch]
  rw [formatF_row _ _ true fid _ 0xFFFFFF#24 _ (by decide)]
  decide
theorem fifoAvailWr (fid : BitVec 3) : Statement (.fifoAvailWr fid) := by
  simp only [Statement, encodeWord, rowMask, rowMatch]
  rw [formatF_row _ _ true fid _ 0xFFFFFF#24 _ (by decide)]
  decide
theorem fifoClear (fid : BitVec 3) : Statement (.fifoClear fid) := by
  simp only [Statement, encodeWord, rowMask, rowMatch]
  rw [formatF_row _ _ true fid _ 0xFFFFFF#24 _ (by decide)]
  decide
theorem fifoInfo (fid : BitVec 3) (sel : InfoSel) : Statement (.fifoInfo fid sel) := by
  simp only [Statement, encodeWord, rowMask, rowMatch]
  rw [formatF_row _ _ true fid _ 0#24 _ (by decide)]
  cases sel <;> decide
theorem dlWrite (sid : BitVec 8) (v : Word) : Statement (.dlWrite sid v) := by
  simp only [Statement, encodeWord, rowMask, rowMatch]
  rw [formatS_row _ _ 0xF#4 sid _ 0xFFFF#16 _ (by decide)]
  decide
theorem dlRead (sid : BitVec 8) (k : BitVec 16) : Statement (.dlRead sid k) := by
  simp only [Statement, encodeWord, rowMask, rowMatch]
  rw [formatS_row _ _ 0xF#4 sid _ 0#16 _ (by decide)]
  simp only [BitVec.and_zero]
  decide
theorem dlReadi (sid : BitVec 8) (off : Word) : Statement (.dlReadi sid off) := by
  simp only [Statement, encodeWord, rowMask, rowMatch]
  rw [formatS_row _ _ 0xF#4 sid _ 0xFFFF#16 _ (by decide)]
  decide
theorem apStep (sid : BitVec 8) (x : Word) : Statement (.apStep sid x) := by
  simp only [Statement, encodeWord, rowMask, rowMatch]
  rw [formatS_row _ _ 0xF#4 sid _ 0xFFFF#16 _ (by decide)]
  decide
theorem combStep (sid : BitVec 8) (x : Word) : Statement (.combStep sid x) := by
  simp only [Statement, encodeWord, rowMask, rowMatch]
  rw [formatS_row _ _ 0xF#4 sid _ 0xFFFF#16 _ (by decide)]
  decide
theorem erStep (sid : BitVec 8) (x : Word) : Statement (.erStep sid x) := by
  simp only [Statement, encodeWord, rowMask, rowMatch]
  rw [formatS_row _ _ 0xF#4 sid _ 0xFFFF#16 _ (by decide)]
  decide
theorem slotWr (sid : BitVec 8) (reg : SlotReg) (v : Word) : Statement (.slotWr sid reg v) := by
  simp only [Statement, encodeWord, rowMask, rowMatch]
  rw [formatS_row _ _ 0#4 sid _ 0xFFF8#16 _ (by decide), imm_and_high]
  simp only [BitVec.and_zero]
  decide
theorem slotRd (sid : BitVec 8) (reg : SlotReg) : Statement (.slotRd sid reg) := by
  simp only [Statement, encodeWord, rowMask, rowMatch]
  rw [formatS_row _ _ 0#4 sid _ 0xFFF8#16 _ (by decide), imm_and_high]
  simp only [BitVec.and_zero]
  decide
theorem slotClr (sid : BitVec 8) : Statement (.slotClr sid) := by
  simp only [Statement, encodeWord, rowMask, rowMatch]
  rw [formatS_row _ _ 0xF#4 sid _ 0xFFFF#16 _ (by decide)]
  decide

end Sys2Proof.Laws.OpcodeTable
end

