-- ==== Sys2Proof/Laws/Steps.lean ====
section
/-! SUPPORT. What a command and a step can do, said once: the lemmas proofs cite instead of unfolding `exec` and `step`. -/

namespace Sys2Proof.Machine

/-! ## Commands -/

/-- The slot a command leaves, and its result, where it names an existing slot and passes its checks: the pure effect of
the slot commands. -/
def slotEffect (cfg : Config) (sl : Slot) : Instr → Slot × Word
  | .dlWrite _ v => (dlWrite sl v, 0#32)
  | .dlRead _ k => (sl, dlRead sl k.toNat)
  | .dlReadi _ off => (sl, interpolate sl off)
  | .apStep _ x => (dlWrite sl (allPassStore sl x), allPassOutput sl x)
  | .combStep _ x => (dlWrite { sl with fstate := combState sl } (combStore sl x), delayedSample sl)
  | .erStep _ x => (dlWrite sl x, f32Mul (tapSum (dlWrite sl x)) f32Eighth)
  | .slotWr _ reg v => (writeReg cfg.dmax sl reg v, 0#32)
  | .slotRd _ reg => (sl, readReg sl reg)
  | .slotClr _ => (clearHistory sl, 0#32)
  | .fifoWrite _ _ _ _ | .fifoRead _ _ _ | .fifoAvailRd _ | .fifoAvailWr _ | .fifoClear _ | .fifoInfo _ _ => (sl, 0#32)

/-- The slot a command names. -/
def slotOf : Instr → Option (BitVec 8)
  | .dlWrite sid _ | .dlRead sid _ | .dlReadi sid _ | .apStep sid _ | .combStep sid _ | .erStep sid _
  | .slotWr sid _ _ | .slotRd sid _ | .slotClr sid => some sid
  | .fifoWrite _ _ _ _ | .fifoRead _ _ _ | .fifoAvailRd _ | .fifoAvailWr _ | .fifoClear _ | .fifoInfo _ _ => none

/-- Putting a slot where it stands changes nothing. -/
theorem State.setSlot_slot (s : State) (sid : Nat) : s.setSlot sid (s.slot sid) = s := by
  have : s.slots.set sid (s.slot sid) = s.slots := by
    apply List.ext_getElem?
    intro i
    rw [List.getElem?_set]
    split
    · subst i
      split
      · rename_i h
        simp [State.slot, h]
      · rename_i h
        simp [List.getElem?_eq_none (Nat.le_of_not_lt h)]
    · rfl
  simp [State.setSlot, this]

/-- A slot command whose checks pass puts its slot and answers OK. -/
theorem exec_slot {i : Instr} {sid : BitVec 8} (hi : slotOf i = some sid) {s : State} (h : checkCommand s.cfg i = none) :
    exec i s = .next (respond .ok (slotEffect s.cfg (s.slot sid.toNat) i).2 []
      (s.setSlot sid.toNat (slotEffect s.cfg (s.slot sid.toNat) i).1)) := by
  cases i <;> simp only [slotOf, Option.some.injEq, reduceCtorEq] at hi <;> subst hi
  all_goals
    simp only [exec, slotEffect, State.setSlot_slot]
    first
    | exact congrArg Host.Outcome.next (checked_of_none h _)

/-! The FIFO commands whose checks pass. -/

theorem exec_fifoWrite {s : State} {b : Bool} {fid : BitVec 3} {n : BitVec 24} {u : List Frame}
    (h : checkCommand s.cfg (.fifoWrite b fid n u) = none) :
    exec (.fifoWrite b fid n u) s = .next (attempt b (.write fid.toNat n.toNat u) s) :=
  congrArg Host.Outcome.next (checked_of_none h _)

theorem exec_fifoRead {s : State} {b : Bool} {fid : BitVec 3} {n : BitVec 24}
    (h : checkCommand s.cfg (.fifoRead b fid n) = none) :
    exec (.fifoRead b fid n) s = .next (attempt b (.read fid.toNat n.toNat) s) :=
  congrArg Host.Outcome.next (checked_of_none h _)

theorem exec_fifoAvailRd {s : State} {fid : BitVec 3} (h : checkCommand s.cfg (.fifoAvailRd fid) = none) :
    exec (.fifoAvailRd fid) s = .next (respond .ok (zext32 (s.fifo fid.toNat).count) [] s) :=
  congrArg Host.Outcome.next (checked_of_none h _)

theorem exec_fifoAvailWr {s : State} {fid : BitVec 3} (h : checkCommand s.cfg (.fifoAvailWr fid) = none) :
    exec (.fifoAvailWr fid) s =
      .next (respond .ok (zext32 (s.cfg.capOf fid.toNat - (s.fifo fid.toNat).count)) [] s) :=
  congrArg Host.Outcome.next (checked_of_none h _)

theorem exec_fifoClear {s : State} {fid : BitVec 3} (h : checkCommand s.cfg (.fifoClear fid) = none) :
    exec (.fifoClear fid) s = .next (respond .ok 0#32 [] (clearFifo fid.toNat s)) :=
  congrArg Host.Outcome.next (checked_of_none h _)

theorem exec_fifoInfo {s : State} {fid : BitVec 3} {sel : InfoSel}
    (h : checkCommand s.cfg (.fifoInfo fid sel) = none) :
    exec (.fifoInfo fid sel) s = .next (respond .ok (infoWord s fid.toNat sel) [] s) :=
  congrArg Host.Outcome.next (checked_of_none h _)

/-- What a command can do: be refused, transfer units (or wait, or fail), read a number of a FIFO, clear one, or act on its
slot. -/
theorem exec_cases (i : Instr) (s : State) :
    (∃ st, checkCommand s.cfg i = some st ∧ exec i s = .next (refuse st s)) ∨
    checkCommand s.cfg i = none ∧
      ((∃ b fid n u, i = .fifoWrite b fid n u ∧ exec i s = .next (attempt b (.write fid.toNat n.toNat u) s)) ∨
       (∃ b fid n, i = .fifoRead b fid n ∧ exec i s = .next (attempt b (.read fid.toNat n.toNat) s)) ∨
       (∃ fid r, (i = .fifoAvailRd fid ∨ i = .fifoAvailWr fid ∨ ∃ sel, i = .fifoInfo fid sel) ∧
         exec i s = .next (respond .ok r [] s)) ∨
       (∃ fid, i = .fifoClear fid ∧ exec i s = .next (respond .ok 0#32 [] (clearFifo fid.toNat s))) ∨
       (∃ sid, slotOf i = some sid ∧ exec i s = .next (respond .ok (slotEffect s.cfg (s.slot sid.toNat) i).2 []
         (s.setSlot sid.toNat (slotEffect s.cfg (s.slot sid.toNat) i).1)))) := by
  cases h : checkCommand s.cfg i with
  | some st =>
    refine .inl ⟨st, rfl, ?_⟩
    cases i <;> simp only [exec, execFifoWrite, execFifoRead, execFifoAvailRd, execFifoAvailWr, execFifoClear,
      execFifoInfo, execDlWrite, execDlRead, execDlReadi, execApStep, execCombStep, execErStep, execSlotWr, execSlotRd,
      execSlotClr, checked, h]
  | none =>
    refine .inr ⟨rfl, ?_⟩
    cases hs : slotOf i with
    | some sid => exact .inr (.inr (.inr (.inr ⟨sid, rfl, exec_slot hs h⟩)))
    | none =>
      cases i <;> simp only [slotOf, reduceCtorEq] at hs
      case fifoWrite b fid n u =>
        exact .inl ⟨b, fid, n, u, rfl, exec_fifoWrite h⟩
      case fifoRead b fid n =>
        exact .inr (.inl ⟨b, fid, n, rfl, exec_fifoRead h⟩)
      case fifoAvailRd fid =>
        exact .inr (.inr (.inl ⟨fid, _, .inl rfl, exec_fifoAvailRd h⟩))
      case fifoAvailWr fid =>
        exact .inr (.inr (.inl ⟨fid, _, .inr (.inl rfl), exec_fifoAvailWr h⟩))
      case fifoInfo fid sel =>
        exact .inr (.inr (.inl ⟨fid, _, .inr (.inr ⟨sel, rfl⟩), exec_fifoInfo h⟩))
      case fifoClear fid =>
        exact .inr (.inr (.inr (.inl ⟨fid, rfl, exec_fifoClear h⟩)))

/-! ## Checks that pass -/

/-- A term that no check refuses is well formed. -/
theorem wellFormed_of_check {cfg : Config} {i : Instr} (h : checkCommand cfg i = none) : i.wellFormed = true := by
  unfold checkCommand at h
  split at h
  · cases h
  · simp_all

/-- What passing the checks says of a command. -/
theorem check_eq_none_iff (cfg : Config) (i : Instr) :
    checkCommand cfg i = none ↔
      i.wellFormed = true ∧ targetExists cfg i = true ∧ lengthMatches i = true ∧ operandLegal i = true := by
  unfold checkCommand
  cases i.wellFormed <;> cases targetExists cfg i <;> cases lengthMatches i <;> cases operandLegal i <;> simp

/-- A slot command that passes names an existing slot. -/
theorem slot_lt_of_check {cfg : Config} {i : Instr} (h : checkCommand cfg i = none) {sid : BitVec 8}
    (hs : slotOf i = some sid) : sid.toNat < cfg.numSlots := by
  have := ((check_eq_none_iff cfg i).mp h).2.1
  cases i <;> simp_all [slotOf, targetExists]

/-! ## Steps -/

/-- The next event is taken in a state that differs from `s` in nothing but the world's script and draws. -/
theorem nextEvent_state (s : State) :
    ∃ a d, (nextEvent s).2 = { s with agenda := a, draws := d } := by
  unfold nextEvent
  split
  · exact ⟨_, _, rfl⟩
  · exact ⟨_, _, rfl⟩

/-- What taking an event can do. -/
theorem takeEvent_cases (e : Event) (s t : State) (h : takeEvent e s = .next t) :
    (t = s ∧ enabled s e = false) ∨
    (∃ p c, e = .issue p c ∧ s.port? p = some .idle ∧ c.fits s.cfg ∧ t = s.setPort p (.issued c)) ∨
    (∃ p c x, e = .perform p ∧ s.port? p = some (.issued c) ∧ decode c = .error x ∧ t = refuse .illegal (serve p s)) ∨
    (∃ p c i, e = .perform p ∧ s.port? p = some (.issued c) ∧ decode c = .ok i ∧ exec i (serve p s) = .next t) ∨
    (∃ p r, e = .complete p ∧ s.port? p = some (.blocked r) ∧ requestReady s r = true ∧ t = transfer r (serve p s)) ∨
    (∃ p r, e = .collect p ∧ s.port? p = some (.done r) ∧ t = s.setPort p .idle) ∨
    (e = .reset ∧ t = resetStep s) := by
  cases e with
  | issue p c =>
    simp only [takeEvent, worldStep, issueStep, Host.Outcome.next.injEq] at h
    split at h
    · rename_i he
      simp only [enabled, Bool.and_eq_true, beq_iff_eq, decide_eq_true_eq] at he
      exact .inr (.inl ⟨p, c, rfl, he.1, he.2, h.symm⟩)
    · exact .inl ⟨h.symm, by simp_all⟩
  | perform p =>
    simp only [takeEvent, performStep] at h
    cases hc : issuedCommand p s with
    | none =>
      simp only [hc, Host.Outcome.next.injEq] at h
      exact .inl ⟨h.symm, by simp [enabled, hc]⟩
    | some c =>
      have hp : s.port? p = some (.issued c) := by
        unfold issuedCommand at hc
        split at hc <;> simp_all
      rw [hc] at h
      dsimp only at h
      split at h
      · exact .inr (.inr (.inr (.inl ⟨p, c, _, rfl, hp, ‹_›, h⟩)))
      · cases h
        exact .inr (.inr (.inl ⟨p, c, _, rfl, hp, ‹_›, rfl⟩))
  | complete p =>
    simp only [takeEvent, worldStep, completeStep, Host.Outcome.next.injEq] at h
    cases hr : readyRequest p s with
    | none =>
      rw [hr] at h
      exact .inl ⟨h.symm, by simp [enabled, hr]⟩
    | some r =>
      rw [hr] at h
      have hp : s.port? p = some (.blocked r) ∧ requestReady s r = true := by
        unfold readyRequest at hr
        split at hr
        · split at hr <;> simp_all
        all_goals cases hr
      exact .inr (.inr (.inr (.inr (.inl ⟨p, r, rfl, hp.1, hp.2, h.symm⟩))))
  | collect p =>
    simp only [takeEvent, worldStep, collectStep, Host.Outcome.next.injEq] at h
    split at h
    · rename_i hr
      unfold hasResponse at hr
      split at hr
      · exact .inr (.inr (.inr (.inr (.inr (.inl ⟨p, _, rfl, ‹_›, h.symm⟩)))))
      all_goals cases hr
    · exact .inl ⟨h.symm, by simp_all [enabled]⟩
  | reset =>
    simp only [takeEvent, worldStep, Host.Outcome.next.injEq] at h
    exact .inr (.inr (.inr (.inr (.inr (.inr ⟨rfl, h.symm⟩)))))

end Sys2Proof.Machine
end

