-- ==== Sys2Proof/Laws/Transfers.lean ====
section
/-! SUPPORT. What a transfer, a clear and a delay-line write do to FIFOs, ports and slots, and that they keep them well
formed. -/

namespace Sys2Proof.Machine

/-! ## The content of a FIFO -/

/-- The content has `count` units. -/
theorem fifoContent_length (s : State) (f : Nat) : (fifoContent s f).length = (s.fifo f).count := by simp [fifoContent]

/-- A state with the same FIFO and build shows the same content. -/
theorem fifoContent_congr {s t : State} {f : Nat} (h : t.fifo f = s.fifo f) (hc : t.cfg = s.cfg) :
    fifoContent t f = fifoContent s f := by unfold fifoContent; rw [h, hc]

/-- `enqueue` appends. -/
theorem fifoContent_enqueue {s t : State} {f : Nat} {u : List Frame} (h : FifoOk s.cfg f (s.fifo f))
    (hu : (s.fifo f).count + u.length ≤ s.cfg.capOf f) (ht : t.fifo f = enqueue (s.cfg.capOf f) u (s.fifo f))
    (hc : t.cfg = s.cfg) : fifoContent t f = fifoContent s f ++ u := by
  unfold fifoContent
  rw [ht, hc]
  exact oldestUnits_enqueue h u hu _

/-- `dequeue` drops. -/
theorem fifoContent_dequeue {s t : State} {f n : Nat} (ht : t.fifo f = dequeue (s.cfg.capOf f) n (s.fifo f))
    (hc : t.cfg = s.cfg) : fifoContent t f = (fifoContent s f).drop n := by
  unfold fifoContent
  rw [ht, hc]
  exact oldestUnits_dequeue _ _ _ _ _ _

/-- The units a read returns. -/
theorem oldestUnits_eq_take {s : State} {f n : Nat} (h : n ≤ (s.fifo f).count) :
    oldestUnits s.cfg.unitW f (s.cfg.capOf f) n (s.fifo f) = (fifoContent s f).take n := oldestUnits_take _ _ _ _ h

/-! ## Well-formed FIFOs stay so -/

theorem fifoOk_enqueue {cfg : Config} {f : Nat} {q : Fifo} (h : FifoOk cfg f q) {u : List Frame} (hu : unitsFit cfg u)
    (hr : q.count + u.length ≤ cfg.capOf f) : FifoOk cfg f (enqueue (cfg.capOf f) u q) := by
  obtain ⟨_, _, ht, hh, hm, he, hl⟩ := h
  have hc : 0 < cfg.capOf f := by omega
  refine ⟨hr, Nat.mod_lt _ hc, ht, ?_, storeUnits_wf hm _ _, ?_, ?_⟩
  · simp only [enqueue]
    rw [hh, Nat.mod_add_mod, Nat.add_assoc]
  · intro x hx
    rcases mem_storeUnits hc hx with hx | ⟨h1, h2⟩
    · exact he x hx
    · exact ⟨h1, hu _ h2⟩
  · intro i hi
    simp only [enqueue] at hi ⊢
    by_cases hlt : i < q.count
    · rw [memFind_storeUnits_other hm.1]
      · exact hl i hlt
      · intro j hj e
        rw [hh, Nat.add_zero, Nat.mod_add_mod, Nat.add_assoc] at e
        have := Nat.sub_mod_eq_zero_of_mod_eq e.symm
        rw [show q.tail + (q.count + j) - (q.tail + i) = q.count + j - i by omega, Nat.mod_eq_of_lt (by omega)] at this
        omega
    · have := memFind_storeUnits (c := cfg.capOf f) (head := q.head) hm.1 0 u (by omega) (i - q.count) (by omega)
      rw [hh, Nat.add_zero, Nat.mod_add_mod, show q.tail + q.count + (i - q.count) = q.tail + i by omega, ← hh] at this
      rw [this, List.getElem?_eq_getElem (by omega)]
      rfl

theorem fifoOk_dequeue {cfg : Config} {f : Nat} {q : Fifo} (h : FifoOk cfg f q) {n : Nat} (hn : n ≤ q.count) :
    FifoOk cfg f (dequeue (cfg.capOf f) n q) := by
  obtain ⟨hc, hb, _, hh, hm, he, hl⟩ := h
  have hpos : 0 < cfg.capOf f := by omega
  refine ⟨by simp only [dequeue]; omega, hb, Nat.mod_lt _ hpos, ?_, hm, he, fun i hi => ?_⟩
  · simp only [dequeue]
    rw [Nat.mod_add_mod, hh]
    congr 1
    omega
  · simp only [dequeue] at hi ⊢
    rw [Nat.mod_add_mod, Nat.add_assoc]
    exact hl _ (by omega)

/-! ## A transfer -/

/-- The FIFO a transfer leaves. -/
def requestEffect (c : Nat) (q : Fifo) : Request → Fifo
  | .write _ _ u => enqueue c u q
  | .read _ n => dequeue c n q

/-- The payload a transfer answers with. -/
def requestPayload (s : State) : Request → List Frame
  | .write _ _ _ => []
  | .read f n => oldestUnits s.cfg.unitW f (s.cfg.capOf f) n (s.fifo f)

/-- A transfer puts its FIFO and answers OK, and changes nothing else. -/
theorem transfer_eq (r : Request) (s : State) :
    transfer r s = (s.setFifo r.fid (requestEffect (s.cfg.capOf r.fid) (s.fifo r.fid) r)).setPort s.serving
      (.done ⟨.ok, 0#32, requestPayload s r⟩) := by cases r <;> rfl

theorem transfer_fifo {s : State} {r : Request} (h : r.fid < s.fifos.length) :
    (transfer r s).fifo r.fid = requestEffect (s.cfg.capOf r.fid) (s.fifo r.fid) r := by
  rw [transfer_eq, State.fifo_setPort, State.fifo_setFifo_self _ _ _ h]

theorem transfer_fifo_other {s : State} {r : Request} {g : Nat} (h : g ≠ r.fid) :
    (transfer r s).fifo g = s.fifo g := by
  rw [transfer_eq, State.fifo_setPort, State.fifo_setFifo_other _ _ _ _ h]

theorem transfer_port {s : State} {r : Request} (h : s.serving < s.ports.length) :
    (transfer r s).port? s.serving = some (.done ⟨.ok, 0#32, requestPayload s r⟩) := by
  rw [transfer_eq]
  exact State.port_setPort_self _ _ _ (by simpa using h)

theorem transfer_port_other {s : State} {r : Request} {q : Nat} (h : q ≠ s.serving) :
    (transfer r s).port? q = s.port? q := by
  rw [transfer_eq, State.port_setPort_other _ _ _ _ h, State.port_setFifo]

/-! ## A clear -/

theorem clearFifo_fifo {s : State} {f : Nat} (h : f < s.fifos.length) :
    (clearFifo f s).fifo f = { s.fifo f with head := 0, tail := 0, count := 0 } := State.fifo_setFifo_self s f _ h

theorem clearFifo_fifo_other {s : State} {f g : Nat} (h : g ≠ f) : (clearFifo f s).fifo g = s.fifo g :=
  State.fifo_setFifo_other s f g _ h

theorem clearFifo_port (s : State) (f q : Nat) : (clearFifo f s).port? q = (s.port? q).map (abortPhase f) := by
  simp [State.port?, clearFifo]

/-! ## A delay-line write keeps a slot well formed -/

theorem slotOk_dlWrite {cfg : Config} {sl : Slot} (h : SlotOk cfg sl) (fs v : Word) :
    SlotOk cfg (dlWrite { sl with fstate := fs } v) := by
  obtain ⟨hc, hd, hcur, h1, h2, h3, h4, h5, hb, hm⟩ := h
  refine ⟨hc, hd, Nat.mod_lt _ (by show 0 < sl.cap; omega), h1, h2, h3, h4, h5,
    bufWrite_wf (sl := { sl with fstate := fs }) hb _ _, fun x hx => ?_⟩
  rcases mem_bufWrite hx with hx | hx
  · exact hm x hx
  · show x.1 < sl.cap
    rw [hx]
    exact hcur

end Sys2Proof.Machine
end

