-- ==== Sys2Proof/Tests/Slice0.lean ====
section
/-! SUPPORT. Tests: the checks refuse ill-formed terms, words of the spec decode, one step of each command gives what
spec/95_test_vectors.md says, and every statement's premises can be met. -/

namespace Sys2Proof.Tests

open Sys2Proof Sys2Proof.Machine

/-! ## Well-formedness: each check refuses an ill-formed term -/

/-- A write of each read-only register (43_slot_config.md R186). -/
theorem test_wellFormed_readOnly : [SlotReg.damp2, .fstate, .cur].map (fun r => (Instr.slotWr 0#8 r 0#32).wellFormed) =
    [false, false, false] := by decide

theorem test_wellFormed_writable : [SlotReg.cap, .gain, .fb, .damp, .tapd 7, .tapg 0].map
    (fun r => (Instr.slotWr 0#8 r 0#32).wellFormed) = [true, true, true, true, true, true] := by decide

/-- A unit of 2^32 does not fit the 32-bit units of the build; 2^32 − 1 does (30_encoding.md R70). -/
theorem test_fits : (Command.mk 0#32 0#32 [2 ^ 32 - 1]).fits Config.testBuild ∧
    ¬(Command.mk 0#32 0#32 [2 ^ 32]).fits Config.testBuild := by decide

/-- One build that breaks each range of 00_scope.md R5. -/
theorem test_legal_ranges : Config.testBuild.Legal ∧
    ∀ cfg ∈ [{ Config.testBuild with capF := [8] }, { Config.testBuild with capF := [8, 0] },
      { Config.testBuild with capF := [2 ^ 24, 4] }, { Config.testBuild with unitW := 0 },
      { Config.testBuild with numSlots := 0 }, { Config.testBuild with numSlots := 257 },
      { Config.testBuild with dmax := 0 }, { Config.testBuild with dmax := 65537 },
      { Config.testBuild with numPorts := 0, domainOf := [] }, { Config.testBuild with domainOf := [0] }],
      ¬cfg.Legal := by decide

/-- The largest and the smallest build are legal. -/
theorem test_legal_bounds :
    (Config.mk [2 ^ 24 - 1, 1] 1 256 65536 1 [7]).Legal ∧ (Config.mk [1, 2 ^ 24 - 1] 1 1 1 1 [0]).Legal := by decide

/-! ## Decoding: words written out from 30_encoding.md R72, R73, R80 and spec/95_test_vectors.md -/

/-- The command with this word and operand and no payload. -/
def word (w : Word) (opd : Word := 0#32) : Command := ⟨w, opd, []⟩

theorem test_decode_fifoWrite : decode ⟨0x19000005#32, 0#32, [1, 2]⟩ = .ok (.fifoWrite true 1#3 5#24 [1, 2]) := by decide
theorem test_decode_fifoRead : decode (word 0x28000006#32) = .ok (.fifoRead true 0#3 6#24) := by decide
theorem test_decode_fifoAvailRd : decode (word 0x31000000#32) = .ok (.fifoAvailRd 1#3) := by decide
theorem test_decode_fifoAvailWr : decode (word 0x41000000#32) = .ok (.fifoAvailWr 1#3) := by decide
theorem test_decode_fifoClear : decode (word 0x51000000#32) = .ok (.fifoClear 1#3) := by decide
theorem test_decode_fifoInfo : decode (word 0x61000002#32) = .ok (.fifoInfo 1#3 .udr) := by decide
theorem test_decode_dlWrite : decode (word 0x70010000#32 0x7FC00001#32) = .ok (.dlWrite 1#8 0x7FC00001#32) := by decide
theorem test_decode_dlRead : decode (word 0x8000FFFF#32) = .ok (.dlRead 0#8 0xFFFF#16) := by decide
theorem test_decode_dlReadi : decode (word 0x90010000#32 0x8000#32) = .ok (.dlReadi 1#8 0x8000#32) := by decide
theorem test_decode_apStep : decode (word 0xA0000000#32 0x3F800000#32) = .ok (.apStep 0#8 0x3F800000#32) := by decide
theorem test_decode_combStep : decode (word 0xB0010000#32) = .ok (.combStep 1#8 0#32) := by decide
theorem test_decode_erStep : decode (word 0xC0020000#32 0x3F800000#32) = .ok (.erStep 2#8 0x3F800000#32) := by decide
theorem test_decode_slotWr : decode (word 0xD6020003#32 0x1F4#32) = .ok (.slotWr 2#8 (.tapd 3) 0x1F4#32) := by decide
theorem test_decode_slotRd : decode (word 0xE8030000#32) = .ok (.slotRd 3#8 .cur) := by decide
theorem test_decode_slotClr : decode (word 0xF0010000#32) = .ok (.slotClr 1#8) := by decide

/-- The refused words of V-F9, V-D8, V-A5 and section 2.6, with the case of 30_encoding.md R81 each falls under. -/
theorem test_decode_illegal :
    [0x00000000#32, 0x38000000#32, 0x50000001#32, 0x60000003#32, 0x62000003#32, 0x71000000#32, 0x81000000#32,
      0xA0000001#32, 0xD4000000#32, 0xD5000000#32, 0xD8000000#32, 0xE9000000#32, 0xD6000008#32, 0xD1000001#32,
      0xF1000000#32].map (fun w => decode (word w)) =
    [.error .reservedOpcode, .error .reservedBits, .error .reservedBits, .error .reservedSelector,
      .error .reservedSelector, .error .reservedBits, .error .reservedBits, .error .reservedBits,
      .error .readOnlyRegister, .error .readOnlyRegister, .error .readOnlyRegister, .error .reservedRegister,
      .error .reservedBits, .error .reservedBits, .error .reservedBits] := by decide

/-- The match words of spec/opcode_table.json. -/
theorem test_decodeTableWord :
    [0x10000000, 0x20000000, 0x30000000, 0x40000000, 0x50000000, 0x60000000, 0x70000000, 0x80000000, 0x90000000,
      0xA0000000, 0xB0000000, 0xC0000000, 0xD0000000, 0xE0000000, 0xF0000000].map (decodeTableWord 32) =
    [some (.fifoWrite false 0#3 0#24 []), some (.fifoRead false 0#3 0#24), some (.fifoAvailRd 0#3),
      some (.fifoAvailWr 0#3), some (.fifoClear 0#3), some (.fifoInfo 0#3 .cap), some (.dlWrite 0#8 0#32),
      some (.dlRead 0#8 0#16), some (.dlReadi 0#8 0#32), some (.apStep 0#8 0#32), some (.combStep 0#8 0#32),
      some (.erStep 0#8 0#32), some (.slotWr 0#8 .cap 0#32), some (.slotRd 0#8 .cap), some (.slotClr 0#8)] := by decide

/-- An operand word in bits 63..32. -/
theorem test_decodeTableWord_operand :
    decodeTableWord 64 0x3F000000D1000000 = some (.slotWr 0#8 .gain 0x3F000000#32) := by decide

/-! ## One step of each command, from spec/95_test_vectors.md -/

/-- `s` with FIFO `f` holding the units `u` from index `tail` on. -/
def withUnits (f tail : Nat) (u : List Frame) (s : State) : State :=
  s.setFifo f { s.fifo f with mem := storeUnits (s.cfg.capOf f) tail 0 u [], head := (tail + u.length) % s.cfg.capOf f,
                              tail := tail, count := u.length }

/-- `State.reset` with slot `sid` as given. -/
def withSlot (sid : Nat) (sl : Slot) : State := State.reset.setSlot sid sl

/-- The state after a command. -/
def ran (i : Instr) (s : State) : State := after s (exec i s)

/-- The response on port 0 after a command. -/
def answer (i : Instr) (s : State) : Option Phase := (ran i s).port? 0

/-- A response with a result word and no payload, as a phase. -/
def result (w : Word) : Option Phase := some (.done ⟨.ok, w, []⟩)

/-- FIFO 1 after step 3 of V-F2: c at index 2. -/
def fifoC : State := withUnits 1 2 [12] State.reset

/-- V-F2, fourth command: d, e, f go to indices 3, 0, 1, and head meets tail. -/
theorem test_fifoWrite_wraps : let t := ran (.fifoWrite false 1#3 3#24 [13, 14, 15]) fifoC
    (t.fifo 1).mem = [(0, 14), (1, 15), (2, 12), (3, 13)] ∧ (t.fifo 1).head = 2 ∧ (t.fifo 1).count = 4 := by decide

/-- V-F4: a write of 5 units into FIFO 1 answers WOULDBLOCK and counts one overflow. -/
theorem test_fifoWrite_overflow : let t := ran (.fifoWrite false 1#3 5#24 [1, 2, 3, 4, 5]) State.reset
    t.port? 0 = some (.done ⟨.wouldBlock, 0#32, []⟩) ∧ (t.fifo 1).ovf = 1#32 ∧ (t.fifo 1).count = 0 := by decide

/-- V-F2, last command: the units come from indices 2, 3, 0, 1. -/
theorem test_fifoRead_wraps : let t := ran (.fifoRead false 1#3 4#24) (withUnits 1 2 [12, 13, 14, 15] State.reset)
    t.port? 0 = some (.done ⟨.ok, 0#32, [12, 13, 14, 15]⟩) ∧ (t.fifo 1).tail = 2 ∧ (t.fifo 1).count = 0 := by decide

/-- L1-1, step 4: with 5 units present a blocking read of 6 waits and counts nothing. -/
theorem test_fifoRead_blocks : let t := ran (.fifoRead true 0#3 6#24) (withUnits 0 0 [0, 1, 2, 3, 4] State.reset)
    t.port? 0 = some (.blocked (.read 0 6)) ∧ (t.fifo 0).count = 5 ∧ (t.fifo 0).udr = 0#32 := by decide

/-- L1-1, steps 2 and 3. -/
theorem test_fifoAvailRd : answer (.fifoAvailRd 0#3) (withUnits 0 0 [0, 1, 2, 3, 4] State.reset) = result 5#32 := by decide
theorem test_fifoAvailWr : answer (.fifoAvailWr 0#3) (withUnits 0 0 [0, 1, 2, 3, 4] State.reset) = result 3#32 := by decide

/-- P4, step 2: the blocked read of port 1 is aborted; a request on the other FIFO is not. -/
theorem test_fifoClear :
    (ran (.fifoClear 0#3) ((State.reset.setPort 1 (.blocked (.read 0 4))).setPort 2 (.blocked (.read 1 4)))).ports =
      [.done ⟨.ok, 0#32, []⟩, .done ⟨.aborted, 0#32, []⟩, .blocked (.read 1 4), .idle] := by decide

/-- V-F5: a clear keeps the counters. -/
theorem test_fifoClear_keeps_counters :
    ((ran (.fifoClear 0#3) (State.reset.setFifo 0 { Fifo.reset with udr := 2#32 })).fifo 0).udr = 2#32 := by decide

theorem test_fifoInfo : (answer (.fifoInfo 1#3 .cap) State.reset = result 4#32) ∧
    answer (.fifoInfo 0#3 .udr) (State.reset.setFifo 0 { Fifo.reset with ovf := 7#32, udr := 2#32 }) = result 2#32 := by
  decide

/-- V-F6: the counter stops at 2^32 − 1. -/
theorem test_counter_saturates : satInc 0xFFFFFFFE#32 = 0xFFFFFFFF#32 ∧ satInc 0xFFFFFFFF#32 = 0xFFFFFFFF#32 := by decide

/-- The slot of V-D3: capacity 4, storage 5.0, 2.0, 3.0, 4.0, cursor 1. -/
def slotD3 : Slot :=
  { Slot.reset with cap := 4, cur := 1,
                    buf := [(0, 0x40A00000#32), (1, 0x40000000#32), (2, 0x40400000#32), (3, 0x40800000#32)] }

/-- V-D3: the fifth write of the run, 5.0 at index 0 after index 3. -/
theorem test_dlWrite : let t := ran (.dlWrite 0#8 0x40A00000#32) (withSlot 0 { slotD3 with cur := 0 })
    (t.slot 0).cur = 1 ∧ (t.slot 0).buf = slotD3.buf := by decide

/-- V-D3: lookbacks 0 and 5. -/
theorem test_dlRead : answer (.dlRead 0#8 0#16) (withSlot 0 slotD3) = result 0x40A00000#32 ∧
    answer (.dlRead 0#8 5#16) (withSlot 0 slotD3) = result 0x40000000#32 := by decide

/-- V-D4: offset 1.25 between 4.0 and 3.0. -/
theorem test_dlReadi : answer (.dlReadi 0#8 0x14000#32) (withSlot 0 slotD3) = result 0x40700000#32 := by decide +kernel

/-- V-D5 and V-D6: the exact path keeps a NaN's payload, the other makes it canonical; and −0 + +0 is +0. -/
theorem test_dlReadi_corners : let nan := withSlot 1 { Slot.reset with buf := [(0, 0x7FC00001#32)] }
    answer (.dlReadi 1#8 0#32) nan = result 0x7FC00001#32 ∧ answer (.dlReadi 1#8 0x8000#32) nan = result 0x7FC00000#32 ∧
    answer (.dlReadi 1#8 0x8000#32) (withSlot 1 { Slot.reset with buf := [(0, 0x80000000#32)] }) = result 0#32 := by decide +kernel

/-- V-A1, n = 0. -/
theorem test_apStep : let s := withSlot 0 { Slot.reset with cap := 2, gain := 0x3F000000#32 }
    answer (.apStep 0#8 0x3F800000#32) s = result 0xBF000000#32 ∧
    ((ran (.apStep 0#8 0x3F800000#32) s).slot 0).buf = [(0, 0x3F800000#32)] := by decide +kernel

/-- V-A2, the third step: F099 comes out and F099 × F099, rounded, is stored. -/
theorem test_apStep_rounds : let s := withSlot 0 { Slot.reset with gain := f32F099, buf := [(0, f32F099)] }
    answer (.apStep 0#8 0#32) s = result 0x3F7D70A4#32 ∧
    ((ran (.apStep 0#8 0#32) s).slot 0).buf = [(0, 0x3F7AE7D6#32)] := by decide +kernel

/-- V-C1, n = 8: the response is what was stored, FSTATE and the stored word are as in the table. -/
theorem test_combStep : let s := withSlot 1 { Slot.reset with
      cap := 2, fb := 0x3F000000#32, damp := 0x3F000000#32, damp2 := 0x3F000000#32, fstate := 0x3E000000#32,
      buf := [(0, 0x3DA00000#32), (1, 0x3D800000#32)] }
    let t := ran (.combStep 1#8 0#32) s
    t.port? 0 = result 0x3DA00000#32 ∧ (t.slot 1).fstate = 0x3DD00000#32 ∧
    (t.slot 1).buf = [(0, 0x3D500000#32), (1, 0x3D800000#32)] := by decide +kernel

/-- V-C5: the response is raw, FSTATE is a canonical NaN. -/
theorem test_combStep_nan : let t := ran (.combStep 1#8 0#32) (withSlot 1 { Slot.reset with buf := [(0, 0x7FC00001#32)] })
    t.port? 0 = result 0x7FC00001#32 ∧ (t.slot 1).fstate = 0x7FC00000#32 := by decide +kernel

/-- V-E2, n = 4: 5.0 is written at the cursor, then the taps are read; the delays past the end read as 3. -/
theorem test_erStep : answer (.erStep 2#8 0x40A00000#32) (withSlot 2 { slotD3 with
      buf := [(0, 0x3F800000#32), (1, 0x40000000#32), (2, 0x40400000#32), (3, 0x40800000#32)], cur := 0,
      tapd := #v[0, 1, 2, 3, 100, 5, 1, 0],
      tapg := #v[0x3F800000, 0x40000000, 0x3F000000, 0x3E800000, 0x3F800000, 0xBF800000, 0, 0] }) =
    result 0x3FF00000#32 := by decide +kernel

/-- V-E3: products of −0.0 sum to +0.0. -/
theorem test_erStep_zero : answer (.erStep 0#8 0xBF800000#32) (withSlot 0 { Slot.reset with cap := 2 }) = result 0#32 := by decide +kernel

/-- Section 2.6: clamping, and DAMP2 with DAMP. -/
theorem test_slotWr_damp : let t := ran (.slotWr 0#8 .damp 0x3E99999A#32) State.reset
    (t.slot 0).damp = 0x3E99999A#32 ∧ (t.slot 0).damp2 = 0x3F333333#32 := by decide +kernel

/-- V-S1: a CAP write is destructive and keeps GAIN. -/
theorem test_slotWr_cap :
    (ran (.slotWr 0#8 .cap 17#32) (withSlot 0 { slotD3 with gain := 0x3F000000#32, fstate := 1#32 })).slot 0 =
      { Slot.reset with cap := 16, gain := 0x3F000000#32 } := by decide

/-- V-R1. -/
theorem test_slotRd : answer (.slotRd 3#8 .damp2) State.reset = result 0x3F800000#32 ∧
    answer (.slotRd 3#8 .cap) State.reset = result 1#32 := by decide

theorem test_slotClr : (ran (.slotClr 0#8) (withSlot 0 { slotD3 with gain := 0x3F000000#32, fstate := 1#32 })).slot 0 =
    { Slot.reset with cap := 4, gain := 0x3F000000#32 } := by decide

/-- The host's placement: the next step performs the placed command (V-R1: DAMP2 of slot 3 is 1.0). -/
theorem test_withFetchWord :
    (after State.reset (step (State.reset.withFetchWord 32 0xE4030000))).port? 0 = result 0x3F800000#32 := by decide

/-- 30_encoding.md R84: a line of assembly. -/
theorem test_lineText : lineText (.core (.fifoRead true 0#3 6#24)) = "fifo.read.b f0, 6" := by decide

/-- 30_encoding.md R84: the literals 0.5, 0.3 and the offset 1.25 (the words of V-A1, V-C2 and V-D4). -/
theorem test_literals : f32OfRatio false 1 2 = 0x3F000000#32 ∧ f32OfRatio false 3 10 = 0x3E99999A#32 ∧
    offsetOfRatio 5 4 = some 0x14000#32 := by decide +kernel

/-! ## Witnesses: for every statement with premises, a state and operands that meet them all, at the bounds of its clauses -/

/-- FIFO 0 (capacity 8) holds five units that wrap, FIFO 1 (capacity 4) is full, slot 0 is that of V-D3. -/
def busy : State := (withUnits 1 2 [12, 13, 14, 15] (withUnits 0 6 [0, 1, 2, 3, 4] State.reset)).setSlot 0 slotD3

theorem busy_inv : StateInv busy :=
  ⟨by decide, by decide, by decide, by decide, by decide, by decide +kernel, by decide⟩

/-- A phase of the build on a port keeps the invariant. -/
theorem inv_setPort {s : State} (h : StateInv s) {p : Nat} {ph : Phase} (hp : phaseOk s.cfg ph = true) :
    StateInv (s.setPort p ph) := by
  obtain ⟨a, b, c, d, e, f, g⟩ := h
  refine ⟨a, b, c, by simpa using d, e, f, fun x hx => ?_⟩
  rcases List.mem_or_eq_of_mem_set hx with hx | rfl
  · exact g x hx
  · exact hp

theorem reset_inv : StateInv State.reset :=
  ⟨by decide, by decide, by decide, by decide, by decide, by decide +kernel, by decide⟩

/-- The premises that most command statements share. -/
theorem busy_ready : StateInv busy ∧ busy.serving < busy.ports.length := ⟨busy_inv, by decide⟩

/-- `busy` with a phase on port 1 and an agenda. -/
def withRequest (ph : Phase) (agenda : List Event) : State := { busy.setPort 1 ph with agenda := agenda }

theorem withRequest_inv {ph : Phase} (agenda : List Event) (h : phaseOk busy.cfg ph = true) :
    StateInv (withRequest ph agenda) := inv_setPort busy_inv h

theorem witness_DecodeEncodeAgree : (Instr.slotWr 255#8 (.tapd 7) 0#32).wellFormed = true := by decide
theorem witness_DecodedWordIsItsEncoding : decode (word 0xE6FF0007#32) = .ok (.slotRd 255#8 (.tapd 7)) := by decide

/-- Every case of 30_encoding.md R81 at a bound of its range, and the legal words next to them. -/
theorem witness_IllegalWordsAreRefused :
    (∀ w ∈ [0x0FFFFFFF, 0x38000000, 0x50000001, 0x68000000, 0x70000001, 0xCF000000, 0x81000000, 0xD6000008, 0xE7000008,
      0xD0000001, 0xE8000001, 0x60000003, 0x67FFFFFF, 0xD9000000, 0xEF000000, 0xD4000000, 0xD5000000, 0xD8000000],
      R81Illegal w) ∧
    (∀ w ∈ [0x10000000, 0x60000002, 0x8000FFFF, 0xD6000007, 0xE8000000, 0xE4000000], ¬R81Illegal w) ∧
    (withRequest (.issued (word 0#32)) [.perform 1]).agenda = [.perform 1] ∧
    (withRequest (.issued (word 0#32)) [.perform 1]).port? 1 = some (.issued (word 0#32)) := by
  refine ⟨fun w hw => ?_, fun w hw => ?_, by decide, by decide⟩
  all_goals
    simp only [List.mem_cons, List.not_mem_nil, or_false] at hw
    repeat' rcases hw with rfl | hw
    all_goals simp [R81Illegal]

theorem witness_StepPerformsTheDecodedCommand : let s := withRequest (.issued (word 0x21000002#32)) [.perform 1]
    s.agenda = [.perform 1] ∧ s.port? 1 = some (.issued (word 0x21000002#32)) ∧
    decode (word 0x21000002#32) = .ok (.fifoRead false 1#3 2#24) := by decide

theorem witness_AgentsIssueAndCollect : let ok := Response.mk .ok 0#32 []
    ((withRequest .idle [.issue 1 (word 0#32)]).port? 1 = some .idle ∧ (word 0#32).fits busy.cfg) ∧
    ((withRequest (.done ok) [.issue 1 (word 0#32)]).port? 1 ≠ some .idle) ∧
    (withRequest (.done ok) [.collect 1]).port? 1 = some (.done ok) ∧
    ∀ r, (withRequest .idle [.collect 1]).port? 1 ≠ some (.done r) := by
  refine ⟨by decide, by decide, by decide, fun r h => ?_⟩
  have : (withRequest .idle [.collect 1]).port? 1 = some .idle := by decide
  rw [this] at h
  cases h

/-- A step of each kind, from a state of the right number of ports. -/
theorem witness_PortPhasesAndBuild :
    ∀ s ∈ [withRequest .idle [.issue 1 (word 0#32)], withRequest (.issued (word 0x28000006#32)) [.perform 1],
      withRequest (.blocked (.read 0 5)) [.complete 1], withRequest (.done ⟨.ok, 0#32, []⟩) [.collect 1],
      withRequest (.blocked (.read 0 6)) [.reset]],
      s.ports.length = s.cfg.numPorts ∧ step s = .next (after s (step s)) := by
  intro s hs
  simp only [List.mem_cons, List.not_mem_nil, or_false] at hs
  rcases hs with rfl | rfl | rfl | rfl | rfl <;> exact ⟨by decide, rfl⟩

theorem witness_ResetStepDiscardsEverything :
    (withRequest (.blocked (.read 0 6)) [.reset]).agenda = [.reset] ∧ 3 < busy.cfg.numPorts := by decide

theorem witness_InvariantKeptByStep : let s := withRequest (.issued (word 0x20000005#32)) [.perform 1]
    StateInv s ∧ step s = .next (after s (step s)) := ⟨withRequest_inv _ (by decide), rfl⟩

theorem witness_InvariantHoldsAtReset : Config.testBuild.Legal := by decide

/-- Two steps from reset: a command issued and performed. -/
def twoSteps : List Event := [.issue 0 (word 0x20000001#32), .perform 0]

theorem reachable_twoSteps : ∃ s, Reachable Config.testBuild s ∧ (s.fifo 0).udr = 1#32 :=
  ⟨_, .step (.step (.reset twoSteps 0) rfl) rfl, by decide⟩

theorem witness_FifoInvariantsInReachableStates :
    Config.testBuild.Legal ∧ ∃ s, Reachable Config.testBuild s ∧ (s.fifo 0).udr = 1#32 ∧ 1 < numFifo :=
  ⟨by decide, reachable_twoSteps.imp fun _ h => ⟨h.1, h.2, by decide⟩⟩

theorem witness_SlotInvariantsInReachableStates :
    Config.testBuild.Legal ∧ ∃ s, Reachable Config.testBuild s ∧ (s.fifo 0).udr = 1#32 ∧ 3 < Config.testBuild.numSlots :=
  ⟨by decide, reachable_twoSteps.imp fun _ h => ⟨h.1, h.2, by decide⟩⟩

/-- The first and the last missing FIFO and slot, a payload too short and too long, and NaNs at both ends of their range. -/
theorem witness_FailedChecksAnswerInOrder : numFifo ≤ (2#3).toNat ∧ numFifo ≤ (7#3).toNat ∧
    busy.cfg.numSlots ≤ (4#8).toNat ∧ busy.cfg.numSlots ≤ (255#8).toNat ∧
    (1#3).toNat < numFifo ∧ [1, 2].length ≠ (1#24).toNat ∧ [1, 2].length ≠ (3#24).toNat ∧
    (3#8).toNat < busy.cfg.numSlots ∧ f32IsNaN 0x7F800001#32 = true ∧ f32IsNaN 0xFFFFFFFF#32 = true := by decide

/-- A command refused with each of the four statuses. -/
theorem witness_RefusedCommandsHaveNoEffect : busy.serving < busy.ports.length ∧
    ∀ x ∈ [(Instr.slotWr 0#8 .cur 0#32, Status.illegal), (.slotRd 4#8 .cap, .badId),
      (.fifoWrite true 0#3 2#24 [1], .badLen), (.slotWr 0#8 .fb 0x7FC00000#32, .badVal)],
      exec x.1 busy = .next (ran x.1 busy) ∧ (ran x.1 busy).port? busy.serving = some (.done ⟨x.2, 0#32, []⟩) := by
  refine ⟨by decide, fun x hx => ?_⟩
  simp only [List.mem_cons, List.not_mem_nil, or_false] at hx
  rcases hx with rfl | rfl | rfl | rfl <;> exact ⟨rfl, by decide⟩

/-- Three units fill FIFO 0 (five of eight); four are too many; none always fits. -/
theorem witness_FifoWriteAppendsOrFails : StateInv busy ∧ busy.serving < busy.ports.length ∧ (0#3).toNat < numFifo ∧
    [7, 8, 9].length = (3#24).toNat ∧ (busy.fifo 0).count + (3#24).toNat = busy.cfg.capOf 0 ∧
    [6, 7, 8, 9].length = (4#24).toNat ∧ (busy.fifo 0).count + (4#24).toNat = busy.cfg.capOf 0 + 1 ∧
    ([] : List Frame).length = (0#24).toNat ∧ (busy.fifo 1).count + (0#24).toNat = busy.cfg.capOf 1 :=
  ⟨busy_inv, by decide⟩

/-- Five units empty FIFO 0; six are too many. -/
theorem witness_FifoReadRemovesOrFails : StateInv busy ∧ busy.serving < busy.ports.length ∧ (0#3).toNat < numFifo ∧
    (5#24).toNat = (busy.fifo 0).count ∧ (6#24).toNat = (busy.fifo 0).count + 1 ∧
    (0#24).toNat = (State.reset.fifo 0).count := ⟨busy_inv, by decide⟩

theorem witness_AvailabilitySumIsCapacity : StateInv busy ∧ busy.serving < busy.ports.length ∧ (1#3).toNat < numFifo :=
  ⟨busy_inv, by decide⟩

theorem witness_FifoClearEmptiesAndAborts : let s := withRequest (.blocked (.read 0 6)) []
    s.serving < s.ports.length ∧ (0#3).toNat < numFifo ∧ s.fifos.length = numFifo ∧ 1 ≠ s.serving ∧
    s.port? 1 = some (.blocked (.read 0 6)) ∧ (Request.read 0 6).fid = (0#3).toNat ∧ 2 ≠ s.serving ∧
    (∀ r, s.port? 2 ≠ some (.blocked r)) := by
  refine ⟨by decide, by decide, by decide, by decide, by decide, by decide, by decide, fun r h => ?_⟩
  have : (withRequest (.blocked (.read 0 6)) []).port? 2 = some .idle := by decide
  rw [this] at h
  cases h

theorem witness_FifoInfoReadsCapacityAndCounters :
    StateInv busy ∧ busy.serving < busy.ports.length ∧ (1#3).toNat < numFifo := ⟨busy_inv, by decide⟩

/-- A transfer done, one that fails, one completed and one aborted, each answered in the step. -/
theorem witness_NoPartialTransfer :
    ∀ x ∈ [(withRequest (.issued ⟨0x10000003#32, 0#32, [7, 8, 9]⟩) [.perform 1], Request.write 0 3 [7, 8, 9],
        Response.mk .ok 0#32 []),
      (withRequest (.issued (word 0x20000006#32)) [.perform 1], .read 0 6, ⟨.wouldBlock, 0#32, []⟩),
      (withRequest (.blocked (.read 0 5)) [.complete 1], .read 0 5, ⟨.ok, 0#32, [0, 1, 2, 3, 4]⟩),
      ({ (withRequest (.blocked (.read 0 6)) []).setPort 2 (.issued (word 0x50000000#32)) with agenda := [.perform 2] },
        .read 0 6, ⟨.aborted, 0#32, []⟩)],
      StateInv x.1 ∧ step x.1 = .next (after x.1 (step x.1)) ∧ (x.1.port? 1).bind requestOf = some x.2.1 ∧
      (after x.1 (step x.1)).port? 1 = some (.done x.2.2) := by
  intro x hx
  simp only [List.mem_cons, List.not_mem_nil, or_false] at hx
  rcases hx with rfl | rfl | rfl | rfl
  · exact ⟨withRequest_inv _ (by decide), rfl, by decide, by decide +kernel⟩
  · exact ⟨withRequest_inv _ (by decide), rfl, by decide, by decide +kernel⟩
  · exact ⟨withRequest_inv _ (by decide), rfl, by decide, by decide +kernel⟩
  · exact ⟨inv_setPort (withRequest_inv [] (by decide)) (by decide), rfl, by decide, by decide +kernel⟩

/-- A failed write, a failed read, and a reset. -/
theorem witness_CountersCountFailuresOnly :
    (∀ s ∈ [withRequest (.issued ⟨0x11000001#32, 0#32, [7]⟩) [.perform 1],
      withRequest (.issued (word 0x20000006#32)) [.perform 1], withRequest .idle [.reset]],
      StateInv s ∧ step s = .next (after s (step s))) ∧
    (0 < numFifo ∧ 1 < numFifo) ∧
    (decode ⟨0x11000001#32, 0#32, [7]⟩ = .ok (.fifoWrite false 1#3 1#24 [7]) ∧
      (after busy (step (withRequest (.issued ⟨0x11000001#32, 0#32, [7]⟩) [.perform 1]))).port? 1 =
        some (.done ⟨.wouldBlock, 0#32, []⟩)) ∧
    (decode (word 0x20000006#32) = .ok (.fifoRead false 0#3 6#24) ∧
      (after busy (step (withRequest (.issued (word 0x20000006#32)) [.perform 1]))).port? 1 =
        some (.done ⟨.wouldBlock, 0#32, []⟩)) := by
  refine ⟨fun s hs => ?_, by decide, by decide +kernel, by decide +kernel⟩
  simp only [List.mem_cons, List.not_mem_nil, or_false] at hs
  rcases hs with rfl | rfl | rfl <;> exact ⟨withRequest_inv _ (by decide), rfl⟩

/-- FIFO 0 holding 1, 2, 3 from index `tail` on, and a reset scripted. -/
def heldAt (tail : Nat) : State := { withUnits 0 tail [1, 2, 3] State.reset with agenda := [.reset] }

/-- Two states that hold the same units at different places of FIFO 0. -/
theorem witness_RingShowsOnlyItsContent : StateInv (heldAt 6) ∧ StateInv (heldAt 1) ∧ SameView (heldAt 6) (heldAt 1) ∧
    step (heldAt 6) = .next (after busy (step (heldAt 6))) ∧ step (heldAt 1) = .next (after busy (step (heldAt 1))) :=
  ⟨⟨by decide, by decide, by decide, by decide, by decide, by decide +kernel, by decide⟩,
    ⟨by decide, by decide, by decide, by decide, by decide, by decide +kernel, by decide⟩, by decide +kernel, rfl, rfl⟩

/-- Writes of 3 and 3 and reads of 2 and 4, as in L1-3, on an empty FIFO 0. -/
theorem witness_UnitsLeaveInTheOrderWritten :
    StateInv State.reset ∧ State.reset.serving < State.reset.ports.length ∧ (0#3).toNat < numFifo ∧
    fifoContent State.reset 0 = [] ∧ (∀ u ∈ [[1, 2, 3], [4, 5, 6]], unitsFit State.reset.cfg u) ∧
    ([[1, 2, 3], [4, 5, 6]].map List.length).sum ≤ State.reset.cfg.capOf 0 ∧
    [2, 4].sum = ([[1, 2, 3], [4, 5, 6]].map List.length).sum := ⟨reset_inv, by decide +kernel⟩

/-- A read and a write that just fit, and a read and a write that do not. -/
theorem witness_CompletionTransfersAtOnce :
    (∀ r ∈ [Request.read 0 5, .write 0 3 [7, 8, 9], .read 0 6, .write 1 1 [7]],
      StateInv (withRequest (.blocked r) [.complete 1]) ∧ (withRequest (.blocked r) [.complete 1]).agenda = [.complete 1] ∧
      (withRequest (.blocked r) [.complete 1]).port? 1 = some (.blocked r)) ∧
    5 ≤ (busy.fifo 0).count ∧ 3 ≤ busy.cfg.capOf 0 - (busy.fifo 0).count ∧ ¬6 ≤ (busy.fifo 0).count ∧
    ¬1 ≤ busy.cfg.capOf 1 - (busy.fifo 1).count := by
  refine ⟨fun r hr => ?_, by decide +kernel⟩
  simp only [List.mem_cons, List.not_mem_nil, or_false] at hr
  rcases hr with rfl | rfl | rfl | rfl <;> exact ⟨withRequest_inv _ (by decide), rfl, by decide⟩

theorem witness_BlockedRequestEndsOnlySo : let s := withRequest (.blocked (.read 0 5)) [.complete 1]
    s.ports.length = s.cfg.numPorts ∧ step s = .next (after s (step s)) ∧ s.port? 1 = some (.blocked (.read 0 5)) :=
  ⟨by decide, rfl, by decide⟩

theorem witness_OversizedRequestNeverCompletes : let r := Request.write 1 5 [1, 2, 3, 4, 5]
    StateInv (withRequest (.blocked r) []) ∧ (withRequest (.blocked r) []).port? 1 = some (.blocked r) ∧
    busy.cfg.capOf r.fid < r.size := ⟨withRequest_inv _ (by decide), by decide, by decide⟩

/-- V-F7: a read of the five units held, and a clear issued on port 3. -/
theorem witness_ClearAndCompletionInEitherOrder :
    let s := (withRequest (.blocked (.read 0 5)) []).setPort 3 (.issued (word 0x50000000#32))
    StateInv s ∧ s.port? 1 = some (.blocked (.read 0 5)) ∧ requestReady s (.read 0 5) = true ∧
    s.port? 3 = some (.issued (word 0x50000000#32)) ∧ decode (word 0x50000000#32) = .ok (.fifoClear 0#3) ∧
    (0#3).toNat = (Request.read 0 5).fid :=
  ⟨inv_setPort (withRequest_inv [] (by decide)) (by decide), by decide +kernel⟩

/-- V-F8 on `busy`: port 1 waits for 4 units, port 2 takes 4 of the 5. -/
theorem witness_LateReadMayOvertake :
    let s := { (withRequest (.blocked (.read 0 4)) []).setPort 2 (.issued (word 0x20000004#32)) with agenda := [.perform 2] }
    StateInv s ∧ s.agenda = [.perform 2] ∧ s.port? 1 = some (.blocked (.read (0#3).toNat 4)) ∧
    4 ≤ (s.fifo (0#3).toNat).count ∧ s.port? 2 = some (.issued (word 0x20000004#32)) ∧
    decode (word 0x20000004#32) = .ok (.fifoRead false 0#3 4#24) ∧ (4#24).toNat ≤ (s.fifo (0#3).toNat).count ∧
    (s.fifo (0#3).toNat).count < 4 + (4#24).toNat :=
  ⟨inv_setPort (withRequest_inv [] (by decide)) (by decide), by decide +kernel⟩

/-- A fair run: port 1, blocked on 2 of the 5 units, is completed and collected; then nothing happens any more. -/
def fairStart : State := withRequest (.blocked (.read 0 2)) []

/-- After the completion. -/
def fairDone : State := after fairStart (takeEvent (.complete 1) fairStart)

/-- After the collection. -/
def fairEnd : State := after fairStart (takeEvent (.collect 1) fairDone)

/-- The run. -/
def fairRun (n : Nat) : State := if n = 0 then fairStart else if n = 1 then fairDone else fairEnd

/-- Its events. -/
def fairEvents (n : Nat) : Option Event :=
  if n = 0 then some (.complete 1) else if n = 1 then some (.collect 1) else none

theorem witness_FairRunsEndReadyRequests :
    IsRun fairRun fairEvents ∧ WeaklyFair fairRun fairEvents ∧
    (fairRun 0).ports.length = (fairRun 0).cfg.numPorts ∧ (fairRun 0).port? 1 = some (.blocked (.read 0 2)) ∧
    ∀ m, 0 ≤ m → requestReady (fairRun m) (.read 0 2) = true := by
  refine ⟨fun n => ?_, fun p e he n h => ?_, by decide, by decide, fun m _ => ?_⟩
  · match n with
    | 0 => exact ⟨by decide +kernel, rfl⟩
    | 1 => exact ⟨by decide +kernel, rfl⟩
    | n + 2 => rfl
  · exfalso
    have idle : fairEnd.ports = List.replicate 4 .idle := by decide +kernel
    have hn : enabled fairEnd e = true := h (n + 2) (by omega)
    have port : fairEnd.port? p = some .idle ∨ fairEnd.port? p = none := by
      simp only [State.port?, idle, List.getElem?_replicate]
      split <;> simp
    simp only [List.mem_cons, List.not_mem_nil, or_false] at he
    rcases he with rfl | rfl | rfl <;> rcases port with hp | hp <;>
      simp [enabled, issuedCommand, readyRequest, hasResponse, hp] at hn
  · match m with
    | 0 => decide +kernel
    | 1 => decide +kernel
    | m + 2 =>
      change requestReady fairEnd _ = true
      decide +kernel

theorem witness_DlWriteStoresAtTheCursor :
    StateInv busy ∧ busy.serving < busy.ports.length ∧ (0#8).toNat < busy.cfg.numSlots := ⟨busy_inv, by decide⟩
theorem witness_DlReadReturnsTheLookback :
    StateInv busy ∧ busy.serving < busy.ports.length ∧ (3#8).toNat < busy.cfg.numSlots := ⟨busy_inv, by decide⟩

/-- Offsets with a zero fraction and with the smallest and the largest one. -/
theorem witness_DlReadiInterpolates :
    StateInv busy ∧ busy.serving < busy.ports.length ∧ (0#8).toNat < busy.cfg.numSlots ∧
    (0x00030000#32).toNat % 2 ^ 16 = 0 ∧ (0x00030001#32).toNat % 2 ^ 16 ≠ 0 ∧ (0xFFFFFFFF#32).toNat % 2 ^ 16 ≠ 0 :=
  ⟨busy_inv, by decide⟩

/-- A line of four words: lookbacks 3 and 4, and four writes read back to lookback 3. -/
theorem witness_DelayLineProperties : SlotOk Config.testBuild slotD3 ∧ slotD3.cap ≤ 4 ∧
    slotD3.cap ≤ [1#32, 2#32, 3#32, 4#32].length ∧ 3 < slotD3.cap := by decide +kernel

theorem witness_ApStepFollowsTheRecurrence :
    StateInv busy ∧ busy.serving < busy.ports.length ∧ (0#8).toNat < busy.cfg.numSlots := ⟨busy_inv, by decide⟩
theorem witness_CombStepFollowsTheRecurrence :
    StateInv busy ∧ busy.serving < busy.ports.length ∧ (0#8).toNat < busy.cfg.numSlots := ⟨busy_inv, by decide⟩
theorem witness_ErStepSumsTheTaps :
    StateInv busy ∧ busy.serving < busy.ports.length ∧ (0#8).toNat < busy.cfg.numSlots := ⟨busy_inv, by decide⟩

/-- The run of one command, over and over, from reset. -/
def runOf (i : Nat → Instr) : Nat → State
  | 0 => State.reset
  | n + 1 => after (runOf i n) (exec (i n) (runOf i n))

theorem runOf_step (i : Nat → Instr) (n : Nat) : exec (i n) (runOf i n) = .next (runOf i (n + 1)) := by
  rcases exec_cases (i n) (runOf i n) with ⟨_, _, h⟩ | ⟨_, ⟨_, _, _, _, _, h⟩ | ⟨_, _, _, _, h⟩ | ⟨_, _, _, h⟩ |
    ⟨_, _, h⟩ | ⟨_, _, h⟩⟩ <;> simp only [runOf, h, after]

/-- The premises of the run statements on the first state. -/
theorem reset_ready : StateInv State.reset ∧ State.reset.serving < State.reset.ports.length ∧
    (0#8).toNat < State.reset.cfg.numSlots ∧ ∀ a, bufRead (State.reset.slot (0#8).toNat) a = f32Zero :=
  ⟨reset_inv, by decide, by decide, fun _ => rfl⟩

/-- The words an all-pass line of capacity 1 and gain +0.0 stores. -/
def lineOne (x : Nat → Word) : Nat → Word
  | 0 => f32Add (x 0) (f32Mul f32Zero f32Zero)
  | n + 1 => f32Add (x (n + 1)) (f32Mul f32Zero (lineOne x n))

theorem witness_AllPassRecurrenceOverARun : let i := fun _ : Nat => Instr.apStep 0#8 f32One
    let v := lineOne fun _ => f32One
    (StateInv (runOf i 0) ∧ (runOf i 0).serving < (runOf i 0).ports.length ∧
      (0#8).toNat < (runOf i 0).cfg.numSlots ∧ ∀ a, bufRead ((runOf i 0).slot (0#8).toNat) a = f32Zero) ∧
    (∀ n, exec (i n) (runOf i n) = .next (runOf i (n + 1))) ∧ ((runOf i 0).slot (0#8).toNat).cap = 1 ∧
    ((runOf i 0).slot (0#8).toNat).gain = f32Zero ∧ ∀ n, v n = f32Add f32One (f32Mul f32Zero (stepsBefore 1 v n)) :=
  ⟨reset_ready, runOf_step _, by decide, by decide, fun n => by cases n <;> rfl⟩

/-- The filter state before step `n`, the word stored in it and the word stored before it, of a comb of capacity 1 with
reset coefficients. -/
def combOne (x : Word) : Nat → Word × Word × Word
  | 0 => (f32Zero, f32Add x (f32Mul (f32Add (f32Mul f32Zero f32One) (f32Mul f32Zero f32Zero)) f32Zero), f32Zero)
  | n + 1 =>
    let p := combOne x n
    let fs := f32Add (f32Mul p.2.2 f32One) (f32Mul p.1 f32Zero)
    (fs, f32Add x (f32Mul (f32Add (f32Mul p.2.1 f32One) (f32Mul fs f32Zero)) f32Zero), p.2.1)

theorem witness_CombRecurrenceOverARun : let i := fun _ : Nat => Instr.combStep 0#8 f32One
    let v := fun n => (combOne f32One n).2.1
    let fs := fun n => (combOne f32One n).1
    (StateInv (runOf i 0) ∧ (runOf i 0).serving < (runOf i 0).ports.length ∧
      (0#8).toNat < (runOf i 0).cfg.numSlots ∧ ∀ a, bufRead ((runOf i 0).slot (0#8).toNat) a = f32Zero) ∧
    (∀ n, exec (i n) (runOf i n) = .next (runOf i (n + 1))) ∧
    ((runOf i 0).slot (0#8).toNat).cap = 1 ∧ ((runOf i 0).slot (0#8).toNat).fstate = f32Zero ∧
    ((runOf i 0).slot (0#8).toNat).damp2 = f32One ∧ ((runOf i 0).slot (0#8).toNat).damp = f32Zero ∧
    ((runOf i 0).slot (0#8).toNat).fb = f32Zero ∧ fs 0 = f32Zero ∧
    (∀ n, fs (n + 1) = f32Add (f32Mul (stepsBefore 1 v n) f32One) (f32Mul (fs n) f32Zero)) ∧
    ∀ n, v n = f32Add f32One (f32Mul (fs (n + 1)) f32Zero) := by
  refine ⟨reset_ready, runOf_step _, by decide, by decide, by decide, by decide, by decide, rfl, fun n => ?_, fun n => ?_⟩
  · cases n <;> rfl
  · cases n <;> rfl

theorem witness_EarlyReflectionsOverARun : let i := fun _ : Nat => Instr.erStep 0#8 f32One
    (StateInv (runOf i 0) ∧ (runOf i 0).serving < (runOf i 0).ports.length ∧
      (0#8).toNat < (runOf i 0).cfg.numSlots ∧ ∀ a, bufRead ((runOf i 0).slot (0#8).toNat) a = f32Zero) ∧
    ∀ n, exec (i n) (runOf i n) = .next (runOf i (n + 1)) := ⟨reset_ready, runOf_step _⟩

theorem witness_AllPassAtGainZeroIsADelay : let i := fun _ : Nat => Instr.apStep 0#8 f32One
    (StateInv (runOf i 0) ∧ (runOf i 0).serving < (runOf i 0).ports.length ∧
      (0#8).toNat < (runOf i 0).cfg.numSlots ∧ ∀ a, bufRead ((runOf i 0).slot (0#8).toNat) a = f32Zero) ∧
    f32Magnitude ((runOf i 0).slot (0#8).toNat).gain = 0 ∧ f32IsFinite f32One = true ∧
    ∀ n, exec (i n) (runOf i n) = .next (runOf i (n + 1)) := ⟨reset_ready, by decide, by decide, runOf_step _⟩

theorem witness_CombAtFeedbackZeroStoresItsInput :
    f32Magnitude slotD3.fb = 0 ∧ f32IsFinite 0x7F7FFFFF#32 = true ∧ f32IsFinite (combState slotD3) = true := by
  decide +kernel

theorem witness_CombDampingExtremes :
    (f32IsFinite (delayedSample slotD3) = true ∧ f32IsFinite slotD3.fstate = true ∧ slotD3.damp = f32Zero ∧
      slotD3.damp2 = f32One) ∧
    (let sl := { slotD3 with damp := f32One, damp2 := f32Zero, fstate := 0x80000000#32 }
     f32IsFinite (delayedSample sl) = true ∧ f32IsFinite sl.fstate = true ∧ sl.damp = f32One ∧ sl.damp2 = f32Zero) := by
  decide +kernel

theorem witness_CapWriteIsADestructiveReset :
    StateInv busy ∧ busy.serving < busy.ports.length ∧ (0#8).toNat < busy.cfg.numSlots := ⟨busy_inv, by decide⟩

/-- Operands that are no NaN: both infinities among them. -/
theorem witness_CoefficientWritesClamp : StateInv busy ∧ busy.serving < busy.ports.length ∧
    (0#8).toNat < busy.cfg.numSlots ∧ f32IsNaN 0x7F800000#32 = false ∧ f32IsNaN 0xFF800000#32 = false :=
  ⟨busy_inv, by decide⟩
theorem witness_TapWritesStoreAsWritten : StateInv busy ∧ busy.serving < busy.ports.length ∧
    (0#8).toNat < busy.cfg.numSlots ∧ f32IsNaN 0x7F800000#32 = false ∧ (3 : Fin 8) ≠ 7 := ⟨busy_inv, by decide⟩
theorem witness_SlotRdReturnsTheRegister :
    StateInv busy ∧ busy.serving < busy.ports.length ∧ (0#8).toNat < busy.cfg.numSlots := ⟨busy_inv, by decide⟩
theorem witness_SlotClrZeroesTheHistory :
    StateInv busy ∧ busy.serving < busy.ports.length ∧ (0#8).toNat < busy.cfg.numSlots := ⟨busy_inv, by decide⟩

/-- A write of CUR, an access to SUB 9 and to SUB 15; and a DL_WRITE, which moves the cursor. -/
theorem witness_ReadOnlyRegistersAreProtected :
    (0xD8000000 / 2 ^ 28 = 13 ∧ 0xD8000000 / 2 ^ 24 % 2 ^ 4 ∈ [4, 5, 8]) ∧
    (0xE9000000 / 2 ^ 28 = 14 ∧ 9 ≤ 0xE9000000 / 2 ^ 24 % 2 ^ 4) ∧
    (0xDF000000 / 2 ^ 28 = 13 ∧ 9 ≤ 0xDF000000 / 2 ^ 24 % 2 ^ 4) ∧
    (let s := withRequest (.issued (word 0xD8000000#32)) [.perform 1]
     s.agenda = [.perform 1] ∧ s.port? 1 = some (.issued (word 0xD8000000#32))) ∧
    (let s := withRequest (.issued (word 0x70000000#32)) [.perform 1]
     step s = .next (after s (step s)) ∧ ((after s (step s)).slot 0).cur ≠ (s.slot 0).cur) :=
  ⟨by decide, by decide, by decide, by decide, rfl, by decide +kernel⟩

theorem witness_CommandsActOnlyOnTheirTarget :
    exec (.fifoRead false 0#3 5#24) busy = .next (ran (.fifoRead false 0#3 5#24) busy) := rfl

/-- Two states with the same slot 0 and different FIFOs. -/
theorem witness_SlotCommandsDependOnlyOnTheirSlot :
    let i := Instr.apStep 0#8 f32One
    let s' := withSlot 0 slotD3
    (∃ v k reg, i ∈ [Instr.dlWrite 0#8 v, .dlRead 0#8 k, .dlReadi 0#8 v, .apStep 0#8 v, .combStep 0#8 v, .erStep 0#8 v,
      .slotWr 0#8 reg v, .slotRd 0#8 reg, .slotClr 0#8]) ∧
    busy.cfg = s'.cfg ∧ busy.slot (0#8).toNat = s'.slot (0#8).toNat ∧ busy.slots.length = busy.cfg.numSlots ∧
    s'.slots.length = s'.cfg.numSlots ∧ busy.serving < busy.ports.length ∧ s'.serving < s'.ports.length ∧
    exec i busy = .next (ran i busy) ∧ exec i s' = .next (ran i s') :=
  ⟨⟨f32One, 0#16, .cap, by simp⟩, by decide, by decide, by decide, by decide, by decide, by decide, rfl, rfl⟩

/-- NaN operands, finite operands, and 0 × inf. -/
theorem witness_NaNResultsAreCanonical : f32IsNaN (f32Add 0x7FC00001#32 f32One) = true ∧ f32IsNaN 0x7FC00001#32 = true ∧
    f32IsFinite 0x7F7FFFFF#32 = true ∧ f32IsFinite 0x00000001#32 = true ∧ f32Magnitude 0x80000000#32 = 0 ∧
    f32IsInf 0xFF800000#32 = true := by decide +kernel

/-- The largest and the smallest finite magnitudes; the sum of the largest with itself is infinite. -/
theorem witness_SumsAndProductsAreRoundedToNearestEven :
    f32IsFinite 0x7F7FFFFF#32 = true ∧ f32IsFinite 0x80000001#32 = true ∧
    f32IsFinite (f32Add 0x7F7FFFFF#32 0x80000001#32) = true ∧ f32IsInf (f32Add 0x7F7FFFFF#32 0x7F7FFFFF#32) = true := by
  decide +kernel

theorem witness_ComparisonAndFractionAreExact : f32IsFinite 0x80000000#32 = true ∧ f32IsFinite 0x00000000#32 = true ∧
    f32IsNaN 0x7F800001#32 = true := by decide

/-- 24-bit stereo at the largest sample. -/
theorem witness_PackedChannelsReadBack : ∀ x ∈ [2 ^ 24 - 1, 0], x < 2 ^ 24 := by decide

/-- A FIFO, a slot and a port of the build the reset state has. -/
theorem witness_ResetValues : 1 < numFifo ∧ 3 < Config.testBuild.numSlots ∧ 3 < Config.testBuild.numPorts := by decide

/-- The infinities, 1.0 with a zero of each sign, exact zero sums of both kinds, and a sum below zero. -/
theorem witness_SignsAndInfinities :
    [0x7F800000#32, 0xFF800000#32].all (fun w => !f32IsNaN w && f32IsInf w) = true ∧
    [0x3F800000#32, 0xC0000000#32, 0x00000000#32, 0x80000000#32].all
      (fun w => !f32IsNaN w && !f32IsInf w && f32IsFinite w) = true ∧
    f32Magnitude 0x3F800000#32 ≠ 0 ∧ f32Value 0x80000000#32 + f32Value 0x80000000#32 = 0 ∧
    f32Value 0x80000000#32 + f32Value 0x00000000#32 = 0 ∧ f32Value 0x3F800000#32 + f32Value 0xC0000000#32 < 0 ∧
    f32IsNaN (f32Mul 0x80000000#32 0x3F800000#32) = false := by decide +kernel

/-- The steps of `witness_SlotsAndFifosChangeOnlyByTheirCommands`: a DL_WRITE of slot 0, a read of FIFO 0, a completion on
FIFO 0, and a reset. -/
def changingSteps : List State :=
  [withRequest (.issued (word 0x70000000#32)) [.perform 1], withRequest (.issued (word 0x20000005#32)) [.perform 1],
    withRequest (.blocked (.read 0 5)) [.complete 1], withRequest .idle [.reset]]

theorem witness_SlotsAndFifosChangeOnlyByTheirCommands :
    (∀ s ∈ changingSteps, step s = .next (after s (step s))) ∧
    changingSteps.map (fun s => (decide ((after s (step s)).slot 0 ≠ s.slot 0), decide ((after s (step s)).fifo 0 ≠ s.fifo 0)))
      = [(true, false), (false, true), (false, true), (true, true)] := by
  refine ⟨fun s hs => ?_, by decide +kernel⟩
  simp only [changingSteps, List.mem_cons, List.not_mem_nil, or_false] at hs
  rcases hs with rfl | rfl | rfl | rfl <;> rfl

end Sys2Proof.Tests
end

/-! PROOFS. The binary32 primitives of 00_scope.md R10 to R12: the classes of a word, values as magnitudes, the one
rounding, sum and product case by case, and the five statements about them.

The idea of the rounding proofs: the value `magUnits` of a magnitude field is strictly increasing, and `f32Round` finds
the two neighbouring fields the exact number lies between and takes the closer one (`NearestMag`). Nothing after
`f32Round_nearest` looks at dropped bits again. -/

namespace Sys2Proof.Machine

/-! ## The classes of a word by its magnitude field -/

theorem f32IsNaN_iff (a : Word) : f32IsNaN a = true ↔ 0x7F800000 < f32Magnitude a := by
  simp only [f32IsNaN, f32Magnitude, Bool.and_eq_true, beq_iff_eq, bne_iff_ne, ne_eq, ← BitVec.toNat_inj,
    BitVec.extractLsb'_toNat, BitVec.toNat_ofNat, Nat.shiftRight_eq_div_pow]
  omega

theorem f32IsInf_iff (a : Word) : f32IsInf a = true ↔ f32Magnitude a = 0x7F800000 := by simp [f32IsInf]

theorem f32IsFinite_iff (a : Word) : f32IsFinite a = true ↔ f32Magnitude a < 0x7F800000 := by
  have hnan := f32IsNaN_iff a
  have hinf := f32IsInf_iff a
  simp only [f32IsFinite, Bool.and_eq_true, Bool.not_eq_true', ← Bool.not_eq_true, hnan, hinf]
  omega

/-- A word that is no NaN is infinite or finite. -/
theorem f32_inf_or_finite {a : Word} (h : f32IsNaN a = false) : f32IsInf a = true ∨ f32IsFinite a = true := by
  cases hinf : f32IsInf a <;> simp [f32IsFinite, h, hinf]

theorem f32_nan_inf_or_finite (a : Word) : f32IsNaN a = true ∨ f32IsInf a = true ∨ f32IsFinite a = true := by
  cases h : f32IsNaN a
  · exact .inr (f32_inf_or_finite h)
  · exact .inl rfl

theorem f32IsNaN_of_finite {a : Word} (h : f32IsFinite a = true) : f32IsNaN a = false := by
  simp_all [f32IsFinite]

theorem f32IsInf_of_finite {a : Word} (h : f32IsFinite a = true) : f32IsInf a = false := by
  simp_all [f32IsFinite]

theorem f32IsNaN_of_inf {a : Word} (h : f32IsInf a = true) : f32IsNaN a = false := by
  rw [← Bool.not_eq_true, f32IsNaN_iff]
  rw [f32IsInf_iff] at h
  omega

/-- Infinities of one sign are the same word. -/
theorem f32_inf_eq {a b : Word} (ha : f32IsInf a = true) (hb : f32IsInf b = true) (hs : f32Sign a = f32Sign b) : a = b :=
  f32_ext hs (((f32IsInf_iff a).1 ha).trans ((f32IsInf_iff b).1 hb).symm)

/-! ## Flipping the sign -/

@[simp] theorem f32Sign_neg (a : Word) : f32Sign (f32Neg a) = !f32Sign a := by
  rw [f32Sign, f32Neg, BitVec.msb_xor, show (0x80000000#32).msb = true by decide, Bool.xor_true, f32Sign]

@[simp] theorem f32Magnitude_neg (a : Word) : f32Magnitude (f32Neg a) = f32Magnitude a := by
  simp only [f32Magnitude, f32Neg, BitVec.extractLsb'_xor]
  rw [show (0x80000000#32).extractLsb' 0 31 = 0#31 by decide, BitVec.xor_zero]

@[simp] theorem f32IsNaN_neg (a : Word) : f32IsNaN (f32Neg a) = f32IsNaN a := by
  rw [Bool.eq_iff_iff, f32IsNaN_iff, f32IsNaN_iff, f32Magnitude_neg]

@[simp] theorem f32IsInf_neg (a : Word) : f32IsInf (f32Neg a) = f32IsInf a := by simp [f32IsInf]

@[simp] theorem f32IsFinite_neg (a : Word) : f32IsFinite (f32Neg a) = f32IsFinite a := by simp [f32IsFinite]

@[simp] theorem f32Units_neg (a : Word) : f32Units (f32Neg a) = f32Units a := by simp [f32Units]

theorem f32Neg_pack (sign : Bool) {mag : Nat} (h : mag < 2 ^ 31) : f32Neg (f32Pack sign mag) = f32Pack (!sign) mag := by
  apply f32_ext
  · rw [f32Pack_msb]
    exact (f32Sign_neg _).trans (by rw [f32Sign, f32Pack_msb])
  · rw [f32Magnitude_neg, f32Pack_magnitude _ h, f32Pack_magnitude _ h]

/-! ## The value of a magnitude field -/

/-- `f32Units` as a function of the magnitude field alone. -/
def magUnits (m : Nat) : Nat := if m / 2 ^ 23 = 0 then m % 2 ^ 23 else (2 ^ 23 + m % 2 ^ 23) * 2 ^ (m / 2 ^ 23 - 1)

theorem f32Units_eq (a : Word) : f32Units a = magUnits (f32Magnitude a) := rfl

/-- The number that a sign and a magnitude stand for. -/
def signed (sign : Bool) (n : Nat) : Int := if sign then -(n : Int) else n

@[simp] theorem signed_false (n : Nat) : signed false n = n := rfl

@[simp] theorem signed_true (n : Nat) : signed true n = -n := rfl

theorem f32Value_eq (a : Word) : f32Value a = signed (f32Sign a) (f32Units a) := rfl

@[simp] theorem natAbs_signed (sign : Bool) (n : Nat) : (signed sign n).natAbs = n := by
  cases sign <;> simp

theorem signed_mul (s t : Bool) (m n : Nat) : signed s m * signed t n = signed (s != t) (m * n) := by
  cases s <;> cases t <;> simp

theorem signed_mul_natCast (s : Bool) (m p : Nat) : signed s m * p = signed s (m * p) := by
  cases s <;> simp

/-- A strictly increasing function of the magnitudes that keeps zero keeps the order of signed numbers. -/
theorem signed_lt_signed_iff {g : Nat → Nat} (hg : StrictMono g) (hzero : g 0 = 0) (s t : Bool) (m n : Nat) :
    signed s (g m) < signed t (g n) ↔ signed s m < signed t n := by
  have hpos (i : Nat) : 0 < g i ↔ 0 < i := by
    have hlt : g 0 < g i ↔ 0 < i := hg.lt_iff_lt
    rwa [hzero] at hlt
  match s, t with
  | false, false => simpa using hg.lt_iff_lt
  | true, true => simpa using hg.lt_iff_lt
  | false, true =>
    rw [signed_false, signed_true, signed_false, signed_true]
    omega
  | true, false =>
    have hm := hpos m
    have hn := hpos n
    rw [signed_false, signed_true, signed_false, signed_true]
    omega

/-- A significand `q` of at most 24 bits, of exactly 24 where it is scaled, is worth `q · 2^j` in the binade of `j`. The
carry `q = 2^24` is the first value of the next binade. -/
theorem magUnits_significand {j q : Nat} (hj : j = 0 ∨ 2 ^ 23 ≤ q) (hq : q ≤ 2 ^ 24) :
    magUnits (j * 2 ^ 23 + q) = q * 2 ^ j := by
  unfold magUnits
  rcases Nat.lt_or_ge q (2 ^ 23) with hlow | hnormal
  · have hj0 : j = 0 := by omega
    subst hj0
    rw [if_pos (by omega)]
    omega
  rcases Nat.lt_or_ge q (2 ^ 24) with hlt | hcarry
  · rw [if_neg (by omega), show (j * 2 ^ 23 + q) / 2 ^ 23 - 1 = j by omega,
      show 2 ^ 23 + (j * 2 ^ 23 + q) % 2 ^ 23 = q by omega]
  · rw [if_neg (by omega), show (j * 2 ^ 23 + q) / 2 ^ 23 - 1 = j + 1 by omega,
      show 2 ^ 23 + (j * 2 ^ 23 + q) % 2 ^ 23 = 2 ^ 23 by omega, show q = 2 ^ 24 by omega, pow_succ]
    omega

/-- Every magnitude field is a significand and a binade. -/
theorem exists_significand (m : Nat) : ∃ j q, m = j * 2 ^ 23 + q ∧ (j = 0 ∨ 2 ^ 23 ≤ q) ∧ q < 2 ^ 24 := by
  rcases Nat.lt_or_ge m (2 ^ 23) with h | h
  · exact ⟨0, m, by omega, .inl rfl, by omega⟩
  · exact ⟨m / 2 ^ 23 - 1, 2 ^ 23 + m % 2 ^ 23, by omega, .inr (by omega), by omega⟩

theorem magUnits_strictMono : StrictMono magUnits := by
  refine strictMono_nat_of_lt_succ fun m => ?_
  obtain ⟨j, q, rfl, hj, hq⟩ := exists_significand m
  rw [magUnits_significand hj hq.le, Nat.add_assoc, magUnits_significand (by omega) hq]
  exact Nat.mul_lt_mul_of_pos_right (Nat.lt_succ_self q) (Nat.two_pow_pos j)

theorem magUnits_mul_lt (k : Nat) {i j : Nat} (h : i < j) : magUnits i * 2 ^ k < magUnits j * 2 ^ k :=
  Nat.mul_lt_mul_of_pos_right (magUnits_strictMono h) (Nat.two_pow_pos k)

theorem magUnits_mul_le (k : Nat) {i j : Nat} (h : i ≤ j) : magUnits i * 2 ^ k ≤ magUnits j * 2 ^ k :=
  Nat.mul_le_mul_right _ (magUnits_strictMono.monotone h)

@[simp] theorem magUnits_zero : magUnits 0 = 0 := rfl

/-! ## One rounding -/

/-- `m` is the magnitude field of a value nearest to `n · 2^−k` units: `n` lies between the neighbours `m₀` and `m₀ + 1`,
and `m` is the closer of the two, the even one halfway. -/
def NearestMag (k n m : Nat) : Prop :=
  ∃ m₀, magUnits m₀ * 2 ^ k ≤ n ∧ n < magUnits (m₀ + 1) * 2 ^ k ∧
    m = if (magUnits m₀ + magUnits (m₀ + 1)) * 2 ^ k < 2 * n ∨
          (2 * n = (magUnits m₀ + magUnits (m₀ + 1)) * 2 ^ k ∧ m₀ % 2 = 1) then m₀ + 1 else m₀

/-- The quotient that `f32Round` keeps has at most 24 bits, and exactly 24 where more than the last `k` bits are dropped. -/
theorem f32Round_kept_bits (k n : Nat) :
    n / 2 ^ max k (n.log2 - 23) < 2 ^ 24 ∧ (max k (n.log2 - 23) - k = 0 ∨ 2 ^ 23 ≤ n / 2 ^ max k (n.log2 - 23)) := by
  have hlt : n < 2 ^ (n.log2 + 1) := Nat.lt_log2_self
  constructor
  · rw [Nat.div_lt_iff_lt_mul (Nat.two_pow_pos _), ← pow_add]
    exact hlt.trans_le (Nat.pow_le_pow_right (by decide) (by omega))
  · rcases Nat.lt_or_ge k (n.log2 - 23) with hk | hk
    · right
      have hn : n ≠ 0 := by rintro rfl; simp at hk
      rw [Nat.max_eq_right hk.le, Nat.le_div_iff_mul_le (Nat.two_pow_pos _), ← pow_add,
        show 23 + (n.log2 - 23) = n.log2 by omega]
      exact Nat.log2_self_le hn
    · left; omega

/-- The kept quotient is the lower neighbour's significand, and the dropped bits decide between the neighbours. -/
theorem f32Round_nearest (k n : Nat) : ∃ m, NearestMag k n m ∧ f32Round k n = min m 0x7F800000 := by
  obtain ⟨hq, hj⟩ := f32Round_kept_bits k n
  refine ⟨_, ⟨(max k (n.log2 - 23) - k) * 2 ^ 23 + n / 2 ^ max k (n.log2 - 23), ?_⟩, rfl⟩
  have hdrop : 2 ^ max k (n.log2 - 23) = 2 ^ (max k (n.log2 - 23) - k) * 2 ^ k := by rw [← pow_add]; congr 1; omega
  have hdiv := Nat.div_add_mod n (2 ^ max k (n.log2 - 23))
  have hmod := Nat.mod_lt n (Nat.two_pow_pos (max k (n.log2 - 23)))
  rw [Nat.add_assoc _ _ 1, magUnits_significand hj hq.le, magUnits_significand (by omega) hq, ← Nat.add_mul, Nat.mul_assoc,
    Nat.mul_assoc, Nat.mul_assoc, ← hdrop]
  generalize n / 2 ^ max k (n.log2 - 23) = q at *
  generalize n % 2 ^ max k (n.log2 - 23) = r at *
  generalize max k (n.log2 - 23) - k = j at *
  generalize 2 ^ max k (n.log2 - 23) = p at *
  have hupper : (q + 1) * p = p * q + p := by ring
  have hmiddle : (q + (q + 1)) * p = 2 * (p * q) + p := by ring
  have hodd : (j * 2 ^ 23 + q) % 2 = q % 2 := by omega
  rw [hupper, hmiddle, hodd, Nat.mul_comm q p]
  refine ⟨by omega, by omega, ?_⟩
  split <;> split <;> omega

/-- No magnitude field is nearer to `n` than the rounded one, and another is as near only where the rounded one is even. -/
theorem NearestMag.closest {k n m : Nat} (h : NearestMag k n m) (c : Nat) :
    ((magUnits m * 2 ^ k : Nat) - n : Int).natAbs ≤ ((magUnits c * 2 ^ k : Nat) - n : Int).natAbs ∧
    (((magUnits m * 2 ^ k : Nat) - n : Int).natAbs = ((magUnits c * 2 ^ k : Nat) - n : Int).natAbs → c ≠ m →
      m % 2 = 0) := by
  obtain ⟨m₀, hle, hlt, hm⟩ := h
  rw [Nat.add_mul] at hm
  rcases Nat.lt_trichotomy c m₀ with hc | rfl | hc
  · have := magUnits_mul_lt k hc
    split at hm <;> subst hm <;> omega
  · split at hm <;> subst hm <;> omega
  · rcases Nat.eq_or_lt_of_le (Nat.succ_le_of_lt hc) with rfl | hc'
    · split at hm <;> subst hm <;> simp only [Nat.succ_eq_add_one] <;> omega
    · have : magUnits (m₀ + 1) * 2 ^ k < magUnits c * 2 ^ k := magUnits_mul_lt k hc'
      split at hm <;> subst hm <;> omega

/-- A multiple of the unit that is a value rounds to it. -/
theorem NearestMag.eq_of_exact {k c m : Nat} (h : NearestMag k (magUnits c * 2 ^ k) m) : m = c := by
  have hclose := (h.closest c).1
  have : magUnits m * 2 ^ k = magUnits c * 2 ^ k := by omega
  exact magUnits_strictMono.injective (Nat.eq_of_mul_eq_mul_right (Nat.two_pow_pos k) this)

/-- An exact result needs no rounding, but one past the largest finite value is infinity. -/
theorem f32Round_exact (k c : Nat) : f32Round k (magUnits c * 2 ^ k) = min c 0x7F800000 := by
  obtain ⟨m, hm, hr⟩ := f32Round_nearest k (magUnits c * 2 ^ k)
  rw [hr, hm.eq_of_exact]

/-- The largest finite magnitude and the next one, infinity's, have their middle at the overflow threshold, and the first of
them is odd. -/
theorem NearestMag.overflow_iff {k n m : Nat} (h : NearestMag k n m) :
    0x7F800000 ≤ m ↔ (2 ^ 277 - 2 ^ 252) * 2 ^ k ≤ n := by
  obtain ⟨m₀, hle, hlt, hm⟩ := h
  have hlast : magUnits 0x7F7FFFFF = 2 ^ 277 - 2 ^ 253 := by decide +kernel
  have hnext : magUnits 0x7F800000 = 2 ^ 277 := by decide +kernel
  rcases Nat.lt_trichotomy m₀ 0x7F7FFFFF with hm₀ | rfl | hm₀
  · have := magUnits_mul_le k (show m₀ + 1 ≤ 0x7F7FFFFF from hm₀)
    rw [hlast] at this
    split at hm <;> omega
  · rw [hlast] at hle hm
    rw [show (0x7F7FFFFF + 1) = 0x7F800000 from rfl, hnext] at hlt hm
    split at hm <;> omega
  · have := magUnits_mul_le k (show 0x7F800000 ≤ m₀ from hm₀)
    rw [hnext] at this
    split at hm <;> omega

theorem f32Round_le (k n : Nat) : f32Round k n ≤ 0x7F800000 := Nat.min_le_right _ _

@[simp] theorem f32Round_zero (k : Nat) : f32Round k 0 = 0 := by
  simpa using f32Round_exact k 0

/-! ## A word packed from a sign and a magnitude field -/

section

variable (sign : Bool) {mag : Nat}

@[simp] theorem f32Sign_pack (mag : Nat) : f32Sign (f32Pack sign mag) = sign := f32Pack_msb sign mag

theorem f32IsNaN_pack (h : mag ≤ 0x7F800000) : f32IsNaN (f32Pack sign mag) = false := by
  rw [← Bool.not_eq_true, f32IsNaN_iff, f32Pack_magnitude sign (by omega)]
  omega

theorem f32IsInf_pack_iff (h : mag ≤ 0x7F800000) : f32IsInf (f32Pack sign mag) = true ↔ mag = 0x7F800000 := by
  rw [f32IsInf_iff, f32Pack_magnitude sign (by omega)]

theorem f32IsFinite_pack_iff (h : mag ≤ 0x7F800000) : f32IsFinite (f32Pack sign mag) = true ↔ mag < 0x7F800000 := by
  rw [f32IsFinite_iff, f32Pack_magnitude sign (by omega)]

theorem f32Value_pack (h : mag < 2 ^ 31) : f32Value (f32Pack sign mag) = signed sign (magUnits mag) := by
  rw [f32Value_eq, f32Sign_pack, f32Units_eq, f32Pack_magnitude sign h]

/-- The last bit of a word is the parity of its magnitude field. -/
theorem f32Pack_getLsbD_zero (mag : Nat) : (f32Pack sign mag).getLsbD 0 = decide (mag % 2 = 1) := by
  rw [f32Pack, BitVec.getLsbD_append, if_pos (by decide), BitVec.getLsbD_ofNat]
  simp

end

/-! ## Sum and product, case by case -/

theorem f32Add_of_nan {a b : Word} (h : f32IsNaN a = true ∨ f32IsNaN b = true) : f32Add a b = f32CanonicalNaN := by
  rw [f32Add, if_pos (by simpa using h)]

theorem f32Add_of_infs {a b : Word} (ha : f32IsInf a = true) (hb : f32IsInf b = true) :
    f32Add a b = if f32Sign a = f32Sign b then a else f32CanonicalNaN := by
  by_cases hs : f32Sign a = f32Sign b <;> simp [f32Add, f32IsNaN_of_inf, ha, hb, hs]

theorem f32Add_of_inf_finite {a b : Word} (ha : f32IsInf a = true) (hb : f32IsFinite b = true) : f32Add a b = a := by
  simp [f32Add, f32IsNaN_of_inf, f32IsNaN_of_finite, f32IsInf_of_finite, ha, hb]

theorem f32Add_of_finite_inf {a b : Word} (ha : f32IsFinite a = true) (hb : f32IsInf b = true) : f32Add a b = b := by
  simp [f32Add, f32IsNaN_of_inf, f32IsNaN_of_finite, f32IsInf_of_finite, ha, hb]

/-- An infinite operand is the sum, unless the other is the opposite infinity. -/
theorem f32Add_of_inf {a b : Word} (ha : f32IsInf a = true) (hb : f32IsNaN b = false) (h : f32IsInf b = false ∨ b = a) :
    f32Add a b = a := by
  rcases h with hinf | rfl
  · exact f32Add_of_inf_finite ha ((f32_inf_or_finite hb).resolve_left (by simp [hinf]))
  · rw [f32Add_of_infs ha ha, if_pos rfl]

/-- The sign of a sum of finite words: that of the exact sum, and minus for a zero sum only of two negative operands. -/
def sumSign (a b : Word) : Bool :=
  if f32Value a + f32Value b = 0 then f32Sign a && f32Sign b else decide (f32Value a + f32Value b < 0)

theorem f32Add_of_finite {a b : Word} (ha : f32IsFinite a = true) (hb : f32IsFinite b = true) :
    f32Add a b = f32Pack (sumSign a b) (f32Round 0 (f32Value a + f32Value b).natAbs) := by
  by_cases hz : f32Value a + f32Value b = 0 <;>
    simp [f32Add, sumSign, f32IsNaN_of_finite, f32IsInf_of_finite, ha, hb, hz]

theorem signed_sumSign (a b : Word) :
    signed (sumSign a b) (f32Value a + f32Value b).natAbs = f32Value a + f32Value b := by
  by_cases hz : f32Value a + f32Value b = 0
  · simp [signed, hz]
  · rw [signed, sumSign, if_neg hz]
    split <;> simp only [decide_eq_true_eq] at * <;> omega

theorem f32Mul_of_nan {a b : Word} (h : f32IsNaN a = true ∨ f32IsNaN b = true) : f32Mul a b = f32CanonicalNaN := by
  rw [f32Mul, if_pos (by simpa using h)]

theorem f32Mul_of_inf {a b : Word} (ha : f32IsNaN a = false) (hb : f32IsNaN b = false)
    (h : f32IsInf a = true ∨ f32IsInf b = true) :
    f32Mul a b = if f32Magnitude a = 0 ∨ f32Magnitude b = 0 then f32CanonicalNaN
      else f32Pack (f32Sign a != f32Sign b) 0x7F800000 := by
  simp [f32Mul, ha, hb, h]

theorem f32Mul_inf_of_inf {a b : Word} (ha : f32IsInf a = true) (hb : f32IsNaN b = false) (h : f32Magnitude b ≠ 0) :
    f32IsInf (f32Mul a b) = true := by
  have hmag : f32Magnitude a ≠ 0 := by rw [(f32IsInf_iff a).1 ha]; decide
  rw [f32Mul_of_inf (f32IsNaN_of_inf ha) hb (.inl ha), if_neg (by simp [hmag, h]), f32IsInf_pack_iff _ le_rfl]

theorem f32Mul_of_finite {a b : Word} (ha : f32IsFinite a = true) (hb : f32IsFinite b = true) :
    f32Mul a b = f32Pack (f32Sign a != f32Sign b) (f32Round 149 (f32Units a * f32Units b)) := by
  simp [f32Mul, f32IsNaN_of_finite, f32IsInf_of_finite, ha, hb]

/-- A product is the canonical NaN, or a magnitude field up to infinity's with the exclusive or of the signs. -/
theorem f32Mul_cases (a b : Word) :
    f32Mul a b = f32CanonicalNaN ∨ ∃ mag ≤ 0x7F800000, f32Mul a b = f32Pack (f32Sign a != f32Sign b) mag := by
  unfold f32Mul
  split
  · exact .inl rfl
  dsimp only
  split
  · split
    · exact .inl rfl
    · exact .inr ⟨_, le_rfl, rfl⟩
  · exact .inr ⟨_, f32Round_le _ _, rfl⟩

/-! ## NaN results, commutativity, a factor's sign -/

theorem f32Add_canonical_or (a b : Word) : f32Add a b = f32CanonicalNaN ∨ f32IsNaN (f32Add a b) = false := by
  rcases f32_nan_inf_or_finite a with ha | ha | ha
  · exact .inl (f32Add_of_nan (.inl ha))
  · rcases f32_nan_inf_or_finite b with hb | hb | hb
    · exact .inl (f32Add_of_nan (.inr hb))
    · rw [f32Add_of_infs ha hb]
      split
      · exact .inr (f32IsNaN_of_inf ha)
      · exact .inl rfl
    · exact .inr (by rw [f32Add_of_inf_finite ha hb, f32IsNaN_of_inf ha])
  · rcases f32_nan_inf_or_finite b with hb | hb | hb
    · exact .inl (f32Add_of_nan (.inr hb))
    · exact .inr (by rw [f32Add_of_finite_inf ha hb, f32IsNaN_of_inf hb])
    · exact .inr (by rw [f32Add_of_finite ha hb, f32IsNaN_pack _ (f32Round_le _ _)])

theorem f32Add_canonical (a b : Word) (h : f32IsNaN (f32Add a b) = true) : f32Add a b = f32CanonicalNaN :=
  (f32Add_canonical_or a b).resolve_right (by simp [h])

theorem f32Add_finite_not_nan {a b : Word} (ha : f32IsFinite a = true) (hb : f32IsFinite b = true) :
    f32IsNaN (f32Add a b) = false := by
  rw [f32Add_of_finite ha hb, f32IsNaN_pack _ (f32Round_le _ _)]

theorem f32Mul_canonical (a b : Word) (h : f32IsNaN (f32Mul a b) = true) : f32Mul a b = f32CanonicalNaN := by
  rcases f32Mul_cases a b with hnan | ⟨mag, hmag, hpack⟩
  · exact hnan
  · rw [hpack, f32IsNaN_pack _ hmag] at h
    exact absurd h (by decide)

theorem f32Mul_finite_not_nan {a b : Word} (ha : f32IsFinite a = true) (hb : f32IsFinite b = true) :
    f32IsNaN (f32Mul a b) = false := by
  rw [f32Mul_of_finite ha hb, f32IsNaN_pack _ (f32Round_le _ _)]

theorem f32Mul_comm (a b : Word) : f32Mul a b = f32Mul b a := by
  have hzero : (f32Magnitude a = 0 ∨ f32Magnitude b = 0) ↔ (f32Magnitude b = 0 ∨ f32Magnitude a = 0) := or_comm
  simp only [f32Mul, Bool.or_comm (f32IsNaN a), Bool.or_comm (f32IsInf a), bne_comm (a := f32Sign a), hzero,
    Nat.mul_comm (f32Units a)]

theorem sumSign_comm (a b : Word) : sumSign a b = sumSign b a := by
  rw [sumSign, sumSign, Int.add_comm, Bool.and_comm]

theorem f32Add_comm (a b : Word) : f32Add a b = f32Add b a := by
  rcases f32_nan_inf_or_finite a with ha | ha | ha
  · rw [f32Add_of_nan (.inl ha), f32Add_of_nan (.inr ha)]
  · rcases f32_nan_inf_or_finite b with hb | hb | hb
    · rw [f32Add_of_nan (.inr hb), f32Add_of_nan (.inl hb)]
    · rw [f32Add_of_infs ha hb, f32Add_of_infs hb ha]
      by_cases hs : f32Sign a = f32Sign b
      · rw [f32_inf_eq ha hb hs]
      · rw [if_neg hs, if_neg (Ne.symm hs)]
    · rw [f32Add_of_inf_finite ha hb, f32Add_of_finite_inf hb ha]
  · rcases f32_nan_inf_or_finite b with hb | hb | hb
    · rw [f32Add_of_nan (.inr hb), f32Add_of_nan (.inl hb)]
    · rw [f32Add_of_finite_inf ha hb, f32Add_of_inf_finite hb ha]
    · rw [f32Add_of_finite ha hb, f32Add_of_finite hb ha, sumSign_comm, Int.add_comm]

/-- Flipping a factor's sign flips the product's, but for a NaN. -/
theorem f32Mul_neg_left (a b : Word) :
    (f32Mul a b = f32CanonicalNaN ∧ f32Mul (f32Neg a) b = f32CanonicalNaN) ∨
    f32Mul (f32Neg a) b = f32Neg (f32Mul a b) := by
  unfold f32Mul
  simp only [f32IsNaN_neg, f32IsInf_neg, f32Sign_neg, f32Magnitude_neg, f32Units_neg]
  split
  · exact .inl ⟨rfl, rfl⟩
  split
  · split
    · exact .inl ⟨rfl, rfl⟩
    · exact .inr (by rw [f32Neg_pack _ (by decide), Bool.not_bne])
  · have := f32Round_le 149 (f32Units a * f32Units b)
    exact .inr (by rw [f32Neg_pack _ (by omega), Bool.not_bne])

/-! ## Rounded to nearest: the words -/

/-- `r` is `exact`, in units of `2^−149 / scale`, rounded once to nearest, ties to even, and infinite from the overflow
threshold on: the condition O56 puts on sums and products. -/
def RoundedTo (r : Word) (exact scale : Int) : Prop :=
  (f32IsFinite r = true → ∀ c : Word, f32IsFinite c = true →
    |f32Value r * scale - exact| ≤ |f32Value c * scale - exact| ∧
    (|f32Value r * scale - exact| = |f32Value c * scale - exact| → f32Value c ≠ f32Value r → r.getLsbD 0 = false)) ∧
  (f32IsInf r = true ↔ (2 ^ 277 - 2 ^ 252) * scale ≤ |exact|)

theorem abs_signed_sub_signed (s : Bool) (m n : Nat) : |signed s m - signed s n| = ((m - n : Int).natAbs : Int) := by
  rw [Int.abs_eq_natAbs]
  cases s with
  | false => rfl
  | true => rw [signed_true, signed_true]; omega

theorem abs_signed_not_sub_signed (s : Bool) (m n : Nat) : |signed (!s) m - signed s n| = (m + n : Nat) := by
  rw [Int.abs_eq_natAbs]
  cases s with
  | false => rw [Bool.not_false, signed_true, signed_false]; omega
  | true => rw [Bool.not_true, signed_true, signed_false]; omega

/-- A value of the other sign is further off than its magnitude alone, so comparing magnitudes is enough. -/
theorem NearestMag.closest_signed {k n m : Nat} (h : NearestMag k n m) (s t : Bool) (c : Nat) :
    |signed s (magUnits m * 2 ^ k) - signed s n| ≤ |signed t (magUnits c * 2 ^ k) - signed s n| ∧
    (|signed s (magUnits m * 2 ^ k) - signed s n| = |signed t (magUnits c * 2 ^ k) - signed s n| →
      signed t (magUnits c) ≠ signed s (magUnits m) → m % 2 = 0) := by
  obtain ⟨hclose, htie⟩ := h.closest c
  rcases Bool.eq_or_eq_not t s with rfl | rfl
  · rw [abs_signed_sub_signed, abs_signed_sub_signed]
    exact ⟨by omega, fun heq hne => htie (by omega) (by rintro rfl; exact hne rfl)⟩
  · rw [abs_signed_sub_signed, abs_signed_not_sub_signed]
    have hzero := (h.closest 0).1
    rw [magUnits_zero, Nat.zero_mul] at hzero
    refine ⟨by omega, fun heq hne => htie (by omega) ?_⟩
    rintro rfl
    have hval : magUnits c = 0 := (Nat.mul_eq_zero.1 (by omega : magUnits c * 2 ^ k = 0)).resolve_right (by positivity)
    exact hne (by cases s <;> simp [hval])

/-- A sign and one `f32Round` make a correctly rounded word. -/
theorem roundedTo_pack (s : Bool) (k n : Nat) : RoundedTo (f32Pack s (f32Round k n)) (signed s n) (2 ^ k) := by
  obtain ⟨m, hm, hround⟩ := f32Round_nearest k n
  have hle := f32Round_le k n
  refine ⟨fun hfin c _ => ?_, ?_⟩
  · have hlt := (f32IsFinite_pack_iff s hle).1 hfin
    obtain ⟨hclose, htie⟩ := hm.closest_signed s (f32Sign c) (f32Magnitude c)
    rw [f32Pack_getLsbD_zero, f32Value_pack s (by omega), show f32Round k n = m by omega, f32Value_eq c, f32Units_eq,
      show (2 : Int) ^ k = (2 ^ k : Nat) by push_cast; rfl, signed_mul_natCast, signed_mul_natCast]
    exact ⟨hclose, fun heq hne => by simpa using htie heq hne⟩
  · have habs : |signed s n| = n := by rw [Int.abs_eq_natAbs, natAbs_signed]
    have hthreshold : (2 ^ 277 - 2 ^ 252 : Int) * 2 ^ k = ((2 ^ 277 - 2 ^ 252) * 2 ^ k : Nat) := by
      rw [Nat.cast_mul, Nat.cast_sub (Nat.pow_le_pow_right (by decide) (by decide))]
      simp only [Nat.cast_pow, Nat.cast_ofNat]
    rw [f32IsInf_pack_iff s hle, hround, habs, hthreshold, Nat.cast_le, ← hm.overflow_iff]
    omega

/-! ## Order and fractions -/

theorem f32Key_eq (a : Word) : f32Key a = signed (f32Sign a) (f32Magnitude a) := rfl

/-- The magnitude field orders the words as their values. -/
theorem f32Key_lt_iff (a b : Word) : f32Key a < f32Key b ↔ f32Value a < f32Value b := by
  rw [f32Key_eq, f32Key_eq, f32Value_eq, f32Value_eq, f32Units_eq, f32Units_eq,
    signed_lt_signed_iff magUnits_strictMono magUnits_zero]

theorem f32Lt_of_nan {a b : Word} (h : f32IsNaN a = true ∨ f32IsNaN b = true) : f32Lt a b = false := by
  rcases h with h | h <;> simp [f32Lt, h]

theorem f32Lt_iff {a b : Word} (ha : f32IsNaN a = false) (hb : f32IsNaN b = false) :
    f32Lt a b = true ↔ f32Key a < f32Key b := by simp [f32Lt, ha, hb]

/-- A 16-bit number scaled by 2^133 is a value, below infinity. -/
theorem exists_magUnits_fraction (f : BitVec 16) : ∃ m < 0x7F800000, magUnits m = f.toNat * 2 ^ 133 := by
  rcases Nat.eq_zero_or_pos f.toNat with hf | hf
  · exact ⟨0, by decide, by simp [hf]⟩
  have hle := Nat.log2_self_le hf.ne'
  have hlt : f.toNat < 2 ^ (f.toNat.log2 + 1) := Nat.lt_log2_self
  have hlog : f.toNat.log2 < 16 := (Nat.log2_lt hf.ne').2 f.isLt
  have hlow : 2 ^ 23 ≤ f.toNat * 2 ^ (23 - f.toNat.log2) := by
    calc 2 ^ 23 = 2 ^ f.toNat.log2 * 2 ^ (23 - f.toNat.log2) := by rw [← pow_add]; congr 1; omega
      _ ≤ _ := Nat.mul_le_mul_right _ hle
  have hhigh : f.toNat * 2 ^ (23 - f.toNat.log2) < 2 ^ 24 := by
    calc _ < 2 ^ (f.toNat.log2 + 1) * 2 ^ (23 - f.toNat.log2) := Nat.mul_lt_mul_of_pos_right hlt (Nat.two_pow_pos _)
      _ = 2 ^ 24 := by rw [← pow_add]; congr 1; omega
  refine ⟨(110 + f.toNat.log2) * 2 ^ 23 + f.toNat * 2 ^ (23 - f.toNat.log2), by omega, ?_⟩
  rw [magUnits_significand (.inr hlow) hhigh.le, Nat.mul_assoc, ← pow_add]
  congr 2
  omega

theorem frac16_eq (f : BitVec 16) :
    ∃ m < 0x7F800000, magUnits m = f.toNat * 2 ^ 133 ∧ frac16 f = f32Pack false m := by
  obtain ⟨m, hlt, hm⟩ := exists_magUnits_fraction f
  refine ⟨m, hlt, hm, ?_⟩
  have hround := f32Round_exact 0 m
  rw [pow_zero, Nat.mul_one, hm, Nat.min_eq_left hlt.le] at hround
  rw [frac16, hround]

/-! ## The statements -/

/-- Settles O54: the sum's and product's NaN results by their cases, the difference's through the sum's. -/
theorem naNResultsAreCanonical : Obligations.NaNResultsAreCanonical := by
  unfold Obligations.NaNResultsAreCanonical
  intro a b
  refine ⟨?_, by decide +kernel, fun ha hb => ?_⟩
  · simp only [List.forall_mem_cons, List.not_mem_nil, false_imp_iff, implies_true, and_true]
    refine ⟨⟨f32Add_canonical a b, f32Add_of_nan, f32Add_finite_not_nan⟩,
      ⟨f32Add_canonical a (f32Neg b), fun h => f32Add_of_nan (by simpa using h),
        fun ha hb => f32Add_finite_not_nan ha (by simpa using hb)⟩,
      ⟨f32Mul_canonical a b, f32Mul_of_nan, f32Mul_finite_not_nan⟩⟩
  · have hzero : f32Mul a b = f32CanonicalNaN := by
      have hfin : f32IsNaN a = false := f32IsNaN_of_finite ((f32IsFinite_iff a).2 (by omega))
      rw [f32Mul_of_inf hfin (f32IsNaN_of_inf hb) (.inr hb), if_pos (.inl ha)]
    exact ⟨hzero, (f32Mul_comm b a).trans hzero⟩

/-- Settles O56: both are a sign and one rounding of the exact magnitude. -/
theorem sumsAndProductsAreRoundedToNearestEven : Obligations.SumsAndProductsAreRoundedToNearestEven := by
  unfold Obligations.SumsAndProductsAreRoundedToNearestEven
  intro a b ha hb
  constructor
  · have hsum := roundedTo_pack (sumSign a b) 0 (f32Value a + f32Value b).natAbs
    rw [← f32Add_of_finite ha hb, signed_sumSign, pow_zero] at hsum
    exact hsum
  · have hprod := roundedTo_pack (f32Sign a != f32Sign b) 149 (f32Units a * f32Units b)
    rw [← f32Mul_of_finite ha hb, ← signed_mul, ← f32Value_eq, ← f32Value_eq] at hprod
    exact hprod

/-- Settles O57: the magnitude field grows with the value, and a fraction of 16 bits needs no rounding. -/
theorem comparisonAndFractionAreExact : Obligations.ComparisonAndFractionAreExact := by
  unfold Obligations.ComparisonAndFractionAreExact
  refine ⟨fun a b ha hb => ?_, fun a b => f32Lt_of_nan, fun f => ?_⟩
  · rw [f32Lt_iff (f32IsNaN_of_finite ha) (f32IsNaN_of_finite hb), f32Key_lt_iff]
  · obtain ⟨m, hlt, hm, hfrac⟩ := frac16_eq f
    have hone : f32Value 0x3F800000#32 = 2 ^ 149 := by decide +kernel
    rw [hfrac, f32IsFinite_pack_iff false hlt.le, f32Value_pack false (by omega), hone, hm]
    refine ⟨hlt, ?_⟩
    rw [signed_false]
    push_cast
    ring

/-- Settles O59: the cases of sum and product read off by class of operand. -/
theorem signsAndInfinities : Obligations.SignsAndInfinities := by
  unfold Obligations.SignsAndInfinities
  intro a b hna hnb
  refine ⟨fun ha h => ?_, fun ha hb hne => ?_, fun ha hb => ⟨fun hz => ?_, fun hz => ?_⟩, fun ha hb => ?_,
    fun hnan => ?_, rfl⟩
  · have hsum := f32Add_of_inf ha hnb h
    exact ⟨hsum, (f32Add_comm b a).trans hsum⟩
  · rw [f32Add_of_infs ha hb, if_neg fun hs => hne (f32_inf_eq ha hb hs).symm, f32CanonicalNaN]
  · rw [f32Add_of_finite ha hb, sumSign, if_pos hz, hz, Int.natAbs_zero, f32Round_zero, f32Sign, f32Sign]
    cases a.msb <;> cases b.msb <;> rfl
  · rw [f32Add_of_finite ha hb, f32Pack_msb, sumSign, if_neg hz, decide_eq_true_iff]
  · have hprod := f32Mul_inf_of_inf ha hnb hb
    exact ⟨hprod, by rwa [f32Mul_comm]⟩
  · rcases f32Mul_cases a b with h | ⟨mag, -, h⟩
    · exact absurd hnan (by rw [h]; decide)
    · rw [h, f32Pack_msb, f32Sign, f32Sign, Bool.bne_eq_xor]

/-- Settles O55: commutativity, and a factor's flipped sign carried to the product unless both products are the canonical
NaN. -/
theorem operandOrderAndSpellingDoNotMatter : Obligations.OperandOrderAndSpellingDoNotMatter := by
  unfold Obligations.OperandOrderAndSpellingDoNotMatter
  refine ⟨f32Add_comm, f32Mul_comm, fun d g x => ?_⟩
  rw [f32Sub, f32Add_comm]
  rcases f32Mul_neg_left g x with ⟨hpos, hneg⟩ | hneg
  · have hnan : f32IsNaN f32CanonicalNaN = true := by decide
    rw [hpos, hneg, f32Add_of_nan (.inl hnan), f32Add_of_nan (.inl ((f32IsNaN_neg _).trans hnan))]
  · rw [hneg]

end Sys2Proof.Machine

/-! PROOFS. The state family (10_state.md): what a command changes and what it leaves, the port phases, the state
invariant, the counters, and the view a ring FIFO gives of itself.

Each statement is about one step. A step takes one event (`takeEvent_cases`), and a performed command is one of the cases of
`Performed`; every proof below goes through these two and through what the operations in them do. -/

namespace Sys2Proof.Machine

/-! ## What a command can do, by case -/

/-- The transfer a FIFO_WRITE or FIFO_READ asks for, with its B bit. -/
def transferOf : Instr → Option (Bool × Request)
  | .fifoWrite b fid n u => some (b, .write fid.toNat n.toNat u)
  | .fifoRead b fid n => some (b, .read fid.toNat n.toNat)
  | _ => none

/-- A transfer names no slot. -/
theorem slotOf_of_transferOf {i : Instr} {b : Bool} {r : Request} (h : transferOf i = some (b, r)) : slotOf i = none := by
  cases i with
  | fifoWrite _ _ _ _ | fifoRead _ _ _ => rfl
  | _ => cases h

/-- The FIFO a failed transfer leaves: one event counted. -/
def failureEffect (q : Fifo) : Request → Fifo
  | .write _ _ _ => countOverflow q
  | .read _ _ => countUnderrun q

theorem countFailure_eq (r : Request) (s : State) :
    countFailure r s = s.setFifo r.fid (failureEffect (s.fifo r.fid) r) := by cases r <;> rfl

section

variable (r : Request) (s : State)

@[simp] theorem transfer_cfg : (transfer r s).cfg = s.cfg := by rw [transfer_eq]; rfl
@[simp] theorem transfer_fifos : (transfer r s).fifos =
    s.fifos.set r.fid (requestEffect (s.cfg.capOf r.fid) (s.fifo r.fid) r) := by rw [transfer_eq]; rfl
@[simp] theorem transfer_slots : (transfer r s).slots = s.slots := by rw [transfer_eq]; rfl
@[simp] theorem transfer_ports : (transfer r s).ports =
    s.ports.set s.serving (.done ⟨.ok, 0#32, requestPayload s r⟩) := by rw [transfer_eq]; rfl
@[simp] theorem transfer_serving : (transfer r s).serving = s.serving := by rw [transfer_eq]; rfl
@[simp] theorem transfer_agenda : (transfer r s).agenda = s.agenda := by rw [transfer_eq]; rfl
@[simp] theorem transfer_draws : (transfer r s).draws = s.draws := by rw [transfer_eq]; rfl
@[simp] theorem transfer_slot (sid : Nat) : (transfer r s).slot sid = s.slot sid := by rw [transfer_eq]; rfl

@[simp] theorem clearFifo_fifos (f : Nat) : (clearFifo f s).fifos =
    s.fifos.set f { s.fifo f with head := 0, tail := 0, count := 0 } := rfl

end

/-- The state after command `i` is performed in `s`, by case. -/
inductive Performed (i : Instr) (s : State) : State → Prop
  /-- a check failed -/
  | refused {st : Status} (check : checkCommand s.cfg i = some st) :
      Performed i s (s.setPort s.serving (.done ⟨st, 0#32, []⟩))
  /-- the transfer took place -/
  | transferred {b : Bool} {r : Request} (check : checkCommand s.cfg i = none) (kind : transferOf i = some (b, r))
      (ready : requestReady s r = true) : Performed i s (transfer r s)
  /-- the transfer waits -/
  | waits {r : Request} (check : checkCommand s.cfg i = none) (kind : transferOf i = some (true, r))
      (notReady : requestReady s r = false) : Performed i s (s.setPort s.serving (.blocked r))
  /-- the transfer failed, and the failure is counted -/
  | failed {r : Request} (check : checkCommand s.cfg i = none) (kind : transferOf i = some (false, r))
      (notReady : requestReady s r = false) :
      Performed i s ((s.setFifo r.fid (failureEffect (s.fifo r.fid) r)).setPort s.serving (.done ⟨.wouldBlock, 0#32, []⟩))
  /-- a number of a FIFO was read -/
  | queried {w : Word} (check : checkCommand s.cfg i = none) : Performed i s (s.setPort s.serving (.done ⟨.ok, w, []⟩))
  /-- a FIFO was cleared -/
  | cleared {fid : BitVec 3} (check : checkCommand s.cfg i = none) (kind : i = .fifoClear fid) :
      Performed i s ((clearFifo fid.toNat s).setPort s.serving (.done ⟨.ok, 0#32, []⟩))
  /-- a slot command had its effect -/
  | onSlot {sid : BitVec 8} (check : checkCommand s.cfg i = none) (kind : slotOf i = some sid) :
      Performed i s ((s.setSlot sid.toNat (slotEffect s.cfg (s.slot sid.toNat) i).1).setPort s.serving
        (.done ⟨.ok, (slotEffect s.cfg (s.slot sid.toNat) i).2, []⟩))

theorem Performed.of_attempt {i : Instr} {s : State} {b : Bool} {r : Request} (check : checkCommand s.cfg i = none)
    (kind : transferOf i = some (b, r)) : Performed i s (attempt b r s) := by
  rcases attempt_cases b r s with ⟨ready, h⟩ | ⟨notReady, rfl, h⟩ | ⟨notReady, rfl, h⟩
  · exact h ▸ .transferred check kind ready
  · exact h ▸ .waits check kind notReady
  · rw [h, countFailure_eq]
    exact .failed check kind notReady

/-- Performing a command is one of the cases of `Performed`. -/
theorem performed_of_exec {i : Instr} {s t : State} (h : exec i s = .next t) : Performed i s t := by
  rcases exec_cases i s with ⟨st, check, e⟩ | ⟨check, ⟨b, fid, n, u, rfl, e⟩ | ⟨b, fid, n, rfl, e⟩ | ⟨fid, r, _, e⟩ |
    ⟨fid, kind, e⟩ | ⟨sid, kind, e⟩⟩
  all_goals
    rw [e] at h
    obtain rfl := Host.Outcome.next.inj h
  · exact .refused check
  · exact .of_attempt check rfl
  · exact .of_attempt check rfl
  · exact .queried check
  · exact .cleared check kind
  · exact .onSlot check kind

/-- A command whose check fails is refused. -/
theorem exec_refused {i : Instr} {s : State} {st : Status} (h : checkCommand s.cfg i = some st) :
    exec i s = .next (refuse st s) := by
  rcases exec_cases i s with ⟨st', h', e⟩ | ⟨h', _⟩
  · cases h.symm.trans h'
    exact e
  · cases h.symm.trans h'

/-! ## What an update leaves unchanged -/

/-- `t` is `s` but for what the port being served holds. -/
abbrev OnlyPort (s t : State) : Prop :=
  SameWorld s t ∧ t.fifos = s.fifos ∧ t.slots = s.slots ∧ OtherPortsSame s t

theorem otherPortsSame_of_set {s t : State} {ph : Phase} (h : t.ports = s.ports.set s.serving ph) : OtherPortsSame s t :=
  ⟨by simp [h], fun q hq => by simp [State.port?, h, List.getElem?_set_ne (Ne.symm hq)]⟩

theorem otherFifosSame_of_set {s t : State} {f : Nat} {q : Fifo} (h : t.fifos = s.fifos.set f q) : OtherFifosSame f s t :=
  ⟨by simp [h], fun g hg => by simp [State.fifo, h, List.getElem?_set_ne (Ne.symm hg)]⟩

theorem otherSlotsSame_of_set {s t : State} {sid : Nat} {sl : Slot} (h : t.slots = s.slots.set sid sl) :
    OtherSlotsSame sid s t :=
  ⟨by simp [h], fun r hr => by simp [State.slot, h, List.getElem?_set_ne (Ne.symm hr)]⟩

theorem onlyPort_setPort (s : State) (ph : Phase) : OnlyPort s (s.setPort s.serving ph) :=
  ⟨⟨rfl, rfl, rfl, rfl⟩, rfl, rfl, otherPortsSame_of_set rfl⟩

theorem OnlyPort.onlyFifo {s t : State} (h : OnlyPort s t) (f : Nat) : OnlyFifo f s t := by
  obtain ⟨world, fifos, slots, ports⟩ := h
  exact ⟨world, slots, ⟨by rw [fifos], fun g _ => by rw [State.fifo, fifos]; rfl⟩, ports⟩

theorem OnlyPort.onlySlot {s t : State} (h : OnlyPort s t) (sid : Nat) : OnlySlot sid s t := by
  obtain ⟨world, fifos, slots, ports⟩ := h
  exact ⟨world, fifos, ⟨by rw [slots], fun r _ => by rw [State.slot, slots]; rfl⟩, ports⟩

theorem transfer_onlyFifo (r : Request) (s : State) : OnlyFifo r.fid s (transfer r s) :=
  ⟨⟨transfer_cfg r s, transfer_serving r s, transfer_agenda r s, transfer_draws r s⟩, transfer_slots r s,
    otherFifosSame_of_set (transfer_fifos r s), otherPortsSame_of_set (transfer_ports r s)⟩

/-! ## What a command leaves unchanged -/

/-- A transfer command changes nothing but its FIFO and its port. -/
theorem exec_onlyFifo {i : Instr} {s t : State} {b : Bool} {r : Request} (hi : transferOf i = some (b, r))
    (h : exec i s = .next t) : OnlyFifo r.fid s t := by
  cases performed_of_exec h with
  | refused _ | waits _ _ _ | queried _ => exact (onlyPort_setPort s _).onlyFifo _
  | transferred _ kind _ =>
    cases hi.symm.trans kind
    exact transfer_onlyFifo r s
  | failed _ kind _ =>
    cases hi.symm.trans kind
    exact ⟨⟨rfl, rfl, rfl, rfl⟩, rfl, otherFifosSame_of_set rfl, otherPortsSame_of_set rfl⟩
  | cleared _ kind => subst kind; cases hi
  | onSlot _ kind => cases (slotOf_of_transferOf hi).symm.trans kind

/-- A slot command changes nothing but its slot and its port. -/
theorem exec_onlySlot {i : Instr} {s t : State} {sid : BitVec 8} (hi : slotOf i = some sid)
    (h : exec i s = .next t) : OnlySlot sid.toNat s t := by
  cases performed_of_exec h with
  | refused _ | waits _ _ _ | queried _ => exact (onlyPort_setPort s _).onlySlot _
  | transferred _ kind _ | failed _ kind _ => cases (slotOf_of_transferOf kind).symm.trans hi
  | cleared _ kind => subst kind; cases hi
  | onSlot _ kind =>
    cases hi.symm.trans kind
    exact ⟨⟨rfl, rfl, rfl, rfl⟩, rfl, otherSlotsSame_of_set rfl, otherPortsSame_of_set rfl⟩

/-- The FIFO a command changes: a transfer or a clear. -/
def changedFifo : Instr → Option Nat
  | .fifoWrite _ fid _ _ | .fifoRead _ fid _ | .fifoClear fid => some fid.toNat
  | _ => none

theorem changedFifo_of_transferOf {i : Instr} {b : Bool} {r : Request} (h : transferOf i = some (b, r)) :
    changedFifo i = some r.fid := by
  cases i with
  | fifoWrite _ _ _ _ | fifoRead _ _ _ => cases h; rfl
  | _ => cases h

/-- A slot command that `changedSlot` does not list leaves its slot as it is. -/
theorem slotEffect_fst_of_unchanged {i : Instr} (h : changedSlot i = none) (cfg : Config) (sl : Slot) :
    (slotEffect cfg sl i).1 = sl := by
  cases i with
  | dlWrite _ _ | apStep _ _ | combStep _ _ | erStep _ _ | slotWr _ _ _ | slotClr _ => cases h
  | _ => rfl

theorem changedSlot_eq_slotOf {i : Instr} {sid : BitVec 8} (h : slotOf i = some sid) :
    changedSlot i = none ∨ changedSlot i = some sid.toNat := by
  cases i with
  | dlWrite _ _ | apStep _ _ | combStep _ _ | erStep _ _ | slotWr _ _ _ | slotClr _ => cases h; exact .inr rfl
  | dlRead _ _ | dlReadi _ _ | slotRd _ _ => exact .inl rfl
  | _ => cases h

/-- A query changes nothing but its port. -/
theorem exec_onlyPort {i : Instr} {s t : State} (hf : changedFifo i = none) (hs : changedSlot i = none)
    (h : exec i s = .next t) : OnlyPort s t := by
  cases performed_of_exec h with
  | refused _ | waits _ _ _ | queried _ => exact onlyPort_setPort s _
  | transferred _ kind _ | failed _ kind _ => cases hf.symm.trans (changedFifo_of_transferOf kind)
  | cleared _ kind => subst kind; cases hf
  | onSlot _ kind =>
    rw [slotEffect_fst_of_unchanged hs, State.setSlot_slot]
    exact onlyPort_setPort s _

theorem exec_fifoClear_frame {fid : BitVec 3} {s t : State} (h : exec (.fifoClear fid) s = .next t) :
    SameWorld s t ∧ t.slots = s.slots ∧ OtherFifosSame fid.toNat s t := by
  cases performed_of_exec h with
  | refused _ | waits _ _ _ | queried _ =>
    obtain ⟨world, slots, fifos, _⟩ := (onlyPort_setPort s _).onlyFifo fid.toNat
    exact ⟨world, slots, fifos⟩
  | transferred _ kind _ | failed _ kind _ | onSlot _ kind => cases kind
  | cleared _ kind =>
    cases kind
    exact ⟨⟨rfl, rfl, rfl, rfl⟩, rfl, otherFifosSame_of_set rfl⟩

/-- Settles O52: each command by its kind. -/
theorem commandsActOnlyOnTheirTarget : Obligations.CommandsActOnlyOnTheirTarget := by
  unfold Obligations.CommandsActOnlyOnTheirTarget
  intro i s t h
  cases i with
  | fifoWrite _ _ _ _ | fifoRead _ _ _ => exact exec_onlyFifo rfl h
  | fifoAvailRd _ | fifoAvailWr _ | fifoInfo _ _ | dlRead _ _ | dlReadi _ _ | slotRd _ _ => exact exec_onlyPort rfl rfl h
  | fifoClear _ => exact exec_fifoClear_frame h
  | dlWrite _ _ | apStep _ _ | combStep _ _ | erStep _ _ | slotWr _ _ _ | slotClr _ => exact exec_onlySlot rfl h

/-! ## Which commands and events change a slot or a FIFO -/

/-- A command changes only the slot it names, and only one that writes. -/
theorem changedSlot_of_exec {i : Instr} {s t : State} {sid : Nat} (h : exec i s = .next t)
    (hne : t.slot sid ≠ s.slot sid) : changedSlot i = some sid := by
  cases performed_of_exec h with
  | refused _ | waits _ _ _ | queried _ | failed _ _ _ | cleared _ _ => exact absurd rfl hne
  | transferred _ _ _ => exact absurd (transfer_slot _ _ _) hne
  | onSlot _ kind =>
    rcases changedSlot_eq_slotOf kind with hc | hc
    · rw [slotEffect_fst_of_unchanged hc, State.setSlot_slot] at hne
      exact absurd rfl hne
    · by_contra hsid
      exact hne (State.slot_setSlot_other _ _ _ _ fun e => hsid (e ▸ hc))

/-- A command changes only the FIFO it transfers on or clears. -/
theorem changedFifo_of_exec {i : Instr} {s t : State} {f : Nat} (h : exec i s = .next t)
    (hne : t.fifo f ≠ s.fifo f) : changedFifo i = some f := by
  cases performed_of_exec h with
  | refused _ | waits _ _ _ | queried _ | onSlot _ _ => exact absurd rfl hne
  | transferred _ kind _ =>
    by_contra hf
    exact hne (transfer_fifo_other fun e => hf (e ▸ changedFifo_of_transferOf kind))
  | failed _ kind _ =>
    by_contra hf
    exact hne (State.fifo_setFifo_other _ _ _ _ fun e => hf (e ▸ changedFifo_of_transferOf kind))
  | cleared _ kind =>
    subst kind
    by_contra hf
    exact hne (clearFifo_fifo_other fun e => hf (e ▸ rfl))

/-- A step takes the next event in `s`, up to the world's script and draws. -/
theorem takeEvent_of_step {s t : State} (h : step s = .next t) :
    ∃ a d, takeEvent (nextEvent s).1 { s with agenda := a, draws := d } = .next t := by
  obtain ⟨a, d, e⟩ := nextEvent_state s
  exact ⟨a, d, by rwa [step, e] at h⟩

/-- An event changes a slot only if it performs a command that does, or is reset. -/
theorem takeEvent_slot_ne {e : Event} {s t : State} {sid : Nat} (h : takeEvent e s = .next t)
    (hne : t.slot sid ≠ s.slot sid) :
    e = .reset ∨ ∃ p c i, e = .perform p ∧ s.port? p = some (.issued c) ∧ decode c = .ok i ∧ changedSlot i = some sid := by
  rcases takeEvent_cases e s t h with ⟨rfl, _⟩ | ⟨p, c, rfl, _, _, rfl⟩ | ⟨p, c, x, rfl, _, _, rfl⟩ |
    ⟨p, c, i, he, hp, hd, hx⟩ | ⟨p, r, rfl, _, _, rfl⟩ | ⟨p, r, rfl, _, rfl⟩ | ⟨he, _⟩
  · exact absurd rfl hne
  · exact absurd rfl hne
  · exact absurd rfl hne
  · exact .inr ⟨p, c, i, he, hp, hd, changedSlot_of_exec hx hne⟩
  · exact absurd (transfer_slot _ _ _) hne
  · exact absurd rfl hne
  · exact .inl he

/-- An event changes a FIFO only if it completes a transfer on it, performs a command that changes it, or is reset. -/
theorem takeEvent_fifo_ne {e : Event} {s t : State} {f : Nat} (h : takeEvent e s = .next t)
    (hne : t.fifo f ≠ s.fifo f) :
    e = .reset ∨
    (∃ p r, e = .complete p ∧ s.port? p = some (.blocked r) ∧ requestReady s r = true ∧ r.fid = f) ∨
    ∃ p c i, e = .perform p ∧ s.port? p = some (.issued c) ∧ decode c = .ok i ∧ changedFifo i = some f := by
  rcases takeEvent_cases e s t h with ⟨rfl, _⟩ | ⟨p, c, rfl, _, _, rfl⟩ | ⟨p, c, x, rfl, _, _, rfl⟩ |
    ⟨p, c, i, he, hp, hd, hx⟩ | ⟨p, r, he, hp, hr, rfl⟩ | ⟨p, r, rfl, _, rfl⟩ | ⟨he, _⟩
  · exact absurd rfl hne
  · exact absurd rfl hne
  · exact absurd rfl hne
  · exact .inr (.inr ⟨p, c, i, he, hp, hd, changedFifo_of_exec hx hne⟩)
  · refine .inr (.inl ⟨p, r, he, hp, hr, ?_⟩)
    by_contra hf
    exact hne (transfer_fifo_other (Ne.symm hf))
  · exact absurd rfl hne
  · exact .inl he

/-- The commands that `changedSlot` lists, written out. -/
theorem exists_of_changedSlot {i : Instr} {sid : Nat} (h : changedSlot i = some sid) :
    ∃ id : BitVec 8, id.toNat = sid ∧ ∃ v reg,
      i ∈ [Instr.dlWrite id v, .apStep id v, .combStep id v, .erStep id v, .slotWr id reg v, .slotClr id] := by
  cases i with
  | dlWrite id v | apStep id v | combStep id v | erStep id v => exact ⟨id, by simpa [changedSlot] using h, v, .cap, by simp⟩
  | slotWr id reg v => exact ⟨id, by simpa [changedSlot] using h, v, reg, by simp⟩
  | slotClr id => exact ⟨id, by simpa [changedSlot] using h, 0#32, .cap, by simp⟩
  | _ => cases h

/-- The commands that `changedFifo` lists, written out. -/
theorem exists_of_changedFifo {i : Instr} {f : Nat} (h : changedFifo i = some f) :
    ∃ id : BitVec 3, id.toNat = f ∧ ∃ b n u, i ∈ [Instr.fifoWrite b id n u, .fifoRead b id n, .fifoClear id] := by
  cases i with
  | fifoWrite b id n u => exact ⟨id, by simpa [changedFifo] using h, b, n, u, by simp⟩
  | fifoRead b id n => exact ⟨id, by simpa [changedFifo] using h, b, n, [], by simp⟩
  | fifoClear id => exact ⟨id, by simpa [changedFifo] using h, false, 0#24, [], by simp⟩
  | _ => cases h

/-- Settles O60: the change is traced to the event, and a performed command to what it names. -/
theorem slotsAndFifosChangeOnlyByTheirCommands : Obligations.SlotsAndFifosChangeOnlyByTheirCommands := by
  unfold Obligations.SlotsAndFifosChangeOnlyByTheirCommands
  intro s t h
  obtain ⟨a, d, h⟩ := takeEvent_of_step h
  refine ⟨fun sid hne => ?_, fun f hne => ?_⟩
  · rcases takeEvent_slot_ne h hne with he | ⟨p, c, i, he, hp, hd, hc⟩
    · exact .inl he
    · obtain ⟨id, hid, named⟩ := exists_of_changedSlot hc
      exact .inr ⟨id, hid, i, ⟨p, c, he, hp, hd⟩, named⟩
  · rcases takeEvent_fifo_ne h hne with he | hcomplete | ⟨p, c, i, he, hp, hd, hc⟩
    · exact .inl he
    · exact .inr (.inl hcomplete)
    · obtain ⟨id, hid, named⟩ := exists_of_changedFifo hc
      exact .inr (.inr ⟨id, hid, i, ⟨p, c, he, hp, hd⟩, named⟩)

/-! ## The build and the phases of the ports -/

theorem exec_cfg {i : Instr} {s t : State} (h : exec i s = .next t) : t.cfg = s.cfg := by
  cases performed_of_exec h with
  | transferred _ _ _ => exact transfer_cfg _ _
  | _ => rfl

theorem takeEvent_cfg {e : Event} {s t : State} (h : takeEvent e s = .next t) : t.cfg = s.cfg := by
  rcases takeEvent_cases e s t h with ⟨rfl, _⟩ | ⟨p, c, _, _, _, rfl⟩ | ⟨p, c, x, _, _, _, rfl⟩ |
    ⟨p, c, i, _, _, _, hx⟩ | ⟨p, r, _, _, _, rfl⟩ | ⟨p, r, _, _, rfl⟩ | ⟨_, rfl⟩
  case inr.inr.inr.inl => exact (exec_cfg hx :)
  case inr.inr.inr.inr.inl => exact transfer_cfg _ _
  all_goals rfl

/-- No step changes the build. -/
theorem step_cfg {s t : State} (h : step s = .next t) : t.cfg = s.cfg := by
  obtain ⟨a, d, h⟩ := takeEvent_of_step h
  exact (takeEvent_cfg h :)

/-- The moves of a port in one step other than reset (10_state.md R34). -/
inductive PhaseMove : Phase → Phase → Prop
  | stay (a : Phase) : PhaseMove a a
  | issue (c : Command) : PhaseMove .idle (.issued c)
  | answer (c : Command) (r : Response) : PhaseMove (.issued c) (.done r)
  | wait (c : Command) (r : Request) : PhaseMove (.issued c) (.blocked r)
  | finish (r : Request) (r' : Response) : PhaseMove (.blocked r) (.done r')
  | collect (r : Response) : PhaseMove (.done r) .idle

/-- From `s` to `t` every port makes a move, or stays. -/
abbrev PortsMove (s t : State) : Prop :=
  t.ports.length = s.ports.length ∧ ∀ p a, s.port? p = some a → ∃ b, t.port? p = some b ∧ PhaseMove a b

theorem portsMove_refl (s : State) : PortsMove s s := ⟨rfl, fun _ a h => ⟨a, h, .stay a⟩⟩

/-- One port makes a move. -/
theorem portsMove_of_set {s t : State} {p : Nat} {a ph : Phase} (hp : s.port? p = some a) (move : PhaseMove a ph)
    (h : t.ports = s.ports.set p ph) : PortsMove s t := by
  refine ⟨by simp [h], fun q b hq => ?_⟩
  have ht : t.port? q = (s.setPort p ph).port? q := by simp [State.port?, h]
  rw [ht]
  by_cases e : q = p
  · subst e
    obtain rfl : a = b := Option.some.inj (hp.symm.trans hq)
    exact ⟨ph, State.port_setPort_self _ _ _ (List.getElem?_eq_some_iff.mp hp).1, move⟩
  · exact ⟨b, by rwa [State.port_setPort_other _ _ _ _ e], .stay b⟩

/-- A clear answers the requests blocked on its FIFO and touches no other port. -/
theorem phaseMove_abortPhase (f : Nat) (a : Phase) : PhaseMove a (abortPhase f a) := by
  cases a with
  | blocked r =>
    rw [abortPhase]
    split
    · exact .finish _ _
    · exact .stay _
  | idle | issued _ | done _ => exact .stay _

theorem exec_portsMove {i : Instr} {c : Command} {s t : State} (hp : s.port? s.serving = some (.issued c))
    (h : exec i s = .next t) : PortsMove s t := by
  cases performed_of_exec h with
  | refused _ | queried _ | failed _ _ _ | onSlot _ _ => exact portsMove_of_set hp (.answer c _) rfl
  | transferred _ _ _ => exact portsMove_of_set hp (.answer c _) (transfer_ports _ _)
  | waits _ _ _ => exact portsMove_of_set hp (.wait c _) rfl
  | cleared _ _ =>
    refine ⟨by simp, fun q b hq => ?_⟩
    by_cases e : q = s.serving
    · subst e
      obtain rfl : Phase.issued c = b := Option.some.inj (hp.symm.trans hq)
      exact ⟨_, State.port_setPort_self _ _ _ (by simpa using (List.getElem?_eq_some_iff.mp hq).1), .answer c _⟩
    · rw [State.port_setPort_other _ _ _ _ e, clearFifo_port, hq]
      exact ⟨_, rfl, phaseMove_abortPhase _ b⟩

theorem takeEvent_portsMove {e : Event} {s t : State} (h : takeEvent e s = .next t) :
    PortsMove s t ∨ (e = .reset ∧ t = resetStep s) := by
  rcases takeEvent_cases e s t h with ⟨rfl, _⟩ | ⟨p, c, _, hp, _, rfl⟩ | ⟨p, c, x, _, hp, _, rfl⟩ |
    ⟨p, c, i, _, hp, _, hx⟩ | ⟨p, r, _, hp, _, rfl⟩ | ⟨p, r, _, hp, rfl⟩ | he
  · exact .inl (portsMove_refl _)
  · exact .inl (portsMove_of_set hp (.issue c) rfl)
  · exact .inl (portsMove_of_set hp (.answer c _) rfl)
  · exact .inl (exec_portsMove (s := serve p s) hp hx)
  · exact .inl (portsMove_of_set hp (.finish r _) (transfer_ports r (serve p s)))
  · exact .inl (portsMove_of_set hp (.collect r) rfl)
  · exact .inr he

/-- Settles O9: by the move each event makes. -/
theorem portPhasesAndBuild : Obligations.PortPhasesAndBuild := by
  unfold Obligations.PortPhasesAndBuild
  intro s t hlen h
  obtain ⟨a, d, htake⟩ := takeEvent_of_step h
  refine ⟨step_cfg h, ?_⟩
  have hport : ∀ p < s.ports.length, ∃ a, s.port? p = some a := fun p hp => ⟨_, List.getElem?_eq_getElem hp⟩
  rcases takeEvent_portsMove htake with ⟨hlen', moves⟩ | ⟨he, rfl⟩
  · refine ⟨hlen', fun p hp => ?_⟩
    obtain ⟨a, ha⟩ := hport p hp
    obtain ⟨b, hb, move⟩ := moves p a ha
    refine ⟨a, b, ha, hb, ?_⟩
    cases move <;> simp
  · refine ⟨by simpa using hlen.symm, fun p hp => ?_⟩
    obtain ⟨a, ha⟩ := hport p hp
    refine ⟨a, .idle, ha, ?_, by simp [he]⟩
    simp [State.port?, hlen ▸ hp]

/-! ## Taking an event, by the phase of its port -/

section

variable {p : Nat} {c : Command} {s : State}

theorem takeEvent_perform_ok {i : Instr} (hp : s.port? p = some (.issued c)) (hd : decode c = .ok i) :
    takeEvent (.perform p) s = exec i (serve p s) := by
  simp only [takeEvent, performStep, issuedCommand, hp, hd]

theorem takeEvent_perform_error {x : Illegal} (hp : s.port? p = some (.issued c)) (hd : decode c = .error x) :
    takeEvent (.perform p) s = .next (refuse .illegal (serve p s)) := by
  simp only [takeEvent, performStep, issuedCommand, hp, hd, illegalStep]

theorem takeEvent_issue (hp : s.port? p = some .idle) (fits : c.fits s.cfg) :
    takeEvent (.issue p c) s = .next (s.setPort p (.issued c)) := by
  have he : enabled s (.issue p c) = true := by
    rw [enabled, hp, Bool.and_eq_true]
    exact ⟨beq_self_eq_true _, decide_eq_true fits⟩
  simp only [takeEvent, worldStep, issueStep, he, if_true]

theorem takeEvent_collect {r : Response} (hp : s.port? p = some (.done r)) :
    takeEvent (.collect p) s = .next (s.setPort p .idle) := by
  simp only [takeEvent, worldStep, collectStep, hasResponse, hp, if_true]

theorem takeEvent_complete {r : Request} (hp : s.port? p = some (.blocked r)) (ready : requestReady s r = true) :
    takeEvent (.complete p) s = .next (transfer r (serve p s)) := by
  simp only [takeEvent, worldStep, completeStep, readyRequest, hp, ready, if_true]

/-- An event that is not enabled changes nothing (log entry 5). -/
theorem takeEvent_of_not_enabled {e : Event} (h : enabled s e = false) : takeEvent e s = .next s := by
  cases e with
  | issue p c => simp only [takeEvent, worldStep, issueStep, h, Bool.false_eq_true, if_false]
  | perform p =>
    have hp : issuedCommand p s = none := by simpa [enabled] using h
    simp only [takeEvent, performStep, hp]
  | complete p =>
    have hp : readyRequest p s = none := by simpa [enabled] using h
    simp only [takeEvent, worldStep, completeStep, hp]
  | collect p =>
    have hp : hasResponse p s = false := h
    simp only [takeEvent, worldStep, collectStep, hp, Bool.false_eq_true, if_false]
  | reset => cases h

end

theorem step_of_agenda {s : State} {e : Event} {rest : List Event} (h : s.agenda = e :: rest) :
    step s = takeEvent e { s with agenda := rest } := by simp only [step, nextEvent, h]

theorem hasResponse_eq_false {p : Nat} {s : State} (h : ∀ r, s.port? p ≠ some (.done r)) : hasResponse p s = false := by
  unfold hasResponse
  split
  · exact absurd ‹_› (h _)
  all_goals rfl

/-- Settles O7: each scripted event, enabled and not. -/
theorem agentsIssueAndCollect : Obligations.AgentsIssueAndCollect := by
  unfold Obligations.AgentsIssueAndCollect
  refine ⟨fun s p c rest h => ?_, fun s p rest h => ?_⟩
  · rw [step_of_agenda h]
    refine ⟨takeEvent_issue (s := { s with agenda := rest }), fun hp => takeEvent_of_not_enabled ?_⟩
    rw [enabled, Bool.and_eq_false_iff, beq_eq_false_iff_ne]
    exact .inl hp
  · rw [step_of_agenda h]
    exact ⟨fun r => takeEvent_collect (s := { s with agenda := rest }), fun hp => takeEvent_of_not_enabled (hasResponse_eq_false hp)⟩

/-! ## The state after reset -/

theorem resetOf_fifo (cfg : Config) (f : Nat) : (State.resetOf cfg).fifo f = Fifo.reset := by
  simp only [State.fifo, State.resetOf, List.getD_eq_getElem?_getD, List.getElem?_replicate]
  split <;> rfl

theorem resetOf_slot (cfg : Config) (sid : Nat) : (State.resetOf cfg).slot sid = Slot.reset := by
  simp only [State.slot, State.resetOf, List.getD_eq_getElem?_getD, List.getElem?_replicate]
  split <;> rfl

theorem resetOf_port {cfg : Config} {p : Nat} (hp : p < cfg.numPorts) : (State.resetOf cfg).port? p = some .idle := by
  simp [State.port?, State.resetOf, hp]

/-- Settles O11: every FIFO, slot and port is the one reset puts there. -/
theorem resetValues : Obligations.ResetValues := by
  unfold Obligations.ResetValues
  intro cfg
  refine ⟨by simp [State.resetOf], by simp [State.resetOf], by simp [State.resetOf], fun f _ => ?_, fun sid _ => ?_,
    fun p => resetOf_port⟩
  · rw [resetOf_fifo]
    exact ⟨rfl, rfl, rfl, rfl, rfl⟩
  · rw [resetOf_slot]
    refine ⟨fun _ => rfl, rfl, rfl, rfl, rfl, rfl, rfl, rfl, fun t => ?_⟩
    simp [Slot.reset]

/-! ## Slots stay well formed -/

/-- A clamped number is in range. -/
theorem inRange_clampf {v lo hi : Word} (hv : f32IsNaN v = false) (hlo : inRange lo hi lo = true)
    (hhi : inRange lo hi hi = true) : inRange lo hi (clampf v lo hi) = true := by
  unfold clampf
  split
  · exact hlo
  · split
    · exact hhi
    · simp_all [inRange]

theorem slotOk_reset {cfg : Config} (h : cfg.Legal) : SlotOk cfg Slot.reset := by
  obtain ⟨_, _, _, _, _, hd, _, _, _⟩ := h
  refine ⟨le_rfl, hd, Nat.zero_lt_one, by decide +kernel, by decide, by decide, by decide, fun t => ?_,
    ⟨List.Pairwise.nil, by simp [Slot.reset]⟩, by simp [Slot.reset]⟩
  simp only [Slot.reset, Fin.getElem_fin, Vector.getElem_replicate]
  decide

/-- CAP writes and SLOT_CLR empty the storage and put the cursor at 0, which suits any capacity. -/
theorem slotOk_clearHistory {cfg : Config} {sl : Slot} (h : SlotOk cfg sl) {c : Nat} (hc : 1 ≤ c) (hd : c ≤ cfg.dmax) :
    SlotOk cfg { clearHistory sl with cap := c } := by
  obtain ⟨_, _, _, damp2, gain, fb, damp, tapg, _, _⟩ := h
  exact ⟨hc, hd, hc, damp2, gain, fb, damp, tapg, clearHistory_wf sl, by simp [clearHistory]⟩

/-- A register write that passes the NaN check keeps a slot well formed. -/
theorem slotOk_writeReg {cfg : Config} (legal : cfg.Legal) {sl : Slot} (h : SlotOk cfg sl) {reg : SlotReg} {v : Word}
    (hv : refusesNaN reg = true → f32IsNaN v = false) : SlotOk cfg (writeReg cfg.dmax sl reg v) := by
  obtain ⟨_, _, _, _, _, hdmax, _, _, _⟩ := legal
  obtain ⟨cap, capMax, cur, damp2, gain, fb, damp, tapg, wf, inside⟩ := id h
  cases reg with
  | cap => exact slotOk_clearHistory h (by omega) (by omega)
  | gain =>
    exact ⟨cap, capMax, cur, damp2, inRange_clampf (hv rfl) (by decide) (by decide), fb, damp, tapg, wf, inside⟩
  | fb =>
    exact ⟨cap, capMax, cur, damp2, gain, inRange_clampf (hv rfl) (by decide) (by decide), damp, tapg, wf, inside⟩
  | damp =>
    exact ⟨cap, capMax, cur, rfl, gain, fb, inRange_clampf (hv rfl) (by decide) (by decide), tapg, wf, inside⟩
  | tapd _ => exact ⟨cap, capMax, cur, damp2, gain, fb, damp, tapg, wf, inside⟩
  | tapg t =>
    refine ⟨cap, capMax, cur, damp2, gain, fb, damp, fun t' => ?_, wf, inside⟩
    simp only [writeReg, Fin.getElem_fin, Vector.getElem_set]
    split
    · exact hv rfl
    · exact tapg t'
  | damp2 | fstate | cur => exact h

/-- Every slot command that passes its checks keeps its slot well formed. -/
theorem slotOk_slotEffect {cfg : Config} (legal : cfg.Legal) {sl : Slot} (h : SlotOk cfg sl) {i : Instr}
    (check : checkCommand cfg i = none) : SlotOk cfg (slotEffect cfg sl i).1 := by
  cases i with
  | dlWrite _ v => exact slotOk_dlWrite h sl.fstate v
  | apStep _ x => exact slotOk_dlWrite h sl.fstate (allPassStore sl x)
  | combStep _ x => exact slotOk_dlWrite h (combState sl) (combStore sl x)
  | erStep _ x => exact slotOk_dlWrite h sl.fstate x
  | slotWr _ reg v =>
    obtain ⟨_, _, _, operand⟩ := (check_eq_none_iff cfg _).mp check
    exact slotOk_writeReg legal h fun hr => by simpa [operandLegal, hr] using operand
  | slotClr _ =>
    obtain ⟨cap, capMax, _⟩ := id h
    exact slotOk_clearHistory h cap capMax
  | _ => exact h

/-! ## FIFOs stay well formed -/

theorem fifoOk_reset {cfg : Config} (h : cfg.Legal) {f : Nat} (hf : f < numFifo) : FifoOk cfg f Fifo.reset := by
  obtain ⟨_, hcap, _⟩ := h
  obtain ⟨hpos, _⟩ := hcap f hf
  exact ⟨Nat.zero_le _, hpos, hpos, (Nat.zero_mod _).symm, ⟨List.Pairwise.nil, by simp [Fifo.reset]⟩,
    by simp [Fifo.reset], fun i hi => absurd hi (Nat.not_lt_zero i)⟩

/-- An emptied FIFO is well formed whatever its storage still holds. -/
theorem fifoOk_emptied {cfg : Config} {f : Nat} {q : Fifo} (h : FifoOk cfg f q) :
    FifoOk cfg f { q with head := 0, tail := 0, count := 0 } := by
  obtain ⟨_, head, _, _, wf, inside, _⟩ := h
  have hpos : 0 < cfg.capOf f := Nat.zero_lt_of_lt head
  exact ⟨Nat.zero_le _, hpos, hpos, (Nat.zero_mod _).symm, wf, inside, fun i hi => absurd hi (Nat.not_lt_zero i)⟩

/-- Counting a failure changes a counter, which no invariant reads. -/
theorem fifoOk_failureEffect {cfg : Config} {f : Nat} {q : Fifo} (h : FifoOk cfg f q) (r : Request) :
    FifoOk cfg f (failureEffect q r) := by cases r <;> exact h

theorem requestOk_fid_lt {cfg : Config} {r : Request} (h : requestOk cfg r = true) : r.fid < numFifo := by
  cases r <;> simp only [requestOk, decide_eq_true_eq] at h <;> exact h.1

theorem fifoOk_requestEffect {s : State} {r : Request} (h : FifoOk s.cfg r.fid (s.fifo r.fid))
    (hr : requestOk s.cfg r = true) (ready : requestReady s r = true) :
    FifoOk s.cfg r.fid (requestEffect (s.cfg.capOf r.fid) (s.fifo r.fid) r) := by
  cases r with
  | write f n u =>
    simp only [requestOk, requestReady, decide_eq_true_eq] at hr ready
    obtain ⟨_, _, rfl, units⟩ := hr
    exact fifoOk_enqueue h units ready
  | read f n =>
    simp only [requestReady, decide_eq_true_eq] at ready
    exact fifoOk_dequeue h ready

/-! ## The operations keep the state invariant -/

/-- What a FIFO storage reads as is a unit of this build, written or not. -/
theorem loadUnit_lt {cfg : Config} {f : Nat} {q : Fifo} (h : FifoOk cfg f q) (g i : Nat) :
    loadUnit cfg.unitW g q i < 2 ^ cfg.unitW := by
  obtain ⟨_, _, _, _, _, inside, _⟩ := h
  unfold loadUnit
  cases hm : memFind q.mem i with
  | none => exact Nat.mod_lt _ (Nat.two_pow_pos _)
  | some u => exact (inside _ (mem_of_memFind hm)).2

theorem unitsFit_nil (cfg : Config) : unitsFit cfg [] := fun _ hx => absurd hx List.not_mem_nil

/-- A response without units suits any build. -/
theorem phaseOk_done (cfg : Config) (st : Status) (w : Word) : phaseOk cfg (.done ⟨st, w, []⟩) = true :=
  decide_eq_true (unitsFit_nil cfg)

theorem unitsFit_requestPayload {s : State} (h : StateInv s) {r : Request} (hr : requestOk s.cfg r = true) :
    unitsFit s.cfg (requestPayload s r) := by
  cases r with
  | write _ _ _ => exact unitsFit_nil _
  | read f n =>
    obtain ⟨_, _, _, _, fifos, _, _⟩ := h
    intro x hx
    obtain ⟨i, _, rfl⟩ := List.mem_map.mp hx
    exact loadUnit_lt (fifos f (requestOk_fid_lt hr)) _ _

section

variable {s : State} (h : StateInv s)

include h

theorem stateInv_setPort (p : Nat) {ph : Phase} (hph : phaseOk s.cfg ph = true) : StateInv (s.setPort p ph) := by
  obtain ⟨legal, nf, ns, np, fifos, slots, ports⟩ := h
  refine ⟨legal, nf, ns, by simpa using np, fifos, slots, fun x hx => ?_⟩
  rcases List.mem_or_eq_of_mem_set hx with hx | rfl
  · exact ports x hx
  · exact hph

theorem stateInv_setFifo {f : Nat} {q : Fifo} (hq : FifoOk s.cfg f q) : StateInv (s.setFifo f q) := by
  obtain ⟨legal, nf, ns, np, fifos, slots, ports⟩ := h
  refine ⟨legal, by simpa using nf, ns, np, fun g hg => ?_, slots, ports⟩
  by_cases e : g = f
  · subst e
    rw [State.fifo_setFifo_self _ _ _ (nf ▸ hg)]
    exact hq
  · rw [State.fifo_setFifo_other _ _ _ _ e]
    exact fifos g hg

theorem stateInv_setSlot {sid : Nat} {sl : Slot} (hsl : SlotOk s.cfg sl) : StateInv (s.setSlot sid sl) := by
  obtain ⟨legal, nf, ns, np, fifos, slots, ports⟩ := h
  refine ⟨legal, nf, by simpa using ns, np, fifos, fun r hr => ?_, ports⟩
  by_cases e : r = sid
  · subst e
    rw [State.slot_setSlot_self _ _ _ (ns ▸ hr)]
    exact hsl
  · rw [State.slot_setSlot_other _ _ _ _ e]
    exact slots r hr

theorem stateInv_clearFifo {f : Nat} (hf : f < numFifo) : StateInv (clearFifo f s) := by
  obtain ⟨_, _, _, _, fifos, _, _⟩ := id h
  obtain ⟨legal, nf, ns, np, fifos', slots, ports⟩ := stateInv_setFifo h (fifoOk_emptied (fifos f hf))
  refine ⟨legal, nf, ns, by simpa using np, fifos', slots, fun x hx => ?_⟩
  obtain ⟨ph, hph, rfl⟩ := List.mem_map.mp hx
  cases ph with
  | blocked r =>
    rw [abortPhase]
    split
    · rfl
    · exact ports _ hph
  | idle | issued _ | done _ => exact ports _ hph

theorem stateInv_transfer {r : Request} (hr : requestOk s.cfg r = true) (ready : requestReady s r = true) :
    StateInv (transfer r s) := by
  obtain ⟨_, _, _, _, fifos, _, _⟩ := id h
  have hq := fifoOk_requestEffect (fifos _ (requestOk_fid_lt hr)) hr ready
  rw [transfer_eq]
  exact stateInv_setPort (stateInv_setFifo h hq) _ (decide_eq_true (unitsFit_requestPayload h hr))

end

/-- The reset state of a legal build has the invariant, whatever is scripted and drawn. -/
theorem stateInv_resetOf {cfg : Config} (legal : cfg.Legal) (agenda : List Event) (draws : Nat) :
    StateInv { State.resetOf cfg with agenda := agenda, draws := draws } := by
  refine ⟨legal, by simp [State.resetOf], by simp [State.resetOf], by simp [State.resetOf], fun f hf => ?_,
    fun sid _ => ?_, fun ph hph => ?_⟩
  · show FifoOk cfg f ((State.resetOf cfg).fifo f)
    rw [resetOf_fifo]
    exact fifoOk_reset legal hf
  · show SlotOk cfg ((State.resetOf cfg).slot sid)
    rw [resetOf_slot]
    exact slotOk_reset legal
  · obtain rfl := List.eq_of_mem_replicate hph
    rfl

/-- Settles O13: by the reset state of any legal build; test configuration T is legal. -/
theorem invariantHoldsAtReset : Obligations.InvariantHoldsAtReset := by
  unfold Obligations.InvariantHoldsAtReset
  exact ⟨fun _ agenda draws legal => stateInv_resetOf legal agenda draws, stateInv_resetOf (by decide) [] 0⟩

/-! ## Every step keeps the state invariant -/

/-- Decoding takes the payload as it is, or drops it (30_encoding.md R77, R78). -/
theorem payload_of_decode {c : Command} {b : Bool} {fid : BitVec 3} {n : BitVec 24} {u : List Frame}
    (h : decode c = .ok (.fifoWrite b fid n u)) : u = c.payload := by
  unfold decode decodeFields at h
  dsimp only at h
  repeat' split at h
  all_goals simp_all

/-- The request of a command that was sent and passes its checks is one of this build. -/
theorem requestOk_of_check {cfg : Config} {c : Command} {i : Instr} {b : Bool} {r : Request} (fits : c.fits cfg)
    (hd : decode c = .ok i) (check : checkCommand cfg i = none) (kind : transferOf i = some (b, r)) :
    requestOk cfg r = true := by
  obtain ⟨_, target, len, _⟩ := (check_eq_none_iff cfg i).mp check
  cases i with
  | fifoWrite b' fid n u =>
    cases kind
    obtain rfl := payload_of_decode hd
    simp only [targetExists, lengthMatches, decide_eq_true_eq, beq_iff_eq] at target len
    simpa only [requestOk, decide_eq_true_eq] using ⟨target, n.isLt, len, fits⟩
  | fifoRead b' fid n =>
    cases kind
    simp only [targetExists, decide_eq_true_eq] at target
    simpa only [requestOk, decide_eq_true_eq] using ⟨target, n.isLt⟩
  | _ => cases kind

theorem phaseOk_of_port {s : State} (h : StateInv s) {p : Nat} {ph : Phase} (hp : s.port? p = some ph) :
    phaseOk s.cfg ph = true := by
  obtain ⟨_, _, _, _, _, _, ports⟩ := h
  exact ports ph (List.mem_of_getElem? hp)

/-- A command that was sent to a state with the invariant leaves one with it. -/
theorem stateInv_exec {s t : State} (h : StateInv s) {c : Command} {i : Instr} (fits : c.fits s.cfg)
    (hd : decode c = .ok i) (hx : exec i s = .next t) : StateInv t := by
  obtain ⟨legal, _, _, _, fifos, slots, _⟩ := id h
  cases performed_of_exec hx with
  | refused _ | queried _ => exact stateInv_setPort h _ (phaseOk_done _ _ _)
  | transferred check kind ready => exact stateInv_transfer h (requestOk_of_check fits hd check kind) ready
  | waits check kind _ => exact stateInv_setPort h _ (requestOk_of_check fits hd check kind)
  | failed check kind _ =>
    have hf := fifos _ (requestOk_fid_lt (requestOk_of_check fits hd check kind))
    exact stateInv_setPort (stateInv_setFifo h (fifoOk_failureEffect hf _)) _ (phaseOk_done _ _ _)
  | cleared check kind =>
    obtain ⟨_, target, _, _⟩ := (check_eq_none_iff _ _).mp check
    subst kind
    exact stateInv_setPort (stateInv_clearFifo h (by simpa [targetExists] using target)) _ (phaseOk_done _ _ _)
  | onSlot check kind =>
    have hs := slots _ (slot_lt_of_check check kind)
    exact stateInv_setPort (stateInv_setSlot h (slotOk_slotEffect legal hs check)) _ (phaseOk_done _ _ _)

theorem stateInv_takeEvent {e : Event} {s t : State} (h : StateInv s) (ht : takeEvent e s = .next t) : StateInv t := by
  rcases takeEvent_cases e s t ht with ⟨rfl, _⟩ | ⟨p, c, _, _, fits, rfl⟩ | ⟨p, c, x, _, _, _, rfl⟩ |
    ⟨p, c, i, _, hp, hd, hx⟩ | ⟨p, r, _, hp, ready, rfl⟩ | ⟨p, r, _, _, rfl⟩ | ⟨_, rfl⟩
  · exact h
  · exact stateInv_setPort h _ (decide_eq_true fits)
  · exact stateInv_setPort (s := serve p s) h _ (phaseOk_done _ _ _)
  · have fits : c.fits s.cfg := of_decide_eq_true (phaseOk_of_port h hp)
    exact stateInv_exec (s := serve p s) h fits hd hx
  · exact stateInv_transfer (s := serve p s) h (phaseOk_of_port h hp) ready
  · exact stateInv_setPort h _ rfl
  · obtain ⟨legal, _⟩ := h
    exact stateInv_resetOf legal s.agenda s.draws

/-- Settles O12: StateInv reads neither the script nor the draws, and every event keeps it. -/
theorem invariantKeptByStep : Obligations.InvariantKeptByStep := by
  unfold Obligations.InvariantKeptByStep
  intro s t h hstep
  obtain ⟨a, d, ht⟩ := takeEvent_of_step hstep
  exact stateInv_takeEvent (s := { s with agenda := a, draws := d }) h ht

/-! ## Reachable states -/

/-- A reachable state is of its build and has the invariant. -/
theorem stateInv_of_reachable {cfg : Config} {s : State} (legal : cfg.Legal) (h : Reachable cfg s) :
    s.cfg = cfg ∧ StateInv s := by
  induction h with
  | reset agenda draws => exact ⟨rfl, stateInv_resetOf legal agenda draws⟩
  | step _ hstep ih => exact ⟨(step_cfg hstep).trans ih.1, invariantKeptByStep _ _ ih.2 hstep⟩

/-- Settles O14: from the state invariant. -/
theorem fifoInvariantsInReachableStates : Obligations.FifoInvariantsInReachableStates := by
  unfold Obligations.FifoInvariantsInReachableStates
  intro cfg s legal hreach f hf
  obtain ⟨rfl, _, _, _, _, fifos, _, _⟩ := stateInv_of_reachable legal hreach
  obtain ⟨count, head, tail, ring, _⟩ := fifos f hf
  exact ⟨Nat.zero_le _, count, head, tail, ring⟩

/-- Settles O15: from the state invariant. -/
theorem slotInvariantsInReachableStates : Obligations.SlotInvariantsInReachableStates := by
  unfold Obligations.SlotInvariantsInReachableStates
  intro cfg s legal hreach sid hsid
  obtain ⟨rfl, _, _, _, _, _, slots, _⟩ := stateInv_of_reachable legal hreach
  obtain ⟨cap, capMax, cur, damp2, gain, fb, damp, tapg, _⟩ := slots sid hsid
  exact ⟨cap, capMax, cur, damp2, gain, fb, damp, tapg⟩

/-! ## Units to read and room to write -/

/-- A query of an existing FIFO passes every check. -/
theorem check_fifoAvail {cfg : Config} {fid : BitVec 3} (hf : fid.toNat < numFifo) :
    checkCommand cfg (.fifoAvailRd fid) = none ∧ checkCommand cfg (.fifoAvailWr fid) = none := by
  simp [check_eq_none_iff, Instr.wellFormed, targetExists, lengthMatches, operandLegal, hf]

/-- A number up to the largest capacity is its result word. -/
theorem zext32_toNat_of_le_cap {cfg : Config} (legal : cfg.Legal) {f n : Nat} (hf : f < numFifo) (hn : n ≤ cfg.capOf f) :
    (zext32 n).toNat = n := by
  obtain ⟨_, hcap, _⟩ := legal
  have := (hcap f hf).2
  rw [BitVec.toNat_ofNat, Nat.mod_eq_of_lt (by omega)]

/-- Settles O20: a capacity fits a result word, so neither answer is cut. -/
theorem availabilitySumIsCapacity : Obligations.AvailabilitySumIsCapacity := by
  unfold Obligations.AvailabilitySumIsCapacity
  intro s fid h _ hf
  obtain ⟨legal, _, _, _, fifos, _, _⟩ := h
  obtain ⟨count, _⟩ := fifos _ hf
  obtain ⟨checkRd, checkWr⟩ := check_fifoAvail (cfg := s.cfg) hf
  refine ⟨_, _, exec_fifoAvailRd checkRd, exec_fifoAvailWr checkWr, ?_⟩
  rw [zext32_toNat_of_le_cap legal hf count, zext32_toNat_of_le_cap legal hf (Nat.sub_le _ _)]
  exact ⟨rfl, rfl, by omega⟩

/-! ## The counters -/

/-- The answer of a failed transfer. -/
abbrev wouldBlockPhase : Phase := .done ⟨.wouldBlock, 0#32, []⟩

/-- The two counters of a FIFO are as before. -/
abbrev SameCounters (q q' : Fifo) : Prop := q'.ovf = q.ovf ∧ q'.udr = q.udr

/-- Event `e` from `s` to `t` performs the non-blocking transfer `r`, which fails (10_state.md R26). -/
def FailedTransfer (e : Event) (s t : State) (r : Request) : Prop :=
  ∃ p c i, e = .perform p ∧ s.port? p = some (.issued c) ∧ decode c = .ok i ∧ transferOf i = some (false, r) ∧
    t.port? p = some wouldBlockPhase

theorem FailedTransfer.unique {e : Event} {s t : State} {r r' : Request} (h : FailedTransfer e s t r)
    (h' : FailedTransfer e s t r') : r = r' := by
  obtain ⟨p, c, i, he, hp, hd, hr, _⟩ := h
  obtain ⟨p', c', i', he', hp', hd', hr', _⟩ := h'
  cases he.symm.trans he'
  cases hp.symm.trans hp'
  cases hd.symm.trans hd'
  cases hr.symm.trans hr'
  rfl

theorem not_failedTransfer_of_ne_perform {e : Event} (he : ∀ p, e ≠ .perform p) {s t : State} (r : Request) :
    ¬FailedTransfer e s t r := fun ⟨p, _, _, hp, _⟩ => he p hp

theorem requestEffect_counters (c : Nat) (q : Fifo) (r : Request) : SameCounters q (requestEffect c q r) := by
  cases r <;> exact ⟨rfl, rfl⟩

theorem transfer_counters {s : State} {f : Nat} (hf : f < s.fifos.length) (r : Request) :
    SameCounters (s.fifo f) ((transfer r s).fifo f) := by
  by_cases e : f = r.fid
  · subst e
    rw [transfer_fifo hf]
    exact requestEffect_counters _ _ _
  · rw [transfer_fifo_other e]
    exact ⟨rfl, rfl⟩

theorem clearFifo_counters {s : State} {f : Nat} (hf : f < s.fifos.length) (g : Nat) :
    SameCounters (s.fifo f) ((clearFifo g s).fifo f) := by
  by_cases e : f = g
  · subst e
    rw [clearFifo_fifo hf]
    exact ⟨rfl, rfl⟩
  · rw [clearFifo_fifo_other e]
    exact ⟨rfl, rfl⟩

/-- A command counts an event only where it answers WOULDBLOCK, and then one on its own FIFO. -/
theorem exec_counters {i : Instr} {s t : State} {f : Nat} (hs : s.serving < s.ports.length) (hf : f < s.fifos.length)
    (h : exec i s = .next t) :
    (∃ r, transferOf i = some (false, r) ∧ t.port? s.serving = some wouldBlockPhase ∧
      t.fifo f = if r.fid = f then failureEffect (s.fifo f) r else s.fifo f) ∨
    (t.port? s.serving ≠ some wouldBlockPhase ∧ SameCounters (s.fifo f) (t.fifo f)) := by
  cases performed_of_exec h with
  | failed _ kind _ =>
    refine .inl ⟨_, kind, State.port_setPort_self _ _ _ hs, ?_⟩
    split
    · next e => subst e; exact State.fifo_setFifo_self _ _ _ hf
    · next e => exact State.fifo_setFifo_other _ _ _ _ (Ne.symm e)
  | refused check =>
    refine .inr ⟨?_, rfl, rfl⟩
    rw [State.port_setPort_self _ _ _ hs]
    rcases checkCommand_status check with rfl | rfl | rfl | rfl <;> simp
  | queried _ | waits _ _ _ | onSlot _ _ =>
    exact .inr ⟨by rw [State.port_setPort_self _ _ _ (by simpa using hs)]; simp, rfl, rfl⟩
  | transferred _ _ _ => exact .inr ⟨by rw [transfer_port hs]; simp, transfer_counters hf _⟩
  | cleared _ _ =>
    exact .inr ⟨by rw [State.port_setPort_self _ _ _ (by simpa using hs)]; simp, clearFifo_counters hf _⟩

/-- An event other than reset counts the failed transfer it is, on the FIFO of that transfer, and nothing else. -/
theorem takeEvent_counters {e : Event} {s t : State} {f : Nat} (hf : f < s.fifos.length) (hreset : e ≠ .reset)
    (h : takeEvent e s = .next t) :
    (∃ r, FailedTransfer e s t r ∧ t.fifo f = if r.fid = f then failureEffect (s.fifo f) r else s.fifo f) ∨
    ((∀ r, ¬FailedTransfer e s t r) ∧ SameCounters (s.fifo f) (t.fifo f)) := by
  rcases takeEvent_cases e s t h with ⟨rfl, _⟩ | ⟨p, c, rfl, _, _, rfl⟩ | ⟨p, c, x, rfl, _, hd, rfl⟩ |
    ⟨p, c, i, rfl, hp, hd, hx⟩ | ⟨p, r, rfl, _, _, rfl⟩ | ⟨p, r, rfl, _, rfl⟩ | ⟨he, _⟩
  · refine .inr ⟨?_, rfl, rfl⟩
    rintro r ⟨p, c, i, _, hp, _, _, ht⟩
    cases hp.symm.trans ht
  · exact .inr ⟨not_failedTransfer_of_ne_perform (by simp), rfl, rfl⟩
  · refine .inr ⟨?_, rfl, rfl⟩
    rintro r ⟨p', c', i, he, hp', hd', _⟩
    cases he
    cases ‹s.port? p = some (.issued c)›.symm.trans hp'
    cases hd.symm.trans hd'
  · have hs : p < s.ports.length := (List.getElem?_eq_some_iff.mp hp).1
    rcases exec_counters (s := serve p s) (f := f) hs hf hx with ⟨r, kind, ht, hq⟩ | ⟨ht, hq⟩
    · exact .inl ⟨r, ⟨p, c, i, rfl, hp, hd, kind, ht⟩, hq⟩
    · refine .inr ⟨?_, hq⟩
      rintro r ⟨p', _, _, he, _, _, _, ht'⟩
      cases he
      exact ht ht'
  · exact .inr ⟨not_failedTransfer_of_ne_perform (by simp), transfer_counters (s := serve p s) hf r⟩
  · exact .inr ⟨not_failedTransfer_of_ne_perform (by simp), rfl, rfl⟩
  · exact absurd he hreset

/-- OVF counts the failed writes of its FIFO, UDR the failed reads. -/
theorem takeEvent_ovf_udr {e : Event} {s t : State} {f : Nat} (hf : f < s.fifos.length) (hreset : e ≠ .reset)
    (h : takeEvent e s = .next t) :
    ((∃ n u, FailedTransfer e s t (.write f n u)) → (t.fifo f).ovf = satInc (s.fifo f).ovf) ∧
    ((¬∃ n u, FailedTransfer e s t (.write f n u)) → (t.fifo f).ovf = (s.fifo f).ovf) ∧
    ((∃ n, FailedTransfer e s t (.read f n)) → (t.fifo f).udr = satInc (s.fifo f).udr) ∧
    ((¬∃ n, FailedTransfer e s t (.read f n)) → (t.fifo f).udr = (s.fifo f).udr) := by
  rcases takeEvent_counters hf hreset h with ⟨r, hr, hq⟩ | ⟨noneFailed, ovf, udr⟩
  · have same {r'} (h' : FailedTransfer e s t r') : r' = r := h'.unique hr
    rw [hq]
    cases r with
    | write g n u =>
      refine ⟨?_, fun hno => ?_, ?_, fun _ => ?_⟩
      · rintro ⟨n', u', h'⟩
        cases same h'
        rw [Request.fid, if_pos rfl]
        rfl
      · rw [Request.fid, if_neg fun e : g = f => hno ⟨n, u, e ▸ hr⟩]
      · rintro ⟨n', h'⟩
        cases same h'
      · split <;> rfl
    | read g n =>
      refine ⟨?_, fun _ => ?_, ?_, fun hno => ?_⟩
      · rintro ⟨n', u', h'⟩
        cases same h'
      · split <;> rfl
      · rintro ⟨n', h'⟩
        cases same h'
        rw [Request.fid, if_pos rfl]
        rfl
      · rw [Request.fid, if_neg fun e : g = f => hno ⟨n, e ▸ hr⟩]
  · exact ⟨fun ⟨_, _, h'⟩ => absurd h' (noneFailed _), fun _ => ovf, fun ⟨_, h'⟩ => absurd h' (noneFailed _), fun _ => udr⟩

/-- The failed writes of a FIFO as commands. -/
theorem failedWrite_iff {e : Event} {s t : State} {f : Nat} :
    (∃ n u, FailedTransfer e s t (.write f n u)) ↔
      ∃ (fid : BitVec 3) (n : BitVec 24) (u : List Frame), fid.toNat = f ∧ ∃ p c, e = .perform p ∧
        s.port? p = some (.issued c) ∧ decode c = .ok (.fifoWrite false fid n u) ∧ t.port? p = some wouldBlockPhase := by
  constructor
  · rintro ⟨_, _, p, c, i, he, hp, hd, kind, ht⟩
    cases i with
    | fifoWrite b fid n u => cases kind; exact ⟨fid, n, _, rfl, p, c, he, hp, hd, ht⟩
    | _ => cases kind
  · rintro ⟨fid, n, u, rfl, p, c, he, hp, hd, ht⟩
    exact ⟨n.toNat, u, p, c, _, he, hp, hd, rfl, ht⟩

/-- The failed reads of a FIFO as commands. -/
theorem failedRead_iff {e : Event} {s t : State} {f : Nat} :
    (∃ n, FailedTransfer e s t (.read f n)) ↔
      ∃ (fid : BitVec 3) (n : BitVec 24), fid.toNat = f ∧ ∃ p c, e = .perform p ∧
        s.port? p = some (.issued c) ∧ decode c = .ok (.fifoRead false fid n) ∧ t.port? p = some wouldBlockPhase := by
  constructor
  · rintro ⟨_, p, c, i, he, hp, hd, kind, ht⟩
    cases i with
    | fifoRead b fid n => cases kind; exact ⟨fid, n, rfl, p, c, he, hp, hd, ht⟩
    | _ => cases kind
  · rintro ⟨fid, n, rfl, p, c, he, hp, hd, ht⟩
    exact ⟨n.toNat, p, c, _, he, hp, hd, rfl, ht⟩

theorem le_satInc (v : BitVec 32) : v.toNat ≤ (satInc v).toNat := by
  have := v.isLt
  rw [satInc_toNat]
  omega

/-- A counter that is kept or counted up does not decrease. -/
theorem toNat_le_of_counted {P : Prop} {v w : BitVec 32} (counted : P → w = satInc v) (kept : ¬P → w = v) :
    v.toNat ≤ w.toNat := by
  by_cases h : P
  · exact counted h ▸ le_satInc v
  · exact kept h ▸ le_rfl

/-- Settles O24: a step other than reset counts the failed transfer it is. -/
theorem countersCountFailuresOnly : Obligations.CountersCountFailuresOnly := by
  unfold Obligations.CountersCountFailuresOnly
  intro s t f h hstep hf
  obtain ⟨a, d, htake⟩ := takeEvent_of_step hstep
  obtain ⟨_, nf, _⟩ := h
  refine ⟨fun he => ?_, fun hreset => ?_⟩
  · rw [he] at htake
    obtain rfl := Host.Outcome.next.inj htake
    have hfifo : ∀ u : State, (resetStep u).fifo f = Fifo.reset := fun u => resetOf_fifo u.cfg f
    exact ⟨congrArg Fifo.ovf (hfifo _), congrArg Fifo.udr (hfifo _)⟩
  · obtain ⟨write, noWrite, read, noRead⟩ :=
      takeEvent_ovf_udr (s := { s with agenda := a, draws := d }) (nf ▸ hf) hreset htake
    rw [failedWrite_iff] at write noWrite
    rw [failedRead_iff] at read noRead
    exact ⟨fun hw => write hw ▸ satInc_toNat _, noWrite, fun hr => read hr ▸ satInc_toNat _, noRead,
      toNat_le_of_counted write noWrite, toNat_le_of_counted read noRead⟩

/-! ## States with the same view

Two such states differ in head, tail and storage of their FIFOs alone. Every operation asks a FIFO for its count, its
capacity, its counters or its oldest units, and those are the same. -/

/-- The counters after a failure depend on the counters before it alone. -/
theorem failureEffect_counters_congr {q q' : Fifo} (ovf : q.ovf = q'.ovf) (udr : q.udr = q'.udr) (r : Request) :
    (failureEffect q r).ovf = (failureEffect q' r).ovf ∧ (failureEffect q r).udr = (failureEffect q' r).udr := by
  cases r with
  | write _ _ _ => exact ⟨congrArg satInc ovf, udr⟩
  | read _ _ => exact ⟨ovf, congrArg satInc udr⟩

section

variable {s : State} {f : Nat} (hf : f < s.fifos.length)

include hf

theorem fifoContent_setFifo_failureEffect (r : Request) :
    fifoContent (s.setFifo f (failureEffect (s.fifo f) r)) f = fifoContent s f := by
  unfold fifoContent
  rw [State.fifo_setFifo_self _ _ _ hf]
  cases r <;> rfl

/-- A cleared FIFO is empty. -/
theorem fifoContent_clearFifo : fifoContent (clearFifo f s) f = [] := by
  refine List.eq_nil_of_length_eq_zero ?_
  rw [fifoContent_length, clearFifo_fifo hf]

end

section

variable {s s' : State} (v : SameView s s')

include v

theorem sameView_count {f : Nat} (hf : f < numFifo) : (s.fifo f).count = (s'.fifo f).count := by
  obtain ⟨_, _, _, _, _, _, fifos⟩ := v
  obtain ⟨content, _, _⟩ := fifos f hf
  rw [← fifoContent_length, content, fifoContent_length]

theorem sameView_slot (sid : Nat) : s.slot sid = s'.slot sid := by
  obtain ⟨_, slots, _⟩ := v
  rw [State.slot, slots]
  rfl

theorem sameView_port (p : Nat) : s.port? p = s'.port? p := by
  obtain ⟨_, _, ports, _⟩ := v
  rw [State.port?, ports]
  rfl

theorem sameView_requestReady {r : Request} (hr : r.fid < numFifo) : requestReady s r = requestReady s' r := by
  obtain ⟨cfg, _⟩ := id v
  cases r with
  | write f n u => rw [requestReady, requestReady, sameView_count (f := f) v hr, cfg]
  | read f n => rw [requestReady, requestReady, sameView_count (f := f) v hr]

/-- The numbers that queries answer with. -/
theorem sameView_infoWord {f : Nat} (hf : f < numFifo) (sel : InfoSel) : infoWord s f sel = infoWord s' f sel := by
  obtain ⟨cfg, _, _, _, _, _, fifos⟩ := v
  obtain ⟨_, ovf, udr⟩ := fifos f hf
  cases sel with
  | cap => rw [infoWord, infoWord, cfg]
  | ovf => exact ovf
  | udr => exact udr

/-- A ready transfer answers with the same units. -/
theorem sameView_requestPayload {r : Request} (hr : r.fid < numFifo) (ready : requestReady s r = true) :
    requestPayload s r = requestPayload s' r := by
  obtain ⟨_, _, _, _, _, _, fifos⟩ := id v
  cases r with
  | write _ _ _ => rfl
  | read f n =>
    obtain ⟨content, _⟩ := fifos f hr
    have hn : n ≤ (s.fifo f).count := of_decide_eq_true ready
    rw [requestPayload, requestPayload, oldestUnits_eq_take hn, content, oldestUnits_eq_take (sameView_count v hr ▸ hn)]

theorem sameView_serve (p : Nat) : SameView (serve p s) (serve p s') := by
  obtain ⟨cfg, slots, ports, _, agenda, draws, fifos⟩ := v
  exact ⟨cfg, slots, ports, rfl, agenda, draws, fifos⟩

theorem sameView_setPort (p : Nat) (ph : Phase) : SameView (s.setPort p ph) (s'.setPort p ph) := by
  obtain ⟨cfg, slots, ports, serving, agenda, draws, fifos⟩ := v
  exact ⟨cfg, slots, congrArg (List.set · p ph) ports, serving, agenda, draws, fifos⟩

/-- Both states serve the same port. -/
theorem sameView_setPort_serving (ph : Phase) : SameView (s.setPort s.serving ph) (s'.setPort s'.serving ph) := by
  obtain ⟨_, _, _, serving, _⟩ := id v
  rw [← serving]
  exact sameView_setPort v _ ph

theorem sameView_setSlot (sid : Nat) (sl : Slot) : SameView (s.setSlot sid sl) (s'.setSlot sid sl) := by
  obtain ⟨cfg, slots, ports, serving, agenda, draws, fifos⟩ := v
  exact ⟨cfg, congrArg (List.set · sid sl) slots, ports, serving, agenda, draws, fifos⟩

/-- Putting FIFOs that show the same. -/
theorem sameView_setFifo {f : Nat} {q q' : Fifo} (hf : f < s.fifos.length) (hf' : f < s'.fifos.length)
    (content : fifoContent (s.setFifo f q) f = fifoContent (s'.setFifo f q') f) (ovf : q.ovf = q'.ovf)
    (udr : q.udr = q'.udr) : SameView (s.setFifo f q) (s'.setFifo f q') := by
  obtain ⟨cfg, slots, ports, serving, agenda, draws, fifos⟩ := v
  refine ⟨cfg, slots, ports, serving, agenda, draws, fun g hg => ?_⟩
  by_cases e : g = f
  · subst e
    refine ⟨content, ?_⟩
    rw [State.fifo_setFifo_self _ _ _ hf, State.fifo_setFifo_self _ _ _ hf']
    exact ⟨ovf, udr⟩
  · have keep {u : State} (p : Fifo) : (u.setFifo f p).fifo g = u.fifo g := State.fifo_setFifo_other _ _ _ _ e
    obtain ⟨hcontent, hcounters⟩ := fifos g hg
    refine ⟨?_, by rwa [keep, keep]⟩
    rwa [fifoContent_congr (keep _) rfl, fifoContent_congr (keep _) rfl]

/-- Reset keeps nothing that the view leaves out. -/
theorem sameView_resetStep : resetStep s = resetStep s' := by
  obtain ⟨cfg, _, _, _, agenda, draws, _⟩ := v
  rw [resetStep, resetStep, cfg, agenda, draws]

theorem sameView_nextEvent : (nextEvent s).1 = (nextEvent s').1 ∧ SameView (nextEvent s).2 (nextEvent s').2 := by
  obtain ⟨cfg, slots, ports, serving, agenda, draws, fifos⟩ := v
  unfold nextEvent
  rw [← agenda, ← draws]
  split
  · exact ⟨rfl, cfg, slots, ports, serving, rfl, rfl, fifos⟩
  · exact ⟨rfl, cfg, slots, ports, serving, rfl, rfl, fifos⟩

end

/-- The same events are enabled. -/
theorem sameView_enabled {s s' : State} (h : StateInv s) (v : SameView s s') (e : Event) : enabled s e = enabled s' e := by
  obtain ⟨cfg, _⟩ := id v
  cases e with
  | issue p c => rw [enabled, enabled, sameView_port v, cfg]
  | perform p => rw [enabled, enabled, issuedCommand, issuedCommand, sameView_port v]
  | collect p => rw [enabled, enabled, hasResponse, hasResponse, sameView_port v]
  | reset => rfl
  | complete p =>
    rw [enabled, enabled, readyRequest, readyRequest, ← sameView_port v]
    split
    · next r hp =>
      have hr : requestOk s.cfg r = true := phaseOk_of_port h hp
      rw [sameView_requestReady v (requestOk_fid_lt hr)]
    all_goals rfl

/-! ### The operations that need the invariant of both states -/

section

variable {s s' : State} (h : StateInv s) (h' : StateInv s') (v : SameView s s')

include h h' v

theorem sameView_setFifo_failureEffect {r : Request} (hr : r.fid < numFifo) :
    SameView (s.setFifo r.fid (failureEffect (s.fifo r.fid) r)) (s'.setFifo r.fid (failureEffect (s'.fifo r.fid) r)) := by
  obtain ⟨_, nf, _⟩ := h
  obtain ⟨_, nf', _⟩ := h'
  obtain ⟨_, _, _, _, _, _, fifos⟩ := id v
  obtain ⟨content, ovf, udr⟩ := fifos _ hr
  obtain ⟨ovf', udr'⟩ := failureEffect_counters_congr ovf udr r
  refine sameView_setFifo v (nf ▸ hr) (nf' ▸ hr) ?_ ovf' udr'
  rwa [fifoContent_setFifo_failureEffect (nf ▸ hr), fifoContent_setFifo_failureEffect (nf' ▸ hr)]

theorem sameView_clearFifo {f : Nat} (hf : f < numFifo) : SameView (clearFifo f s) (clearFifo f s') := by
  obtain ⟨_, nf, _⟩ := h
  obtain ⟨_, nf', _⟩ := h'
  obtain ⟨_, _, ports, _, _, _, fifos⟩ := id v
  obtain ⟨_, ovf, udr⟩ := fifos f hf
  have content := (fifoContent_clearFifo (nf ▸ hf)).trans (fifoContent_clearFifo (nf' ▸ hf)).symm
  obtain ⟨cfg, slots, _, serving, agenda, draws, fifos'⟩ := sameView_setFifo v (nf ▸ hf) (nf' ▸ hf) content ovf udr
  exact ⟨cfg, slots, congrArg (List.map (abortPhase f)) ports, serving, agenda, draws, fifos'⟩

/-- A ready transfer appends the same units, or removes as many, on both sides, and answers with the same units. -/
theorem sameView_transfer {r : Request} (hr : requestOk s.cfg r = true) (ready : requestReady s r = true) :
    SameView (transfer r s) (transfer r s') := by
  have hf := requestOk_fid_lt hr
  have payload := sameView_requestPayload v hf ready
  obtain ⟨_, nf, _, _, inv, _, _⟩ := h
  obtain ⟨_, nf', _, _, inv', _, _⟩ := h'
  obtain ⟨cfg, _, _, _, _, _, fifos⟩ := id v
  obtain ⟨content, ovf, udr⟩ := fifos _ hf
  have ready' : requestReady s' r = true := sameView_requestReady v hf ▸ ready
  obtain ⟨keepOvf, keepUdr⟩ := requestEffect_counters (s.cfg.capOf r.fid) (s.fifo r.fid) r
  obtain ⟨keepOvf', keepUdr'⟩ := requestEffect_counters (s'.cfg.capOf r.fid) (s'.fifo r.fid) r
  rw [transfer_eq, transfer_eq, payload]
  refine sameView_setPort_serving (sameView_setFifo v (nf ▸ hf) (nf' ▸ hf) ?_ (by rw [keepOvf, ovf, keepOvf'])
    (by rw [keepUdr, udr, keepUdr'])) _
  have self := State.fifo_setFifo_self s r.fid (requestEffect (s.cfg.capOf r.fid) (s.fifo r.fid) r) (nf ▸ hf)
  have self' := State.fifo_setFifo_self s' r.fid (requestEffect (s'.cfg.capOf r.fid) (s'.fifo r.fid) r) (nf' ▸ hf)
  cases r with
  | write f n u =>
    simp only [requestOk, requestReady, decide_eq_true_eq] at hr ready ready'
    obtain ⟨_, _, rfl, _⟩ := hr
    exact (fifoContent_enqueue (inv f hf) ready self rfl).trans
      (content ▸ (fifoContent_enqueue (inv' f hf) ready' self' rfl).symm)
  | read f n => exact (fifoContent_dequeue self rfl).trans (content ▸ (fifoContent_dequeue self' rfl).symm)

theorem sameView_attempt (b : Bool) {r : Request} (hr : requestOk s.cfg r = true) :
    SameView (attempt b r s) (attempt b r s') := by
  have hf := requestOk_fid_lt hr
  unfold attempt
  rw [← sameView_requestReady v hf]
  split
  · exact sameView_transfer h h' v hr ‹_›
  · split
    · exact sameView_setPort_serving v _
    · rw [countFailure_eq, countFailure_eq]
      exact sameView_setPort_serving (sameView_setFifo_failureEffect h h' v hf) _

/-- A command gives the same response and leaves the same view. -/
theorem sameView_exec {c : Command} {i : Instr} {t t' : State} (fits : c.fits s.cfg) (hd : decode c = .ok i)
    (ht : exec i s = .next t) (ht' : exec i s' = .next t') : SameView t t' := by
  obtain ⟨cfg, _, _, _, _, _, _⟩ := id v
  have agree {u u' : State} (e : exec i s = .next u) (e' : exec i s' = .next u') (w : SameView u u') : SameView t t' := by
    cases e.symm.trans ht
    cases e'.symm.trans ht'
    exact w
  cases check : checkCommand s.cfg i with
  | some st => exact agree (exec_refused check) (exec_refused (cfg ▸ check)) (sameView_setPort_serving v _)
  | none =>
    have check' : checkCommand s'.cfg i = none := cfg ▸ check
    obtain ⟨_, target, _, _⟩ := (check_eq_none_iff _ _).mp check
    cases kind : slotOf i with
    | some sid =>
      refine agree (exec_slot kind check) (exec_slot kind check') ?_
      rw [← sameView_slot v, ← cfg]
      exact sameView_setPort_serving (sameView_setSlot v _ _) _
    | none =>
      cases i with
      | fifoWrite b fid n u =>
        exact agree (exec_fifoWrite check) (exec_fifoWrite check')
          (sameView_attempt h h' v b (requestOk_of_check fits hd check rfl))
      | fifoRead b fid n =>
        exact agree (exec_fifoRead check) (exec_fifoRead check')
          (sameView_attempt h h' v b (requestOk_of_check fits hd check rfl))
      | fifoAvailRd fid =>
        refine agree (exec_fifoAvailRd check) (exec_fifoAvailRd check') ?_
        rw [sameView_count v (of_decide_eq_true target)]
        exact sameView_setPort_serving v _
      | fifoAvailWr fid =>
        refine agree (exec_fifoAvailWr check) (exec_fifoAvailWr check') ?_
        rw [sameView_count v (of_decide_eq_true target), cfg]
        exact sameView_setPort_serving v _
      | fifoClear fid =>
        exact agree (exec_fifoClear check) (exec_fifoClear check')
          (sameView_setPort_serving (sameView_clearFifo h h' v (of_decide_eq_true target)) _)
      | fifoInfo fid sel =>
        refine agree (exec_fifoInfo check) (exec_fifoInfo check') ?_
        rw [sameView_infoWord v (of_decide_eq_true target)]
        exact sameView_setPort_serving v _
      | _ => cases kind

theorem sameView_takeEvent {e : Event} {t t' : State} (ht : takeEvent e s = .next t)
    (ht' : takeEvent e s' = .next t') : SameView t t' := by
  have agree {u' : State} (e' : takeEvent e s' = .next u') (w : SameView t u') : SameView t t' := by
    cases e'.symm.trans ht'
    exact w
  have port' {p : Nat} {ph : Phase} (hp : s.port? p = some ph) : s'.port? p = some ph := (sameView_port v p).symm.trans hp
  obtain ⟨cfg, _⟩ := id v
  rcases takeEvent_cases e s t ht with ⟨rfl, off⟩ | ⟨p, c, rfl, hp, fits, rfl⟩ | ⟨p, c, x, rfl, hp, hd, rfl⟩ |
    ⟨p, c, i, rfl, hp, hd, hx⟩ | ⟨p, r, rfl, hp, ready, rfl⟩ | ⟨p, r, rfl, hp, rfl⟩ | ⟨rfl, rfl⟩
  · exact agree (takeEvent_of_not_enabled (sameView_enabled h v e ▸ off)) v
  · exact agree (takeEvent_issue (port' hp) (cfg ▸ fits)) (sameView_setPort v p _)
  · exact agree (takeEvent_perform_error (port' hp) hd) (sameView_setPort_serving (sameView_serve v p) _)
  · rw [takeEvent_perform_ok (port' hp) hd] at ht'
    have fits : c.fits s.cfg := of_decide_eq_true (phaseOk_of_port h hp)
    exact sameView_exec (s := serve p s) (s' := serve p s') h h' (sameView_serve v p) fits hd hx ht'
  · have hr : requestOk s.cfg r = true := phaseOk_of_port h hp
    have ready' : requestReady s' r = true := sameView_requestReady v (requestOk_fid_lt hr) ▸ ready
    exact agree (takeEvent_complete (port' hp) ready')
      (sameView_transfer (s := serve p s) (s' := serve p s') h h' (sameView_serve v p) hr ready)
  · exact agree (takeEvent_collect (port' hp)) (sameView_setPort v p _)
  · cases ht'
    exact sameView_resetStep v ▸ ⟨rfl, rfl, rfl, rfl, rfl, rfl, fun _ _ => ⟨rfl, rfl, rfl⟩⟩

end

/-- Settles O25: both states take the same event, and every event keeps the view. -/
theorem ringShowsOnlyItsContent : Obligations.RingShowsOnlyItsContent := by
  unfold Obligations.RingShowsOnlyItsContent
  intro s s' t t' h h' v ht ht'
  obtain ⟨event, view⟩ := sameView_nextEvent v
  obtain ⟨a, d, e⟩ := nextEvent_state s
  obtain ⟨a', d', e'⟩ := nextEvent_state s'
  rw [step, e] at ht
  rw [step, e', ← event] at ht'
  rw [e, e'] at view
  exact sameView_takeEvent (s := { s with agenda := a, draws := d }) (s' := { s' with agenda := a', draws := d' })
    h h' view ht ht'

end Sys2Proof.Machine

/-! PROOFS. The memory family (20_memory.md): the perform step, packed units, what a slot command depends on, the order of
units in a FIFO, and the end of a blocked request in a fair run.

The two proofs about many steps each stand on one lemma about one step: a transfer that is ready appends to the content or
takes from its front (`exec_fifoWrite_ready`, `exec_fifoRead_ready`), and an event that ends a blocked request is its
completion, a clear or a reset (`takeEvent_blocked`). -/

namespace Sys2Proof.Machine

/-! ## A perform step (20_memory.md R55, R57) -/

/-- Settles O6: the event taken is the scripted one, and the command is issued on its port. -/
theorem stepPerformsTheDecodedCommand : Obligations.StepPerformsTheDecodedCommand := by
  unfold Obligations.StepPerformsTheDecodedCommand
  intro s p c i rest hagenda hport hdecode
  rw [step_of_agenda hagenda]
  exact takeEvent_perform_ok (s := { s with agenda := rest }) hport hdecode

/-! ## Packed units (20_memory.md R52) -/

section

variable (sw x : Nat) (xs : List Nat)

/-- A packed unit fits its channels, `sw` bits for each. -/
theorem packFrame_lt : packFrame sw xs < 2 ^ (sw * xs.length) := by
  induction xs with
  | nil => exact Nat.one_pos
  | cons x xs ih =>
    have hx : x % 2 ^ sw < 2 ^ sw := Nat.mod_lt _ (Nat.two_pow_pos sw)
    calc
      packFrame sw (x :: xs) < 2 ^ sw + 2 ^ sw * packFrame sw xs := Nat.add_lt_add_right hx _
      _ = 2 ^ sw * (packFrame sw xs + 1) := by rw [Nat.mul_succ, Nat.add_comm]
      _ ≤ 2 ^ sw * 2 ^ (sw * xs.length) := Nat.mul_le_mul_left _ ih
      _ = 2 ^ (sw * (x :: xs).length) := by rw [← Nat.pow_add, List.length_cons, Nat.mul_succ, Nat.add_comm]

theorem frameChannel_packFrame_zero : frameChannel sw 0 (packFrame sw (x :: xs)) = x % 2 ^ sw := by
  simp [frameChannel, packFrame]

/-- Past channel 0 stand the channels of the rest. -/
theorem frameChannel_packFrame_succ (c : Nat) :
    frameChannel sw (c + 1) (packFrame sw (x :: xs)) = frameChannel sw c (packFrame sw xs) := by
  have hpos : 0 < 2 ^ sw := Nat.two_pow_pos sw
  have tail : packFrame sw (x :: xs) / 2 ^ sw = packFrame sw xs := by
    rw [packFrame, Nat.add_mul_div_left _ _ hpos, Nat.div_eq_of_lt (Nat.mod_lt _ hpos), Nat.zero_add]
  rw [frameChannel, Nat.succ_mul, Nat.add_comm, Nat.pow_add, ← Nat.div_div_eq_div_mul, tail, frameChannel]

end

/-- Settles O58: by induction on the channels, each read by the two equations above. -/
theorem packedChannelsReadBack : Obligations.PackedChannelsReadBack := by
  unfold Obligations.PackedChannelsReadBack
  intro sw xs hxs
  refine ⟨packFrame_lt sw xs, ?_⟩
  induction xs with
  | nil => exact fun c h => absurd h (Nat.not_lt_zero c)
  | cons x xs ih =>
    obtain ⟨hx, hrest⟩ := List.forall_mem_cons.mp hxs
    intro c h
    cases c with
    | zero => exact (frameChannel_packFrame_zero sw x xs).trans (Nat.mod_eq_of_lt hx)
    | succ c => exact (frameChannel_packFrame_succ sw x xs c).trans (ih hrest c (Nat.lt_of_succ_lt_succ h))

/-! ## What a slot command depends on (20_memory.md R50, R55, R58) -/

/-- The answer of a slot command and the slot it leaves, from the build, the slot and the command alone. -/
def slotOutcome (cfg : Config) (sl : Slot) (i : Instr) : Response × Slot :=
  match checkCommand cfg i with
  | some st => (⟨st, 0#32, []⟩, sl)
  | none => (⟨.ok, (slotEffect cfg sl i).2, []⟩, (slotEffect cfg sl i).1)

/-- Performing a slot command has its `slotOutcome`. -/
theorem exec_slotOutcome {i : Instr} {sid : BitVec 8} {s t : State} (kind : slotOf i = some sid)
    (hslots : s.slots.length = s.cfg.numSlots) (hserving : s.serving < s.ports.length) (h : exec i s = .next t) :
    t.port? s.serving = some (.done (slotOutcome s.cfg (s.slot sid.toNat) i).1) ∧
      t.slot sid.toNat = (slotOutcome s.cfg (s.slot sid.toNat) i).2 := by
  cases check : checkCommand s.cfg i with
  | some st =>
    obtain rfl := Host.Outcome.next.inj ((exec_refused check).symm.trans h)
    simp only [slotOutcome, check]
    exact ⟨State.port_setPort_self _ _ _ hserving, rfl⟩
  | none =>
    obtain rfl := Host.Outcome.next.inj ((exec_slot kind check).symm.trans h)
    simp only [slotOutcome, check]
    exact ⟨State.port_setPort_self _ _ _ hserving,
      State.slot_setSlot_self _ _ _ (hslots ▸ slot_lt_of_check check kind)⟩

/-- Settles O53: both states have the outcome that their common build and slot give. -/
theorem slotCommandsDependOnlyOnTheirSlot : Obligations.SlotCommandsDependOnlyOnTheirSlot := by
  unfold Obligations.SlotCommandsDependOnlyOnTheirSlot
  rintro i sid s s' t t' ⟨v, k, reg, hi⟩ hcfg hslot hslots hslots' hserving hserving' h h'
  have kind : slotOf i = some sid := by
    simp only [List.mem_cons, List.not_mem_nil, or_false] at hi
    rcases hi with rfl | rfl | rfl | rfl | rfl | rfl | rfl | rfl | rfl <;> rfl
  obtain ⟨answer, slot⟩ := exec_slotOutcome kind hslots hserving h
  obtain ⟨answer', slot'⟩ := exec_slotOutcome kind hslots' hserving' h'
  rw [answer, answer', slot, slot', hcfg, hslot]
  exact ⟨rfl, rfl⟩

/-! ## The order of units in a FIFO (20_memory.md R59) -/

/-- `s` can serve transfers on FIFO `f`: it has the invariant, and the port being served and the FIFO exist. -/
structure ServesFifo (f : Nat) (s : State) : Prop where
  inv : StateInv s
  port : s.serving < s.ports.length
  fifo : f < numFifo

section

variable {f : Nat} {s : State} (h : ServesFifo f s)

include h

theorem ServesFifo.fifoOk : FifoOk s.cfg f (s.fifo f) := by
  obtain ⟨_, _, _, _, fifos, _, _⟩ := h.inv
  exact fifos f h.fifo

theorem ServesFifo.fifo_lt_length : f < s.fifos.length := by
  obtain ⟨_, nf, _⟩ := h.inv
  exact nf ▸ h.fifo

/-- A number of units up to the capacity fits the N field (00_scope.md R5). -/
theorem ServesFifo.ofNat_toNat {n : Nat} (hn : n ≤ s.cfg.capOf f) : (BitVec.ofNat 24 n).toNat = n := by
  obtain ⟨⟨_, hcap, _⟩, _⟩ := h.inv
  have := (hcap f h.fifo).2
  rw [BitVec.toNat_ofNat, Nat.mod_eq_of_lt (by omega)]

theorem ServesFifo.content_le : (fifoContent s f).length ≤ s.cfg.capOf f := by
  obtain ⟨count, _⟩ := h.fifoOk
  rwa [fifoContent_length]

/-- A ready transfer is served, and another can be after it. -/
theorem ServesFifo.transfer {r : Request} (hr : requestOk s.cfg r = true)
    (ready : requestReady s r = true) : ServesFifo f (transfer r s) where
  inv := stateInv_transfer h.inv hr ready
  port := by simpa using h.port
  fifo := h.fifo

end

section

variable {fid : BitVec 3} {s : State} (h : ServesFifo fid.toNat s)

include h

/-- A write with room for it answers OK and appends its units (40_fifo.md R100). -/
theorem exec_fifoWrite_ready (b : Bool) {u : List Frame} (units : unitsFit s.cfg u)
    (room : (fifoContent s fid.toNat).length + u.length ≤ s.cfg.capOf fid.toNat) :
    ∃ t, exec (.fifoWrite b fid (BitVec.ofNat 24 u.length) u) s = .next t ∧ ServesFifo fid.toNat t ∧
      t.cfg = s.cfg ∧ t.serving = s.serving ∧ t.port? s.serving = some (.done ⟨.ok, 0#32, []⟩) ∧
      fifoContent t fid.toNat = fifoContent s fid.toNat ++ u := by
  have hn : (BitVec.ofNat 24 u.length).toNat = u.length := h.ofNat_toNat (by omega)
  have check : checkCommand s.cfg (.fifoWrite b fid (BitVec.ofNat 24 u.length) u) = none :=
    (check_eq_none_iff _ _).mpr ⟨rfl, decide_eq_true h.fifo, by simp only [lengthMatches, hn, beq_self_eq_true], rfl⟩
  rw [fifoContent_length] at room
  have ready : requestReady s (.write fid.toNat u.length u) = true := decide_eq_true room
  have ok : requestOk s.cfg (.write fid.toNat u.length u) = true :=
    decide_eq_true ⟨h.fifo, hn ▸ (BitVec.ofNat 24 u.length).isLt, rfl, units⟩
  refine ⟨transfer (.write fid.toNat u.length u) s, ?_, h.transfer ok ready, transfer_cfg _ _, transfer_serving _ _,
    transfer_port h.port, fifoContent_enqueue h.fifoOk room (transfer_fifo h.fifo_lt_length) (transfer_cfg _ _)⟩
  rw [exec_fifoWrite check, hn, attempt, if_pos ready]

/-- A read of no more units than there are answers OK with the oldest of them and removes them (40_fifo.md R102). -/
theorem exec_fifoRead_ready (b : Bool) {n : Nat} (enough : n ≤ (fifoContent s fid.toNat).length) :
    ∃ t, exec (.fifoRead b fid (BitVec.ofNat 24 n)) s = .next t ∧ ServesFifo fid.toNat t ∧
      t.cfg = s.cfg ∧ t.serving = s.serving ∧
      t.port? s.serving = some (.done ⟨.ok, 0#32, (fifoContent s fid.toNat).take n⟩) ∧
      fifoContent t fid.toNat = (fifoContent s fid.toNat).drop n := by
  have hn : (BitVec.ofNat 24 n).toNat = n := h.ofNat_toNat (enough.trans h.content_le)
  have check : checkCommand s.cfg (.fifoRead b fid (BitVec.ofNat 24 n)) = none :=
    (check_eq_none_iff _ _).mpr ⟨rfl, decide_eq_true h.fifo, rfl, rfl⟩
  rw [fifoContent_length] at enough
  have ready : requestReady s (.read fid.toNat n) = true := decide_eq_true enough
  have ok : requestOk s.cfg (.read fid.toNat n) = true :=
    decide_eq_true ⟨h.fifo, hn ▸ (BitVec.ofNat 24 n).isLt⟩
  refine ⟨transfer (.read fid.toNat n) s, ?_, h.transfer ok ready, transfer_cfg _ _, transfer_serving _ _, ?_,
    fifoContent_dequeue (transfer_fifo h.fifo_lt_length) (transfer_cfg _ _)⟩
  · rw [exec_fifoRead check, hn, attempt, if_pos ready]
  · rw [transfer_port h.port, requestPayload, oldestUnits_eq_take enough]

end

/-- Commands performed back to back: the first, and the others from the state it leaves. -/
theorem execAll_cons {i : Instr} {s t : State} (h : exec i s = .next t) (is : List Instr) :
    execAll (i :: is) s = (t.port? s.serving :: (execAll is t).1, (execAll is t).2) := by
  simp only [execAll, h, after]

/-- Writes that fit together all answer OK and append their units in order. -/
theorem execAll_writes {fid : BitVec 3} (ws : List (List Frame)) {s : State} (h : ServesFifo fid.toNat s)
    (units : ∀ u ∈ ws, unitsFit s.cfg u)
    (room : (fifoContent s fid.toNat).length + (ws.map List.length).sum ≤ s.cfg.capOf fid.toNat) :
    ∃ t, execAll (ws.map fun u => Instr.fifoWrite false fid (BitVec.ofNat 24 u.length) u) s =
        (ws.map fun _ => some (.done ⟨.ok, 0#32, []⟩), t) ∧
      ServesFifo fid.toNat t ∧ fifoContent t fid.toNat = fifoContent s fid.toNat ++ ws.flatten := by
  induction ws generalizing s with
  | nil => exact ⟨s, rfl, h, by simp⟩
  | cons u ws ih =>
    obtain ⟨unitsHead, unitsTail⟩ := List.forall_mem_cons.mp units
    simp only [List.map_cons, List.sum_cons] at room ⊢
    obtain ⟨m, first, serves, cfg, serving, answer, content⟩ := exec_fifoWrite_ready h false unitsHead (by omega)
    obtain ⟨t, rest, serves', content'⟩ := ih serves (cfg ▸ unitsTail)
      (by rw [content, List.length_append, cfg]; omega)
    refine ⟨t, ?_, serves', by rw [content', content, List.append_assoc, List.flatten_cons]⟩
    rw [execAll_cons first, rest, answer]

/-- Reads of no more units than there are all answer OK and together return the oldest ones in order. -/
theorem execAll_reads {fid : BitVec 3} (ns : List Nat) {s : State} (h : ServesFifo fid.toNat s)
    (enough : ns.sum ≤ (fifoContent s fid.toNat).length) :
    ∃ us : List (List Frame), us.flatten = (fifoContent s fid.toNat).take ns.sum ∧ us.map List.length = ns ∧
      (execAll (ns.map fun n => Instr.fifoRead false fid (BitVec.ofNat 24 n)) s).1 =
        us.map fun u => some (.done ⟨.ok, 0#32, u⟩) := by
  induction ns generalizing s with
  | nil => exact ⟨[], by simp, rfl, rfl⟩
  | cons n ns ih =>
    simp only [List.map_cons, List.sum_cons] at enough ⊢
    obtain ⟨m, first, serves, cfg, serving, answer, content⟩ := exec_fifoRead_ready h false (n := n) (by omega)
    obtain ⟨us, units, lengths, rest⟩ := ih serves (by rw [content, List.length_drop]; omega)
    refine ⟨(fifoContent s fid.toNat).take n :: us, ?_, ?_, ?_⟩
    · rw [List.flatten_cons, units, content, List.take_add]
    · rw [List.map_cons, lengths, List.length_take_of_le (by omega)]
    · rw [execAll_cons first, rest, answer, List.map_cons]

/-- Settles O26: after the writes the content is what they wrote, and the reads take all of it from the front. -/
theorem unitsLeaveInTheOrderWritten : Obligations.UnitsLeaveInTheOrderWritten := by
  unfold Obligations.UnitsLeaveInTheOrderWritten
  intro s fid ws ns inv hserving hfid empty units room total
  obtain ⟨t, writes, serves, content⟩ := execAll_writes ws ⟨inv, hserving, hfid⟩ units (by simpa [empty] using room)
  rw [empty, List.nil_append] at content
  have all : ns.sum = (fifoContent t fid.toNat).length := by rw [content, List.length_flatten, total]
  obtain ⟨us, read, lengths, reads⟩ := execAll_reads ns serves all.le
  rw [all, List.take_length, content] at read
  simp only [writes, true_and]
  exact ⟨us, read, lengths, reads⟩

/-! ## Blocked requests in a fair run (20_memory.md R57, R61) -/

section

variable {s t : State} {p : Nat} {r : Request}

/-- A command performed on another port leaves a blocked request, unless it clears the FIFO of that request, which answers it
ABORTED (40_fifo.md R113). -/
theorem exec_blocked {i : Instr} (hp : s.port? p = some (.blocked r)) (hne : p ≠ s.serving) (h : exec i s = .next t) :
    t.port? p = some (.blocked r) ∨
    ∃ fid, i = .fifoClear fid ∧ fid.toNat = r.fid ∧ t.port? p = some (.done ⟨.aborted, 0#32, []⟩) := by
  cases performed_of_exec h with
  | refused _ | waits _ _ _ | failed _ _ _ | queried _ | onSlot _ _ =>
    exact .inl ((State.port_setPort_other _ _ _ _ hne).trans hp)
  | transferred _ _ _ => exact .inl ((transfer_port_other hne).trans hp)
  | @cleared fid _ kind =>
    rw [State.port_setPort_other _ _ _ _ hne, clearFifo_port, hp, Option.map_some, abortPhase]
    split
    · next hfid => exact .inr ⟨fid, kind, hfid.symm, rfl⟩
    · exact .inl rfl

/-- What an event does to a blocked request: nothing, or its completion, its abort by a clear of its FIFO, or its end by
reset (40_fifo.md R113). -/
theorem takeEvent_blocked {e : Event} (hlen : s.ports.length = s.cfg.numPorts) (hp : s.port? p = some (.blocked r))
    (h : takeEvent e s = .next t) :
    t.port? p = some (.blocked r) ∨
    (e = .complete p ∧ requestReady s r = true ∧ t.port? p = some (.done ⟨.ok, 0#32, requestPayload s r⟩)) ∨
    (∃ q c fid, e = .perform q ∧ s.port? q = some (.issued c) ∧ decode c = .ok (.fifoClear fid) ∧ fid.toNat = r.fid ∧
      t.port? p = some (.done ⟨.aborted, 0#32, []⟩)) ∨
    (e = .reset ∧ t.port? p = some .idle) := by
  have hlt : p < s.ports.length := (List.getElem?_eq_some_iff.mp hp).1
  have other {q : Nat} {ph : Phase} (hq : s.port? q = some ph) (hph : ph ≠ .blocked r) : p ≠ q := by
    rintro rfl
    exact hph (Option.some.inj (hq.symm.trans hp))
  rcases takeEvent_cases e s t h with ⟨rfl, _⟩ | ⟨q, c, _, hq, _, rfl⟩ | ⟨q, c, x, _, hq, _, rfl⟩ |
    ⟨q, c, i, he, hq, hd, hx⟩ | ⟨q, r', he, hq, ready, rfl⟩ | ⟨q, r', _, hq, rfl⟩ | ⟨he, rfl⟩
  · exact .inl hp
  · exact .inl ((State.port_setPort_other _ _ _ _ (other hq nofun)).trans hp)
  · exact .inl ((State.port_setPort_other _ _ _ _ (other hq nofun)).trans hp)
  · rcases exec_blocked (s := serve q s) hp (other hq nofun) hx with hb | ⟨fid, rfl, hfid, aborted⟩
    · exact .inl hb
    · exact .inr (.inr (.inl ⟨q, c, fid, he, hq, hd, hfid, aborted⟩))
  · by_cases hpq : p = q
    · subst hpq
      cases hq.symm.trans hp
      exact .inr (.inl ⟨he, ready, transfer_port (s := serve p s) hlt⟩)
    · exact .inl ((transfer_port_other (s := serve q s) hpq).trans hp)
  · exact .inl ((State.port_setPort_other _ _ _ _ (other hq nofun)).trans hp)
  · exact .inr (.inr (.inr ⟨he, resetOf_port (hlen ▸ hlt)⟩))

/-- After an event there are still as many ports as the build has. -/
theorem takeEvent_ports_length {e : Event} (hlen : s.ports.length = s.cfg.numPorts) (h : takeEvent e s = .next t) :
    t.ports.length = t.cfg.numPorts := by
  rcases takeEvent_portsMove h with ⟨same, _⟩ | ⟨_, rfl⟩
  · rw [same, hlen, takeEvent_cfg h]
  · simp

/-- A blocked request whose condition holds can be completed. -/
theorem enabled_complete (hp : s.port? p = some (.blocked r)) (ready : requestReady s r = true) :
    enabled s (.complete p) = true := by
  simp only [enabled, readyRequest, hp, ready, if_true, Option.isSome_some]

end

/-- The request that was blocked on port `p` has ended: it is answered OK or ABORTED, or a reset has made the port Idle. -/
def RequestEnded (s : State) (p : Nat) : Prop :=
  (∃ u, s.port? p = some (.done ⟨.ok, 0#32, u⟩)) ∨ s.port? p = some (.done ⟨.aborted, 0#32, []⟩) ∨
    s.port? p = some .idle

/-- `s` has as many ports as its build, and port `p` is blocked on `r`. -/
def WaitsOn (s : State) (p : Nat) (r : Request) : Prop :=
  s.ports.length = s.cfg.numPorts ∧ s.port? p = some (.blocked r)

section

variable {ρ : Nat → State} {ev : Nat → Option Event} {p : Nat} {r : Request} (run : IsRun ρ ev)

include run

/-- Over one moment of a run a request keeps waiting or ends. -/
theorem waitsOn_or_ended {m : Nat} (waits : WaitsOn (ρ m) p r) :
    WaitsOn (ρ (m + 1)) p r ∨ RequestEnded (ρ (m + 1)) p := by
  obtain ⟨hlen, hp⟩ := id waits
  have move := run m
  split at move
  · exact .inl (move ▸ waits)
  · have hlen' := takeEvent_ports_length hlen move.2
    rcases takeEvent_blocked hlen hp move.2 with hb | ⟨_, _, ok⟩ | ⟨_, _, _, _, _, _, _, aborted⟩ | ⟨_, idle⟩
    · exact .inl ⟨hlen', hb⟩
    · exact .inr (.inl ⟨_, ok⟩)
    · exact .inr (.inr (.inl aborted))
    · exact .inr (.inr (.inr idle))

/-- A request that never ends waits for ever. -/
theorem waitsOn_forever {n : Nat} (waits : WaitsOn (ρ n) p r)
    (never : ∀ m, n < m → ¬RequestEnded (ρ m) p) : ∀ m, n ≤ m → WaitsOn (ρ m) p r := by
  intro m hm
  induction m, hm using Nat.le_induction with
  | base => exact waits
  | succ m hm ih => exact (waitsOn_or_ended run ih).resolve_right (never _ (Nat.lt_succ_of_le hm))

/-- A moment of a run that completes the request of a port answers it OK. -/
theorem ended_of_complete {m : Nat} (waits : WaitsOn (ρ m) p r) (ready : requestReady (ρ m) r = true)
    (he : ev m = some (.complete p)) : RequestEnded (ρ (m + 1)) p := by
  obtain ⟨_, hp⟩ := waits
  have move := run m
  rw [he] at move
  have hnext : transfer r (serve p (ρ m)) = ρ (m + 1) :=
    Host.Outcome.next.inj ((takeEvent_complete hp ready).symm.trans move.2)
  exact .inl ⟨_, hnext ▸ transfer_port (s := serve p (ρ m)) (List.getElem?_eq_some_iff.mp hp).1⟩

end

/-- Settles O32: if the request never ended it would wait for ever, so its completion would stay enabled, and fairness would
take it. -/
theorem fairRunsEndReadyRequests : Obligations.FairRunsEndReadyRequests := by
  unfold Obligations.FairRunsEndReadyRequests
  intro ρ ev p n r run fair hlen hp ready
  by_contra notEnded
  have never : ∀ m, n < m → ¬RequestEnded (ρ m) p := fun m hm ended => notEnded ⟨m, hm, ended⟩
  have waits := waitsOn_forever run ⟨hlen, hp⟩ never
  obtain ⟨m, hm, taken⟩ := fair p (.complete p) (by simp) n fun m hm => enabled_complete (waits m hm).2 (ready m hm)
  exact never (m + 1) (Nat.lt_succ_of_le hm) (ended_of_complete run (waits m hm) (ready m hm) taken)

end Sys2Proof.Machine

/-! PROOFS. The encoding family (30_encoding.md): the decoder and the encoder are inverse, every bit of a command word counts,
and the words with no command are those of R81.

Two facts carry the family. A word and its fields determine each other, in either format (`formatF_fields`,
`formatS_fields` and the lemmas on the fields of a format). And the mask check of the decoder says of the fields what the
table of R81 says (`and_mustBeZero_iff`); nothing after it looks at a mask. -/

namespace Sys2Proof.Machine

/-! ## The fields of a format (30_encoding.md R72, R73, R74) -/

section

variable (op : BitVec 4) (b : Bool) (fid : BitVec 3) (n : BitVec 24) (sub : BitVec 4) (sid : BitVec 8) (imm : BitVec 16)
  (w : Word)

@[simp] theorem fieldOp_formatF : fieldOp (formatF op b fid n) = op := by
  apply BitVec.eq_of_toNat_eq
  rw [fieldOp_toNat, formatF_toNat]
  have := Bool.toNat_lt b
  omega

@[simp] theorem fieldB_formatF : fieldB (formatF op b fid n) = b := by
  have same : (fieldB (formatF op b fid n)).toNat = b.toNat := by
    rw [fieldB_toNat, formatF_toNat]
    have := Bool.toNat_lt b
    omega
  rw [← Bool.ofNat_toNat (fieldB _), same, Bool.ofNat_toNat]

@[simp] theorem fieldFid_formatF : fieldFid (formatF op b fid n) = fid := by
  apply BitVec.eq_of_toNat_eq
  rw [fieldFid_toNat, formatF_toNat]
  omega

@[simp] theorem fieldN_formatF : fieldN (formatF op b fid n) = n := by
  apply BitVec.eq_of_toNat_eq
  rw [fieldN_toNat, formatF_toNat]
  omega

@[simp] theorem fieldOp_formatS : fieldOp (formatS op sub sid imm) = op := by
  apply BitVec.eq_of_toNat_eq
  rw [fieldOp_toNat, formatS_toNat]
  omega

@[simp] theorem fieldSub_formatS : fieldSub (formatS op sub sid imm) = sub := by
  apply BitVec.eq_of_toNat_eq
  rw [fieldSub_toNat, formatS_toNat]
  omega

@[simp] theorem fieldSid_formatS : fieldSid (formatS op sub sid imm) = sid := by
  apply BitVec.eq_of_toNat_eq
  rw [fieldSid_toNat, formatS_toNat]
  omega

@[simp] theorem fieldImm_formatS : fieldImm (formatS op sub sid imm) = imm := by
  apply BitVec.eq_of_toNat_eq
  rw [fieldImm_toNat, formatS_toNat]
  omega

/-- The tap index is the low three bits of IMM16. -/
theorem fieldTap_eq : fieldTap w = Fin.ofNat 8 (fieldImm w).toNat := by
  apply Fin.ext
  rw [fieldTap_val, Fin.val_ofNat, fieldImm_toNat]
  omega

/-- The fields of format F lose no bit of a word. -/
theorem formatF_fields : formatF (fieldOp w) (fieldB w) (fieldFid w) (fieldN w) = w := by
  apply BitVec.eq_of_toNat_eq
  rw [formatF_toNat, fieldOp_toNat, fieldB_toNat, fieldFid_toNat, fieldN_toNat]
  omega

/-- The fields of format S lose no bit of a word. -/
theorem formatS_fields : formatS (fieldOp w) (fieldSub w) (fieldSid w) (fieldImm w) = w := by
  apply BitVec.eq_of_toNat_eq
  rw [formatS_toNat, fieldOp_toNat, fieldSub_toNat, fieldSid_toNat, fieldImm_toNat]
  omega

end

section

variable {w : Word}

/-- A word is the one of format F with its FIFO id and what its other fields are known to be. -/
theorem formatF_eq_of_fields {op : BitVec 4} {b : Bool} {n : BitVec 24} (hop : (fieldOp w).toNat = op.toNat)
    (hb : fieldB w = b) (hn : fieldN w = n) : formatF op b (fieldFid w) n = w := by
  rw [← BitVec.eq_of_toNat_eq hop, ← hb, ← hn, formatF_fields]

/-- A word is the one of format S with its slot id and what its other fields are known to be. -/
theorem formatS_eq_of_fields {op sub : BitVec 4} {imm : BitVec 16} (hop : (fieldOp w).toNat = op.toNat)
    (hsub : fieldSub w = sub) (himm : fieldImm w = imm) : formatS op sub (fieldSid w) imm = w := by
  rw [← BitVec.eq_of_toNat_eq hop, ← hsub, ← himm, formatS_fields]

/-! ## The must-be-zero masks (30_encoding.md R81 case 2) -/

/-- A mask of format F that takes in no opcode and no FIFO id tests B and N. -/
theorem and_formatF_eq_zero_iff (b : Bool) (n : BitVec 24) :
    w &&& formatF 0#4 b 0#3 n = 0#32 ↔ (fieldB w && b) = false ∧ fieldN w &&& n = 0#24 := by
  have zero : 0#32 = formatF 0#4 false 0#3 0#24 := by decide
  conv_lhs => rw [← formatF_fields w, formatF_and, BitVec.and_zero, BitVec.and_zero, zero]
  refine ⟨fun h => ⟨?_, ?_⟩, fun ⟨hb, hn⟩ => by rw [hb, hn]⟩
  · simpa using congrArg fieldB h
  · simpa using congrArg fieldN h

/-- A mask of format S that takes in no opcode and no slot id tests SUB and IMM16. -/
theorem and_formatS_eq_zero_iff (sub : BitVec 4) (imm : BitVec 16) :
    w &&& formatS 0#4 sub 0#8 imm = 0#32 ↔ fieldSub w &&& sub = 0#4 ∧ fieldImm w &&& imm = 0#16 := by
  have zero : 0#32 = formatS 0#4 0#4 0#8 0#16 := by decide
  conv_lhs => rw [← formatS_fields w, formatS_and, BitVec.and_zero, BitVec.and_zero, zero]
  refine ⟨fun h => ⟨?_, ?_⟩, fun ⟨hsub, himm⟩ => by rw [hsub, himm]⟩
  · simpa using congrArg fieldSub h
  · simpa using congrArg fieldImm h

/-- Bits 15 to 3 of IMM16 are zero where it is a tap index. -/
theorem and_tapMask_eq_zero_iff (imm : BitVec 16) : imm &&& 0xFFF8#16 = 0#16 ↔ imm.toNat < 8 := by
  have low : (imm &&& 7#16).toNat = imm.toNat % 8 := by
    rw [BitVec.toNat_and]
    exact Nat.and_two_pow_sub_one_eq_mod _ 3
  have split : imm = imm &&& 7#16 ||| imm &&& 0xFFF8#16 := by
    rw [← BitVec.and_or_distrib_left]
    exact BitVec.and_allOnes.symm
  constructor
  · intro high
    rw [high, BitVec.or_zero] at split
    rw [split, low]
    exact Nat.mod_lt _ (by decide)
  · intro small
    have : imm &&& 7#16 = imm := BitVec.eq_of_toNat_eq (low.trans (Nat.mod_eq_of_lt small))
    rw [← this, BitVec.and_assoc]
    exact BitVec.and_zero

/-- The bound of IMM16 in a SLOT_WR or SLOT_RD: the tap index of the two registers that have taps, else nothing
(30_encoding.md R73, R81 case 2). -/
def immBound (sub : BitVec 4) : Nat := if sub = 6#4 ∨ sub = 7#4 then 8 else 1

theorem lt_immBound_iff (sub : BitVec 4) (imm : BitVec 16) :
    imm.toNat < immBound sub ↔ imm.toNat < 8 ∧ (imm.toNat = 0 ∨ sub.toNat = 6 ∨ sub.toNat = 7) := by
  have tapped : (sub = 6#4 ∨ sub = 7#4) ↔ (sub.toNat = 6 ∨ sub.toNat = 7) :=
    or_congr BitVec.toNat_inj.symm BitVec.toNat_inj.symm
  simp only [immBound, tapped]
  split <;> omega

/-- The must-be-zero bits of a word are zero: the table of 30_encoding.md R81 case 2, said of the fields. -/
def ReservedZero (w : Word) : Prop :=
  match (fieldOp w).toNat with
  | 3 | 4 | 5 => fieldB w = false ∧ fieldN w = 0#24
  | 6 => fieldB w = false
  | 7 | 9 | 10 | 11 | 12 | 15 => fieldSub w = 0#4 ∧ fieldImm w = 0#16
  | 8 => fieldSub w = 0#4
  | 13 | 14 => (fieldImm w).toNat < immBound (fieldSub w)
  | _ => True

/-- The mask of B and N. -/
theorem and_maskBN_iff : w &&& 0x08FFFFFF#32 = 0#32 ↔ fieldB w = false ∧ fieldN w = 0#24 := by
  have allN : fieldN w &&& 0xFFFFFF#24 = fieldN w := BitVec.and_allOnes
  rw [show 0x08FFFFFF#32 = formatF 0#4 true 0#3 0xFFFFFF#24 by decide, and_formatF_eq_zero_iff, allN, Bool.and_true]

/-- The mask of B. -/
theorem and_maskB_iff : w &&& 0x08000000#32 = 0#32 ↔ fieldB w = false := by
  rw [show 0x08000000#32 = formatF 0#4 true 0#3 0#24 by decide, and_formatF_eq_zero_iff, Bool.and_true, BitVec.and_zero]
  exact and_iff_left rfl

/-- The mask of SUB and IMM16. -/
theorem and_maskSubImm_iff : w &&& 0x0F00FFFF#32 = 0#32 ↔ fieldSub w = 0#4 ∧ fieldImm w = 0#16 := by
  have allSub : fieldSub w &&& 0xF#4 = fieldSub w := BitVec.and_allOnes
  have allImm : fieldImm w &&& 0xFFFF#16 = fieldImm w := BitVec.and_allOnes
  rw [show 0x0F00FFFF#32 = formatS 0#4 0xF#4 0#8 0xFFFF#16 by decide, and_formatS_eq_zero_iff, allSub, allImm]

/-- The mask of SUB. -/
theorem and_maskSub_iff : w &&& 0x0F000000#32 = 0#32 ↔ fieldSub w = 0#4 := by
  have allSub : fieldSub w &&& 0xF#4 = fieldSub w := BitVec.and_allOnes
  rw [show 0x0F000000#32 = formatS 0#4 0xF#4 0#8 0#16 by decide, and_formatS_eq_zero_iff, allSub, BitVec.and_zero]
  exact and_iff_left rfl

/-- The mask of a SLOT_WR or SLOT_RD bounds IMM16. -/
theorem and_slotAccessMask_iff (sub : BitVec 4) :
    w &&& slotAccessMask sub = 0#32 ↔ (fieldImm w).toNat < immBound sub := by
  have allImm : fieldImm w &&& 0xFFFF#16 = fieldImm w := BitVec.and_allOnes
  rw [slotAccessMask, immBound]
  split
  · rw [show 0x0000FFF8#32 = formatS 0#4 0#4 0#8 0xFFF8#16 by decide, and_formatS_eq_zero_iff, and_tapMask_eq_zero_iff,
      BitVec.and_zero]
    exact and_iff_right rfl
  · rw [show 0x0000FFFF#32 = formatS 0#4 0#4 0#8 0xFFFF#16 by decide, and_formatS_eq_zero_iff, allImm, BitVec.and_zero,
      Nat.lt_one_iff]
    exact (and_iff_right rfl).trans BitVec.toNat_inj.symm

/-- The decoder's mask check tests the fields the table of R81 names. -/
theorem and_mustBeZero_iff : w &&& mustBeZero w = 0#32 ↔ ReservedZero w := by
  unfold mustBeZero
  split
  case h_1 hop | h_2 hop | h_3 hop => simp only [ReservedZero, hop, and_maskBN_iff]
  case h_4 hop => simp only [ReservedZero, hop, and_maskB_iff]
  case h_5 hop | h_6 hop | h_7 hop | h_8 hop | h_9 hop | h_10 hop => simp only [ReservedZero, hop, and_maskSubImm_iff]
  case h_11 hop => simp only [ReservedZero, hop, and_maskSub_iff]
  case h_12 hop | h_13 hop => simp only [ReservedZero, hop, and_slotAccessMask_iff]
  case h_14 => simp [ReservedZero, *]

end

/-! ## The tables of selectors and registers (40_fifo.md R107, 30_encoding.md R76) -/

@[simp] theorem infoSelOf_code (sel : InfoSel) : infoSelOf sel.code = some sel := by cases sel <;> rfl

theorem code_of_infoSelOf {n : BitVec 24} {sel : InfoSel} (h : infoSelOf n = some sel) : sel.code = n := by
  unfold infoSelOf at h
  split at h <;> cases h
  all_goals exact BitVec.eq_of_toNat_eq (Eq.symm ‹_›)

theorem infoSelOf_eq_none_iff (n : BitVec 24) : infoSelOf n = none ↔ 3 ≤ n.toNat := by
  unfold infoSelOf
  split <;> simp only [reduceCtorEq, false_iff, true_iff, imp_false] at * <;> omega

/-- SUB and IMM16 of a register name it. -/
@[simp] theorem slotRegOf_formatS (op : BitVec 4) (sid : BitVec 8) (reg : SlotReg) :
    slotRegOf reg.sub (fieldTap (formatS op reg.sub sid reg.imm)) = some reg := by
  rw [fieldTap_eq, fieldImm_formatS]
  cases reg with
  | tapd t | tapg t => revert t; decide
  | _ => rfl

theorem sub_of_slotRegOf {sub : BitVec 4} {t : Fin 8} {reg : SlotReg} (h : slotRegOf sub t = some reg) :
    reg.sub = sub := by
  unfold slotRegOf at h
  split at h <;> cases h
  all_goals exact BitVec.eq_of_toNat_eq (Eq.symm ‹_›)

theorem slotRegOf_eq_none_iff (sub : BitVec 4) (t : Fin 8) : slotRegOf sub t = none ↔ 9 ≤ sub.toNat := by
  unfold slotRegOf
  split <;> simp only [reduceCtorEq, false_iff, true_iff, imp_false] at * <;> omega

/-- A word whose SUB and tap index name a register has the SUB and, within its bound, the IMM16 of that register. -/
theorem fields_of_slotRegOf {w : Word} {reg : SlotReg} (h : slotRegOf (fieldSub w) (fieldTap w) = some reg)
    (bound : (fieldImm w).toNat < immBound (fieldSub w)) : fieldSub w = reg.sub ∧ fieldImm w = reg.imm := by
  have hsub := (sub_of_slotRegOf h).symm
  refine ⟨hsub, BitVec.eq_of_toNat_eq ?_⟩
  rw [hsub] at h bound
  rw [fieldTap_eq] at h
  cases reg with
  | tapd t | tapg t =>
    obtain rfl : Fin.ofNat 8 (fieldImm w).toNat = t := by simpa [slotRegOf, SlotReg.sub] using h
    have small : (fieldImm w).toNat < 8 := bound
    simp only [SlotReg.imm, Fin.val_ofNat, BitVec.toNat_ofNat]
    omega
  | _ => exact Nat.lt_one_iff.mp bound

/-- The read-only registers are those of SUB 4, 5 and 8 (43_slot_config.md R186). -/
theorem writable_eq_false_iff (reg : SlotReg) :
    reg.writable = false ↔ reg.sub.toNat = 4 ∨ reg.sub.toNat = 5 ∨ reg.sub.toNat = 8 := by
  cases reg <;> simp [SlotReg.writable, SlotReg.sub]

/-! ## The decoder and the encoder -/

/-- What a command takes from the operand word and the payload is what `i` carries of them (30_encoding.md R75, R77, R78). -/
def Reads (opd : Word) (u : List Frame) : Instr → Prop
  | .fifoWrite _ _ _ payload => payload = u
  | .dlWrite _ v | .dlReadi _ v | .apStep _ v | .combStep _ v | .erStep _ v | .slotWr _ _ v => v = opd
  | .fifoRead _ _ _ | .fifoAvailRd _ | .fifoAvailWr _ | .fifoClear _ | .fifoInfo _ _ => True
  | .dlRead _ _ | .slotRd _ _ | .slotClr _ => True

theorem reads_encode (i : Instr) : Reads (encodeOperand i) (encodePayload i) i := by
  cases i <;> trivial

theorem imm_lt_immBound (reg : SlotReg) : reg.imm.toNat < immBound reg.sub := by
  cases reg with
  | tapd t | tapg t => revert t; decide
  | _ => decide

/-- The encoder writes no reserved bit. -/
theorem reservedZero_encodeWord (i : Instr) : ReservedZero (encodeWord i) := by
  cases i with
  | slotWr sid reg | slotRd sid reg => simpa [encodeWord, ReservedZero] using imm_lt_immBound reg
  | _ => simp [encodeWord, ReservedZero]

theorem decode_of_reservedZero {c : Command} (h : ReservedZero c.cmd) : decode c = decodeFields c :=
  if_pos (and_mustBeZero_iff.mpr h)

theorem decode_of_not_reservedZero {c : Command} (h : ¬ReservedZero c.cmd) : decode c = .error .reservedBits :=
  if_neg (mt and_mustBeZero_iff.mp h)

/-- The fields of the word of a well-formed instruction name that instruction. -/
theorem decodeFields_encodeWord {i : Instr} {opd : Word} {u : List Frame} (wf : i.wellFormed = true)
    (reads : Reads opd u i) : decodeFields ⟨encodeWord i, opd, u⟩ = .ok i := by
  cases i with
  | slotWr sid reg v =>
    have writable : reg.writable = true := wf
    cases reads
    simp [decodeFields, encodeWord, writable]
  | _ => cases reads; simp [decodeFields, encodeWord]

/-- The word of a well-formed instruction decodes to it with any operand and payload it does not read. -/
theorem decode_encodeWord {i : Instr} {opd : Word} {u : List Frame} (wf : i.wellFormed = true) (reads : Reads opd u i) :
    decode ⟨encodeWord i, opd, u⟩ = .ok i :=
  (decode_of_reservedZero (c := ⟨encodeWord i, opd, u⟩) (reservedZero_encodeWord i)).trans
    (decodeFields_encodeWord wf reads)

/-- Settles O2: the encoder writes no reserved bit, and each field of its word reads back. -/
theorem decodeEncodeAgree : Obligations.DecodeEncodeAgree := by
  unfold Obligations.DecodeEncodeAgree
  exact fun i wf => decode_encodeWord wf (reads_encode i)

/-- An instruction the fields of a word name, with its reserved bits zero, is well formed and has that word. -/
theorem encodeWord_of_decodeFields {c : Command} {i : Instr} (zero : ReservedZero c.cmd) (h : decodeFields c = .ok i) :
    i.wellFormed = true ∧ encodeWord i = c.cmd := by
  unfold decodeFields at h
  dsimp only at h
  split at h
  case h_1 hop | h_2 hop =>
    cases h
    exact ⟨rfl, formatF_eq_of_fields hop rfl rfl⟩
  case h_3 hop | h_4 hop | h_5 hop =>
    simp only [ReservedZero, hop] at zero
    obtain ⟨hb, hn⟩ := zero
    cases h
    exact ⟨rfl, formatF_eq_of_fields hop hb hn⟩
  case h_6 hop =>
    simp only [ReservedZero, hop] at zero
    split at h
    case h_2 => cases h
    case h_1 sel hsel =>
      cases h
      exact ⟨rfl, formatF_eq_of_fields hop zero (code_of_infoSelOf hsel).symm⟩
  case h_8 hop =>
    simp only [ReservedZero, hop] at zero
    cases h
    exact ⟨rfl, formatS_eq_of_fields hop zero rfl⟩
  case h_7 hop | h_9 hop | h_10 hop | h_11 hop | h_12 hop | h_15 hop =>
    simp only [ReservedZero, hop] at zero
    obtain ⟨hsub, himm⟩ := zero
    cases h
    exact ⟨rfl, formatS_eq_of_fields hop hsub himm⟩
  case h_13 hop =>
    simp only [ReservedZero, hop] at zero
    split at h
    case h_2 => cases h
    case h_1 reg hreg =>
      split at h
      case isFalse => cases h
      case isTrue writable =>
        cases h
        obtain ⟨hsub, himm⟩ := fields_of_slotRegOf hreg zero
        exact ⟨writable, formatS_eq_of_fields hop hsub himm⟩
  case h_14 hop =>
    simp only [ReservedZero, hop] at zero
    split at h
    case h_2 => cases h
    case h_1 reg hreg =>
      cases h
      obtain ⟨hsub, himm⟩ := fields_of_slotRegOf hreg zero
      exact ⟨rfl, formatS_eq_of_fields hop hsub himm⟩
  case h_16 => cases h

/-- Settles O3: a word that decodes has its reserved bits zero, so its fields are all there is of it. -/
theorem decodedWordIsItsEncoding : Obligations.DecodedWordIsItsEncoding := by
  unfold Obligations.DecodedWordIsItsEncoding
  intro c i h
  by_cases zero : ReservedZero c.cmd
  · exact encodeWord_of_decodeFields zero (decode_of_reservedZero zero ▸ h)
  · cases (decode_of_not_reservedZero zero).symm.trans h

/-! ## The illegal words (30_encoding.md R81) -/

/-- The fields of the word name no command: cases 1, 3, 4 and 5 of 30_encoding.md R81. -/
def NamesNoCommand (w : Word) : Prop :=
  (fieldOp w).toNat = 0 ∨
  ((fieldOp w).toNat = 6 ∧ 3 ≤ (fieldN w).toNat) ∨
  (((fieldOp w).toNat = 13 ∨ (fieldOp w).toNat = 14) ∧ 9 ≤ (fieldSub w).toNat) ∨
  ((fieldOp w).toNat = 13 ∧ ((fieldSub w).toNat = 4 ∨ (fieldSub w).toNat = 5 ∨ (fieldSub w).toNat = 8))

/-- R81 on a word read as a number is its case 2 on the must-be-zero fields and the other four cases on the rest. -/
theorem r81Illegal_iff (w : Word) : R81Illegal w.toNat ↔ ¬ReservedZero w ∨ NamesNoCommand w := by
  have subValue : w.toNat / 2 ^ 24 % 2 ^ 4 = (fieldSub w).toNat := (fieldSub_toNat w).symm
  unfold R81Illegal NamesNoCommand ReservedZero
  dsimp only
  rw [← fieldOp_toNat, ← fieldB_toNat, ← fieldN_toNat, subValue, ← fieldImm_toNat]
  clear subValue
  generalize (fieldOp w).toNat = op
  split
  case h_14 => simp_all
  case h_12 | h_13 =>
    simp [lt_immBound_iff]
    omega
  all_goals simp [← Bool.toNat_eq_zero, ← BitVec.toNat_inj, imp_iff_not_or]

/-- The fields of a word name no command exactly in those cases. -/
theorem decodeFields_error_iff (c : Command) : (∃ e, decodeFields c = .error e) ↔ NamesNoCommand c.cmd := by
  unfold decodeFields NamesNoCommand
  dsimp only
  split
  case h_6 hop =>
    rw [hop, ← infoSelOf_eq_none_iff]
    cases infoSelOf (fieldN c.cmd) <;> simp
  case h_13 hop =>
    rw [hop, ← slotRegOf_eq_none_iff _ (fieldTap c.cmd)]
    cases h : slotRegOf (fieldSub c.cmd) (fieldTap c.cmd) with
    | none => simp
    | some reg =>
      rw [← sub_of_slotRegOf h, ← writable_eq_false_iff]
      cases writable : reg.writable <;> simp [writable]
  case h_14 hop =>
    rw [hop, ← slotRegOf_eq_none_iff _ (fieldTap c.cmd)]
    cases slotRegOf (fieldSub c.cmd) (fieldTap c.cmd) <;> simp
  case h_16 =>
    simp only [imp_false] at *
    have := (fieldOp c.cmd).isLt
    exact iff_of_true ⟨_, rfl⟩ (.inl (by omega))
  all_goals exact iff_of_false nofun (by omega)

theorem decode_error_iff (c : Command) : (∃ e, decode c = .error e) ↔ R81Illegal c.cmd.toNat := by
  rw [r81Illegal_iff, ← decodeFields_error_iff]
  by_cases zero : ReservedZero c.cmd
  · rw [decode_of_reservedZero zero]
    exact (or_iff_right (not_not_intro zero)).symm
  · exact iff_of_true ⟨_, decode_of_not_reservedZero zero⟩ (.inl zero)

/-- Settles O4: by the two checks of the decoder, the mask and the fields; a perform step of a word that does not decode is
`refuse .illegal`. -/
theorem illegalWordsAreRefused : Obligations.IllegalWordsAreRefused := by
  unfold Obligations.IllegalWordsAreRefused
  refine ⟨fun c => (decode_error_iff c).symm, fun s p c rest hagenda hport illegal => ?_⟩
  obtain ⟨e, hdecode⟩ := (decode_error_iff c).mpr illegal
  rw [step_of_agenda hagenda]
  exact takeEvent_perform_error (s := { s with agenda := rest }) hport hdecode

/-! ## Words and pseudo-commands of the spec -/

/-- Settles O1: each word is the encoding of its command, with an operand word and payload that the command reads or ignores. -/
theorem specWordsDecode : Obligations.SpecWordsDecode := by
  unfold Obligations.SpecWordsDecode
  intro u
  have written {i : Instr} {w opd : Word} (hw : encodeWord i = w) (wf : i.wellFormed = true) (reads : Reads opd u i) :
      decode ⟨w, opd, u⟩ = .ok i := hw ▸ decode_encodeWord wf reads
  exact ⟨written rfl rfl rfl, written rfl rfl rfl, written rfl rfl trivial, written rfl rfl trivial,
    written rfl rfl trivial, written rfl rfl trivial, written rfl rfl trivial, written rfl rfl rfl,
    written rfl rfl trivial, written rfl rfl rfl, written rfl rfl rfl, written rfl rfl rfl, written rfl rfl rfl,
    written rfl rfl rfl, written rfl rfl trivial, written rfl rfl trivial⟩

/-- Settles O5: a pseudo-command assembles to the encoding of the command it stands for, which is well formed. -/
theorem pseudoCommandsExpand : Obligations.PseudoCommandsExpand := by
  unfold Obligations.PseudoCommandsExpand
  have decodes (l : AsmLine) (wf : (expandLine l).wellFormed = true) : decode (assemble l) = .ok (expandLine l) :=
    decodeEncodeAgree (expandLine l) wf
  exact ⟨fun fid => decodes (.fifoCap fid) rfl, fun fid => decodes (.fifoOvf fid) rfl,
    fun fid => decodes (.fifoUdr fid) rfl, fun sid d => decodes (.slotSetcap sid d) rfl,
    fun sid x => decodes (.dlDelay sid x) rfl⟩

end Sys2Proof.Machine

/-! PROOFS. The FIFO family (40_fifo.md): what a FIFO command answers and what it leaves unchanged, that no transfer is
partial, and how a blocked request ends.

A FIFO_WRITE or FIFO_READ that passes its checks is one `attempt` of its request: the whole transfer where its condition
holds (`fifoContent_transfer_write`, `fifoContent_transfer_read`), and a FIFO whose ring is as before where it does not
(`attempt_notReady_ring`). -/

namespace Sys2Proof.Machine

/-! ## FIFO commands that pass their checks -/

section

variable {cfg : Config} {fid : BitVec 3} (hf : fid.toNat < numFifo)

include hf

theorem check_fifoWrite (b : Bool) {n : BitVec 24} {u : List Frame} (hu : u.length = n.toNat) :
    checkCommand cfg (.fifoWrite b fid n u) = none :=
  (check_eq_none_iff _ _).mpr ⟨rfl, decide_eq_true hf, beq_iff_eq.mpr hu, rfl⟩

theorem check_fifoRead (b : Bool) (n : BitVec 24) : checkCommand cfg (.fifoRead b fid n) = none :=
  (check_eq_none_iff _ _).mpr ⟨rfl, decide_eq_true hf, rfl, rfl⟩

theorem check_fifoClear : checkCommand cfg (.fifoClear fid) = none :=
  (check_eq_none_iff _ _).mpr ⟨rfl, decide_eq_true hf, rfl, rfl⟩

theorem check_fifoInfo (sel : InfoSel) : checkCommand cfg (.fifoInfo fid sel) = none :=
  (check_eq_none_iff _ _).mpr ⟨rfl, decide_eq_true hf, rfl, rfl⟩

end

/-- A transfer command that passes its checks attempts its request. -/
theorem exec_transferOf {i : Instr} {b : Bool} {r : Request} (kind : transferOf i = some (b, r)) {s : State}
    (check : checkCommand s.cfg i = none) : exec i s = .next (attempt b r s) := by
  cases i with
  | fifoWrite _ _ _ _ => cases kind; exact exec_fifoWrite check
  | fifoRead _ _ _ => cases kind; exact exec_fifoRead check
  | _ => cases kind

/-- Settles O22: a capacity fits a result word, and the counters are words. -/
theorem fifoInfoReadsCapacityAndCounters : Obligations.FifoInfoReadsCapacityAndCounters := by
  unfold Obligations.FifoInfoReadsCapacityAndCounters
  intro s fid h _ hf
  obtain ⟨legal, _⟩ := h
  exact ⟨⟨_, exec_fifoInfo (check_fifoInfo hf .cap), zext32_toNat_of_le_cap legal hf le_rfl⟩,
    exec_fifoInfo (check_fifoInfo hf .ovf), exec_fifoInfo (check_fifoInfo hf .udr)⟩

/-- The payload of a write has the length it asks room for. -/
theorem requestOk_write_length {cfg : Config} {f n : Nat} {u : List Frame} (h : requestOk cfg (.write f n u) = true) :
    u.length = n := by
  simp only [requestOk, decide_eq_true_eq] at h
  obtain ⟨_, _, len, _⟩ := h
  exact len

/-- A request that a port is blocked on is one of this build. -/
theorem requestOk_of_blocked {s : State} (h : StateInv s) {p : Nat} {r : Request} (hp : s.port? p = some (.blocked r)) :
    requestOk s.cfg r = true := phaseOk_of_port h hp

/-! ## A transfer whose condition holds (40_fifo.md R101, R103) -/

section

variable {s : State} {f n : Nat} {u : List Frame}

theorem requestReady_write_iff : requestReady s (.write f n u) = true ↔ (s.fifo f).count + n ≤ s.cfg.capOf f :=
  decide_eq_true_iff

theorem requestReady_read_iff : requestReady s (.read f n) = true ↔ n ≤ (s.fifo f).count := decide_eq_true_iff

/-- A request whose condition holds is transferred, whatever its B bit. -/
theorem attempt_of_ready (b : Bool) {r : Request} (ready : requestReady s r = true) : attempt b r s = transfer r s :=
  if_pos ready

theorem fifoContent_transfer_write (hf : f < s.fifos.length) (ok : FifoOk s.cfg f (s.fifo f)) (hu : u.length = n)
    (ready : requestReady s (.write f n u) = true) :
    fifoContent (transfer (.write f n u) s) f = fifoContent s f ++ u :=
  fifoContent_enqueue ok (hu ▸ requestReady_write_iff.mp ready) (transfer_fifo (r := .write f n u) hf) (transfer_cfg _ _)

theorem fifoContent_transfer_read (hf : f < s.fifos.length) :
    fifoContent (transfer (.read f n) s) f = (fifoContent s f).drop n :=
  fifoContent_dequeue (transfer_fifo (r := .read f n) hf) (transfer_cfg _ _)

/-- A read answers with the oldest units. -/
theorem requestPayload_read (ready : requestReady s (.read f n) = true) :
    requestPayload s (.read f n) = (fifoContent s f).take n := oldestUnits_eq_take (requestReady_read_iff.mp ready)

theorem take_fifoContent_length (enough : n ≤ (s.fifo f).count) : ((fifoContent s f).take n).length = n :=
  List.length_take_of_le (by rwa [fifoContent_length])

end

/-! ## An attempt whose condition does not hold (40_fifo.md R100, R102, R110) -/

@[simp] theorem failureEffect_mem (q : Fifo) (r : Request) : (failureEffect q r).mem = q.mem := by cases r <;> rfl
@[simp] theorem failureEffect_head (q : Fifo) (r : Request) : (failureEffect q r).head = q.head := by cases r <;> rfl
@[simp] theorem failureEffect_tail (q : Fifo) (r : Request) : (failureEffect q r).tail = q.tail := by cases r <;> rfl
@[simp] theorem failureEffect_count (q : Fifo) (r : Request) : (failureEffect q r).count = q.count := by cases r <;> rfl

section

variable {s : State} {r : Request} (notReady : requestReady s r = false)

include notReady

/-- A blocking attempt waits and does nothing else; a non-blocking one counts a failure and answers WOULDBLOCK. -/
theorem attempt_notReady (b : Bool) : attempt b r s =
    (if b then s else s.setFifo r.fid (failureEffect (s.fifo r.fid) r)).setPort s.serving
      (if b then .blocked r else wouldBlockPhase) := by
  rcases attempt_cases b r s with ⟨ready, _⟩ | ⟨_, rfl, h⟩ | ⟨_, rfl, h⟩
  · cases notReady.symm.trans ready
  · exact h
  · rw [h, countFailure_eq]; rfl

theorem attempt_notReady_port (b : Bool) (hs : s.serving < s.ports.length) :
    (attempt b r s).port? s.serving = some (if b then .blocked r else wouldBlockPhase) := by
  rw [attempt_notReady notReady]
  exact State.port_setPort_self _ _ _ (by cases b <;> exact hs)

theorem attempt_notReady_fifo (b : Bool) (hf : r.fid < s.fifos.length) :
    (attempt b r s).fifo r.fid = if b then s.fifo r.fid else failureEffect (s.fifo r.fid) r := by
  rw [attempt_notReady notReady, State.fifo_setPort]
  cases b with
  | true => rfl
  | false => exact State.fifo_setFifo_self _ _ _ hf

/-- Either way no unit moves: the ring is as before. -/
theorem attempt_notReady_ring (b : Bool) (hf : r.fid < s.fifos.length) :
    ((attempt b r s).fifo r.fid).mem = (s.fifo r.fid).mem ∧ ((attempt b r s).fifo r.fid).head = (s.fifo r.fid).head ∧
    ((attempt b r s).fifo r.fid).tail = (s.fifo r.fid).tail ∧
    ((attempt b r s).fifo r.fid).count = (s.fifo r.fid).count := by
  rw [attempt_notReady_fifo notReady b hf]
  cases b <;> simp

theorem fifoContent_attempt_notReady (b : Bool) (hf : r.fid < s.fifos.length) :
    fifoContent (attempt b r s) r.fid = fifoContent s r.fid := by
  rw [attempt_notReady notReady]
  cases b with
  | true => rfl
  | false => exact fifoContent_setFifo_failureEffect hf r

end

/-! ## FIFO_WRITE and FIFO_READ -/

/-- The stores of a batch that fits leave every index alone that is not one of theirs. -/
theorem memFind_enqueue_other {cfg : Config} {f : Nat} {q : Fifo} (h : FifoOk cfg f q) {u : List Frame} {a : Nat}
    (ha : ∀ j < u.length, a ≠ (q.head + j) % cfg.capOf f) :
    memFind (enqueue (cfg.capOf f) u q).mem a = memFind q.mem a := by
  obtain ⟨_, _, _, _, ⟨rising, _⟩, _⟩ := h
  exact memFind_storeUnits_other rising 0 u a ha

/-- Settles O18: by whether there is room for the batch. -/
theorem fifoWriteAppendsOrFails : Obligations.FifoWriteAppendsOrFails := by
  unfold Obligations.FifoWriteAppendsOrFails
  intro s b fid n u h hserving hfid hu f q c
  have serves : ServesFifo f s := ⟨h, hserving, hfid⟩
  have hf := serves.fifo_lt_length
  have run := exec_fifoWrite (check_fifoWrite (cfg := s.cfg) hfid b hu)
  refine ⟨_, run, exec_onlyFifo (r := .write f n.toNat u) rfl run, ?_⟩
  cases ready : requestReady s (.write f n.toNat u) with
  | true =>
    have room : q.count + n.toNat ≤ c := requestReady_write_iff.mp ready
    have stored : (transfer (.write f n.toNat u) s).fifo f = enqueue c u q := transfer_fifo hf
    rw [attempt_of_ready b ready, stored, ← hu]
    refine ⟨rfl, rfl, fun a ha => ?_, fun _ => ⟨transfer_port hserving, ?_, rfl, rfl, rfl⟩, fun full => by omega⟩
    · exact memFind_enqueue_other serves.fifoOk (ha.resolve_right (by omega))
    · exact fifoContent_transfer_write hf serves.fifoOk rfl (hu ▸ ready)
  | false =>
    have full : ¬q.count + n.toNat ≤ c := fun room => by simp [requestReady_write_iff.mpr room] at ready
    have counted : (attempt b (.write f n.toNat u) s).fifo f = if b then q else countOverflow q :=
      attempt_notReady_fifo ready b hf
    have answer := attempt_notReady_port ready b hserving
    obtain ⟨mem, head, tail, count⟩ := attempt_notReady_ring ready b hf
    refine ⟨?_, tail, fun a _ => congrArg (memFind · a) mem, fun room => absurd room full, fun _ =>
      ⟨fifoContent_attempt_notReady ready b hf, head, count, ?_, ?_⟩⟩
    · rw [counted]
      cases b <;> rfl
    · rintro rfl
      exact ⟨answer, counted ▸ satInc_toNat q.ovf⟩
    · rintro rfl
      exact ⟨answer, congrArg Fifo.ovf counted⟩

/-- Settles O19: by whether there are enough units. -/
theorem fifoReadRemovesOrFails : Obligations.FifoReadRemovesOrFails := by
  unfold Obligations.FifoReadRemovesOrFails
  intro s b fid n h hserving hfid f q
  have serves : ServesFifo f s := ⟨h, hserving, hfid⟩
  have hf := serves.fifo_lt_length
  have run := exec_fifoRead (check_fifoRead (cfg := s.cfg) hfid b n)
  refine ⟨_, run, exec_onlyFifo (r := .read f n.toNat) rfl run, ?_⟩
  cases ready : requestReady s (.read f n.toNat) with
  | true =>
    have enough : n.toNat ≤ q.count := requestReady_read_iff.mp ready
    have removed : (transfer (.read f n.toNat) s).fifo f = dequeue (s.cfg.capOf f) n.toNat q := transfer_fifo hf
    rw [attempt_of_ready b ready, removed]
    refine ⟨rfl, rfl, rfl, fun _ => ⟨?_, take_fifoContent_length enough, fifoContent_transfer_read hf, rfl, rfl, rfl⟩,
      fun few => by omega⟩
    exact requestPayload_read ready ▸ transfer_port hserving
  | false =>
    have few : ¬n.toNat ≤ q.count := fun enough => by simp [requestReady_read_iff.mpr enough] at ready
    have counted : (attempt b (.read f n.toNat) s).fifo f = if b then q else countUnderrun q :=
      attempt_notReady_fifo ready b hf
    have answer := attempt_notReady_port ready b hserving
    obtain ⟨mem, head, tail, count⟩ := attempt_notReady_ring ready b hf
    refine ⟨?_, head, mem, fun enough => absurd enough few, fun _ =>
      ⟨fifoContent_attempt_notReady ready b hf, tail, count, ?_, ?_⟩⟩
    · rw [counted]
      cases b <;> rfl
    · rintro rfl
      exact ⟨answer, counted ▸ satInc_toNat q.udr⟩
    · rintro rfl
      exact ⟨answer, congrArg Fifo.udr counted⟩

/-! ## FIFO_CLEAR (40_fifo.md R106) -/

/-- A clear leaves a port alone that is not blocked on its FIFO. -/
theorem abortPhase_of_not_waiting {f : Nat} {ph : Phase} (h : ∀ r, ph = .blocked r → r.fid ≠ f) : abortPhase f ph = ph := by
  cases ph with
  | blocked r => exact if_neg (h r rfl)
  | idle | issued _ | done _ => rfl

/-- A clear answers a request blocked on its FIFO. -/
theorem abortPhase_of_waiting {f : Nat} {r : Request} (h : r.fid = f) :
    abortPhase f (.blocked r) = .done ⟨.aborted, 0#32, []⟩ := if_pos h

theorem clearFifo_port_of_not_waiting {s : State} {f q : Nat} (h : ∀ r, s.port? q = some (.blocked r) → r.fid ≠ f) :
    (clearFifo f s).port? q = s.port? q := by
  rw [clearFifo_port]
  cases hq : s.port? q with
  | none => rfl
  | some ph => exact congrArg some (abortPhase_of_not_waiting fun r e => h r (e ▸ hq))

/-- Settles O21: the clear of the FIFO and of each port, then the answer on the port being served. -/
theorem fifoClearEmptiesAndAborts : Obligations.FifoClearEmptiesAndAborts := by
  unfold Obligations.FifoClearEmptiesAndAborts
  intro s fid hserving hfid hlen f
  have hf : f < s.fifos.length := hlen ▸ hfid
  have run := exec_fifoClear (s := s) (check_fifoClear hfid)
  obtain ⟨world, slots, fifos⟩ := exec_fifoClear_frame run
  rw [respond_eq] at run
  refine ⟨_, run, world, slots, fifos, State.port_setPort_self _ _ _ (by simpa using hserving), fifoContent_clearFifo hf,
    clearFifo_fifo hf, by simp, fun q r hne hq hr => ?_, fun q hne hq => ?_⟩
  · rw [clearFifo_serving, State.port_setPort_other _ _ _ _ hne, clearFifo_port, hq, Option.map_some,
      abortPhase_of_waiting hr]
  · rw [clearFifo_serving, State.port_setPort_other _ _ _ _ hne, clearFifo_port_of_not_waiting hq]

/-- A clear that is performed on an existing FIFO leaves it empty. -/
theorem exec_fifoClear_content {fid : BitVec 3} {s t : State} (hf : fid.toNat < s.fifos.length)
    (hfid : fid.toNat < numFifo) (h : exec (.fifoClear fid) s = .next t) : fifoContent t fid.toNat = [] := by
  obtain rfl := Host.Outcome.next.inj ((exec_fifoClear (check_fifoClear hfid)).symm.trans h)
  exact fifoContent_clearFifo hf

/-! ## No transfer is partial (40_fifo.md R108) -/

/-- From `s` to `t` all units of the request moved; `u` is the payload of the answer. -/
def MovedWhole (s t : State) (u : List Frame) : Request → Prop
  | .write f n v => v.length = n ∧ u = [] ∧ fifoContent t f = fifoContent s f ++ v
  | .read f n => u.length = n ∧ fifoContent s f = u ++ fifoContent t f

/-- Answer `r` of request `req`, given in a step from `s` to `t`: OK and all units moved, or not OK and none did. -/
def WholeOrNone (s t : State) (req : Request) (r : Response) : Prop :=
  (r.status = .ok ∧ MovedWhole s t r.payload req) ∨
  (r.status ≠ .ok ∧ r.payload = [] ∧
    (fifoContent t req.fid = fifoContent s req.fid ∨ (r.status = .aborted ∧ fifoContent t req.fid = [])))

/-- A transfer whose condition holds moves all units. -/
theorem transfer_movedWhole {s : State} (h : StateInv s) {r : Request} (hr : requestOk s.cfg r = true)
    (ready : requestReady s r = true) : MovedWhole s (transfer r s) (requestPayload s r) r := by
  obtain ⟨_, nf, _, _, fifos, _, _⟩ := h
  have hfid := requestOk_fid_lt hr
  cases r with
  | write f n u =>
    have len := requestOk_write_length hr
    exact ⟨len, rfl, fifoContent_transfer_write (nf ▸ hfid) (fifos f hfid) len ready⟩
  | read f n =>
    rw [requestPayload_read ready]
    refine ⟨take_fifoContent_length (requestReady_read_iff.mp ready), ?_⟩
    rw [fifoContent_transfer_read (nf ▸ hfid), List.take_append_drop]

/-- An answer to a transfer command that is performed. -/
theorem exec_wholeOrNone {s t : State} (h : StateInv s) (hs : s.serving < s.ports.length) {c : Command} {i : Instr}
    {b : Bool} {req : Request} (fits : c.fits s.cfg) (hd : decode c = .ok i) (kind : transferOf i = some (b, req))
    (hx : exec i s = .next t) {r : Response} (answer : t.port? s.serving = some (.done r)) : WholeOrNone s t req r := by
  cases check : checkCommand s.cfg i with
  | some st =>
    obtain rfl := Host.Outcome.next.inj ((exec_refused check).symm.trans hx)
    cases (State.port_setPort_self _ _ _ hs).symm.trans answer
    refine .inr ⟨?_, rfl, .inl rfl⟩
    rcases checkCommand_status check with rfl | rfl | rfl | rfl <;> simp
  | none =>
    have hr := requestOk_of_check fits hd check kind
    obtain rfl := Host.Outcome.next.inj ((exec_transferOf kind check).symm.trans hx)
    cases ready : requestReady s req with
    | true =>
      rw [attempt_of_ready b ready] at answer ⊢
      cases (transfer_port hs).symm.trans answer
      exact .inl ⟨rfl, transfer_movedWhole h hr ready⟩
    | false =>
      obtain ⟨_, nf, _⟩ := h
      have same := fifoContent_attempt_notReady ready b (nf ▸ requestOk_fid_lt hr)
      have waits := (attempt_notReady_port ready b hs).symm.trans answer
      cases b with
      | true => cases waits
      | false => cases waits; exact .inr ⟨by simp, rfl, .inl same⟩

/-- A command performed on another port leaves an issued one. -/
theorem exec_issued_other {i : Instr} {s t : State} {p : Nat} {c : Command} (hp : s.port? p = some (.issued c))
    (hne : p ≠ s.serving) (h : exec i s = .next t) : t.port? p = some (.issued c) := by
  cases performed_of_exec h with
  | refused _ | waits _ _ _ | failed _ _ _ | queried _ | onSlot _ _ =>
    exact (State.port_setPort_other _ _ _ _ hne).trans hp
  | transferred _ _ _ => exact (transfer_port_other hne).trans hp
  | cleared _ _ =>
    rw [State.port_setPort_other _ _ _ _ hne, clearFifo_port_of_not_waiting (by simp [hp]), hp]

/-- What an event does to an issued command: nothing, or it performs it, or it is reset. -/
theorem takeEvent_issued {e : Event} {s t : State} {p : Nat} {c : Command} {i : Instr}
    (hlen : s.ports.length = s.cfg.numPorts) (hp : s.port? p = some (.issued c)) (hd : decode c = .ok i)
    (h : takeEvent e s = .next t) :
    t.port? p = some (.issued c) ∨ exec i (serve p s) = .next t ∨ t.port? p = some .idle := by
  have other {q : Nat} {ph : Phase} (hq : s.port? q = some ph) (hph : ph ≠ .issued c) : p ≠ q := by
    rintro rfl
    exact hph (Option.some.inj (hq.symm.trans hp))
  rcases takeEvent_cases e s t h with ⟨rfl, _⟩ | ⟨q, c', _, hq, _, rfl⟩ | ⟨q, c', x, _, hq, hd', rfl⟩ |
    ⟨q, c', i', _, hq, hd', hx⟩ | ⟨q, r, _, hq, _, rfl⟩ | ⟨q, r, _, hq, rfl⟩ | ⟨_, rfl⟩
  · exact .inl hp
  · exact .inl ((State.port_setPort_other _ _ _ _ (other hq nofun)).trans hp)
  · have hne : p ≠ q := other hq fun e => by cases e; cases hd.symm.trans hd'
    exact .inl ((State.port_setPort_other _ _ _ _ hne).trans hp)
  · by_cases hpq : p = q
    · subst hpq
      cases hq.symm.trans hp
      cases hd.symm.trans hd'
      exact .inr (.inl hx)
    · exact .inl (exec_issued_other (s := serve q s) hp hpq hx)
  · exact .inl ((transfer_port_other (s := serve q s) (other hq nofun)).trans hp)
  · exact .inl ((State.port_setPort_other _ _ _ _ (other hq nofun)).trans hp)
  · exact .inr (.inr (resetOf_port (hlen ▸ (List.getElem?_eq_some_iff.mp hp).1)))

/-- The request of an issued command is that of the transfer it decodes to. -/
theorem transferOf_of_requestOf {c : Command} {req : Request} (h : requestOf (.issued c) = some req) :
    ∃ i b, decode c = .ok i ∧ transferOf i = some (b, req) := by
  unfold requestOf at h
  dsimp only at h
  split at h
  · next b fid n u hd => exact ⟨_, b, hd, congrArg (Option.map (b, ·)) h⟩
  · next b fid n hd => exact ⟨_, b, hd, congrArg (Option.map (b, ·)) h⟩
  · cases h

/-- An answer to an issued or a blocked transfer. -/
theorem takeEvent_wholeOrNone {e : Event} {s t : State} (h : StateInv s) (ht : takeEvent e s = .next t) {p : Nat}
    {ph : Phase} {req : Request} {r : Response} (hp : s.port? p = some ph) (hreq : requestOf ph = some req)
    (answer : t.port? p = some (.done r)) : WholeOrNone s t req r := by
  obtain ⟨_, nf, _, np, _⟩ := id h
  have hs : p < s.ports.length := (List.getElem?_eq_some_iff.mp hp).1
  cases ph with
  | idle | done _ => cases hreq
  | issued c =>
    obtain ⟨i, b, hd, kind⟩ := transferOf_of_requestOf hreq
    rcases takeEvent_issued np hp hd ht with stays | hx | idle
    · cases stays.symm.trans answer
    · have fits : c.fits s.cfg := of_decide_eq_true (phaseOk_of_port h hp)
      exact exec_wholeOrNone (s := serve p s) h hs fits hd kind hx answer
    · cases idle.symm.trans answer
  | blocked req' =>
    cases hreq
    have hr := requestOk_of_blocked h hp
    rcases takeEvent_blocked np hp ht with stays | ⟨rfl, ready, ok⟩ | ⟨q, c, fid, rfl, hq, hd, hfid, aborted⟩ | ⟨_, idle⟩
    · cases stays.symm.trans answer
    · cases ok.symm.trans answer
      obtain rfl := Host.Outcome.next.inj ((takeEvent_complete hp ready).symm.trans ht)
      exact .inl ⟨rfl, transfer_movedWhole (s := serve p s) h hr ready⟩
    · cases aborted.symm.trans answer
      rw [takeEvent_perform_ok hq hd] at ht
      refine .inr ⟨by simp, rfl, .inr ⟨rfl, ?_⟩⟩
      rw [← hfid]
      have hlt : fid.toNat < numFifo := hfid ▸ requestOk_fid_lt hr
      exact exec_fifoClear_content (s := serve q s) (nf ▸ hlt) hlt ht
    · cases idle.symm.trans answer

/-- Settles O23: an answer is given by a performed command, a completion or a clear. -/
theorem noPartialTransfer : Obligations.NoPartialTransfer := by
  unfold Obligations.NoPartialTransfer
  intro s t p ph req r h hstep hp hreq answer
  obtain ⟨a, d, ht⟩ := takeEvent_of_step hstep
  rcases takeEvent_wholeOrNone (s := { s with agenda := a, draws := d }) h ht hp hreq answer with
    ⟨ok, moved⟩ | ⟨notOk, noneMoved⟩
  · refine ⟨fun _ => ?_, fun notOk => absurd ok notOk⟩
    cases req <;> exact moved
  · exact ⟨fun ok => absurd ok notOk, fun _ => noneMoved⟩

/-! ## Blocked requests (40_fifo.md R111 to R113) -/

/-- Settles O28: what an event does to a blocked request. -/
theorem blockedRequestEndsOnlySo : Obligations.BlockedRequestEndsOnlySo := by
  unfold Obligations.BlockedRequestEndsOnlySo
  intro s t p r hlen hstep hp e
  obtain ⟨a, d, ht⟩ := takeEvent_of_step hstep
  rcases takeEvent_blocked (s := { s with agenda := a, draws := d }) hlen hp ht with
    stays | ⟨he, ready, ok⟩ | cleared | reset
  · exact .inl stays
  · exact .inr (.inl ⟨he, ready, _, ok⟩)
  · exact .inr (.inr (.inl cleared))
  · exact .inr (.inr (.inr reset))

section

variable {s : State} {p : Nat} {r : Request} (hp : s.port? p = some (.blocked r))

include hp

/-- A blocked request whose condition does not hold cannot be completed. -/
theorem not_enabled_complete (notReady : requestReady s r = false) : enabled s (.complete p) = false := by
  simp [enabled, readyRequest, hp, notReady]

theorem step_complete_ready {rest : List Event} (hagenda : s.agenda = .complete p :: rest)
    (ready : requestReady s r = true) : step s = .next (transfer r (serve p { s with agenda := rest })) := by
  rw [step_of_agenda hagenda]
  exact takeEvent_complete (s := { s with agenda := rest }) hp ready

theorem step_complete_notReady {rest : List Event} (hagenda : s.agenda = .complete p :: rest)
    (notReady : requestReady s r = false) : step s = .next { s with agenda := rest } := by
  rw [step_of_agenda hagenda]
  exact takeEvent_of_not_enabled (not_enabled_complete (s := { s with agenda := rest }) hp notReady)

end

/-- Settles O27: the step is the transfer, or it is not enabled (log entry 5). -/
theorem completionTransfersAtOnce : Obligations.CompletionTransfersAtOnce := by
  unfold Obligations.CompletionTransfersAtOnce
  intro s p r rest h hagenda hp f ready
  let m := serve p { s with agenda := rest }
  have hs : p < s.ports.length := (List.getElem?_eq_some_iff.mp hp).1
  have hr := requestOk_of_blocked h hp
  have serves : ServesFifo f m := ⟨h, hs, requestOk_fid_lt hr⟩
  have ready_iff : ready ↔ requestReady s r = true := by
    obtain ⟨count, _⟩ := serves.fifoOk
    cases r with
    | write f n u => exact (Nat.le_sub_iff_add_le' count).trans (requestReady_write_iff (u := u)).symm
    | read f n => exact requestReady_read_iff.symm
  rw [ready_iff, Bool.not_eq_true]
  refine ⟨fun ready => ?_, fun notReady => ⟨not_enabled_complete hp notReady, step_complete_notReady hp hagenda notReady⟩⟩
  have hf := serves.fifo_lt_length
  obtain ⟨ovf, udr⟩ := transfer_counters hf r
  have answer : (transfer r m).port? p = some (.done ⟨.ok, 0#32, requestPayload m r⟩) := transfer_port (s := m) hs
  refine ⟨enabled_complete hp ready, transfer r m, step_complete_ready hp hagenda ready, transfer_agenda _ _,
    transfer_slots _ _, fun q hq => transfer_port_other (s := m) hq, fun g hg => transfer_fifo_other (s := m) hg, ovf, udr, ?_⟩
  cases r with
  | write f n u => exact ⟨answer, fifoContent_transfer_write hf serves.fifoOk (requestOk_write_length hr) ready⟩
  | read f n =>
    rw [requestPayload_read (s := m) ready] at answer
    exact ⟨answer, fifoContent_transfer_read hf⟩

/-- Settles O31: the read is a whole transfer on its own port, and leaves fewer units than the blocked read waits for. -/
theorem lateReadMayOvertake : Obligations.LateReadMayOvertake := by
  unfold Obligations.LateReadMayOvertake
  intro s p q n c b fid k rest h hagenda hq enough hp hd available few
  let m := serve p { s with agenda := rest }
  have hs : p < s.ports.length := (List.getElem?_eq_some_iff.mp hp).1
  have hfid : fid.toNat < numFifo := requestOk_fid_lt (requestOk_of_blocked h hq)
  have serves : ServesFifo fid.toNat m := ⟨h, hs, hfid⟩
  have hne : q ≠ p := by
    rintro rfl
    cases hq.symm.trans hp
  have ready : requestReady m (.read fid.toNat k.toNat) = true := requestReady_read_iff.mpr available
  have run : step s = .next (transfer (.read fid.toNat k.toNat) m) := by
    rw [← attempt_of_ready b ready]
    exact (stepPerformsTheDecodedCommand s p c _ rest hagenda hp hd).trans (exec_fifoRead (check_fifoRead hfid b k))
  have answer := transfer_port (s := m) (r := .read fid.toNat k.toNat) hs
  have waits := (transfer_port_other (s := m) (r := .read fid.toNat k.toNat) hne).trans hq
  have left : ((transfer (.read fid.toNat k.toNat) m).fifo fid.toNat).count = (s.fifo fid.toNat).count - k.toNat :=
    congrArg Fifo.count (transfer_fifo (s := m) (r := .read fid.toNat k.toNat) serves.fifo_lt_length)
  rw [requestPayload_read ready] at answer
  refine ⟨enabled_complete hq (requestReady_read_iff.mpr enough), _, run, answer, waits, not_enabled_complete waits ?_⟩
  rw [← Bool.not_eq_true, requestReady_read_iff, left]
  omega

end Sys2Proof.Machine

/-! PROOFS. The delay-line family (41_delay_line.md): DL_WRITE, DL_READ and DL_READI, and what a line reads after writes.

A slot command that passes its checks has its `slotEffect` on the slot it names and answers its result (`exec_slot_next`,
`exec_slot_query`). The words a line reads after many writes come from one write: it puts the new word at lookback 0 and
moves every other word one lookback further (`dlRead_dlWrite_zero`, `dlRead_dlWrite_succ`). -/

namespace Sys2Proof.Machine

/-! ## Slot commands that pass their checks -/

section

variable {i : Instr} {sid : BitVec 8} (kind : slotOf i = some sid)

include kind

/-- A slot command of an existing slot passes, unless it is a SLOT_WR with a register or an operand that is refused. -/
theorem check_slot {cfg : Config} (wf : i.wellFormed = true) (legal : operandLegal i = true)
    (hsid : sid.toNat < cfg.numSlots) : checkCommand cfg i = none := by
  refine (check_eq_none_iff _ _).mpr ⟨wf, ?_, ?_, legal⟩
  all_goals
    cases i with
    | fifoWrite _ _ _ _ | fifoRead _ _ _ | fifoAvailRd _ | fifoAvailWr _ | fifoClear _ | fifoInfo _ _ => cases kind
    | _ => cases kind; simp [targetExists, lengthMatches, hsid]

variable {s : State} (check : checkCommand s.cfg i = none)

include check

/-- A slot command that passes leaves its slot with its effect, answers OK with its result, and changes nothing else. -/
theorem exec_slot_next (hslots : s.slots.length = s.cfg.numSlots) (hs : s.serving < s.ports.length) :
    ∃ t, exec i s = .next t ∧ OnlySlot sid.toNat s t ∧
      Answered s t .ok (slotEffect s.cfg (s.slot sid.toNat) i).2 [] ∧
      t.slot sid.toNat = (slotEffect s.cfg (s.slot sid.toNat) i).1 := by
  have run := exec_slot kind check
  obtain ⟨answer, slot⟩ := exec_slotOutcome kind hslots hs run
  simp only [slotOutcome, check] at answer slot
  exact ⟨_, run, exec_onlySlot kind run, answer, slot⟩

/-- A slot command that passes and writes no slot changes nothing but its port. -/
theorem exec_slot_query (reads : changedSlot i = none) :
    exec i s = .next (s.setPort s.serving (.done ⟨.ok, (slotEffect s.cfg (s.slot sid.toNat) i).2, []⟩)) := by
  rw [exec_slot kind check, slotEffect_fst_of_unchanged reads, State.setSlot_slot]
  rfl

end

theorem slotOk_of_stateInv {s : State} (h : StateInv s) {sid : Nat} (hsid : sid < s.cfg.numSlots) :
    SlotOk s.cfg (s.slot sid) := by
  obtain ⟨_, _, _, _, _, slots, _⟩ := h
  exact slots sid hsid

/-! ## Circular addressing (41_delay_line.md R130, 10_state.md R31) -/

/-- `dl_read` is the model's word of a lookback, written with no negative number. -/
theorem dlRead_eq_lookback {sl : Slot} (hcap : 1 ≤ sl.cap) (k : Nat) : dlRead sl k = lookback sl k := by
  unfold dlRead lookback
  rw [dlIndex_eq hcap]
  congr 2
  omega

section

variable {sl : Slot} (hcur : sl.cur < sl.cap)

include hcur

/-- The cursor wraps once, at the capacity. -/
theorem dlWrite_cur_cases (v : Word) : (dlWrite sl v).cur = if sl.cur + 1 = sl.cap then 0 else sl.cur + 1 := by
  rw [dlWrite_cur]
  split
  · simp [*]
  · exact Nat.mod_eq_of_lt (by omega)

/-- A lookback inside the line is before the cursor, or wraps once. -/
theorem dlIndex_cases {k : Nat} (hk : k < sl.cap) :
    dlIndex sl k = if k < sl.cur then sl.cur - 1 - k else sl.cur + sl.cap - 1 - k := by
  rw [dlIndex_eq (by omega), Nat.min_eq_left (by omega)]
  split
  · rw [show sl.cur + sl.cap - 1 - k = sl.cur - 1 - k + sl.cap by omega, Nat.add_mod_right, Nat.mod_eq_of_lt (by omega)]
  · exact Nat.mod_eq_of_lt (by omega)

/-- Only the oldest word is at the cursor. -/
theorem dlIndex_ne_cur {k : Nat} (hk : k + 1 < sl.cap) : dlIndex sl k ≠ sl.cur := by
  rw [dlIndex_cases hcur (by omega)]
  split <;> omega

theorem dlIndex_dlWrite_zero (v : Word) : dlIndex (dlWrite sl v) 0 = sl.cur := by
  rw [dlIndex_cases (Nat.mod_lt _ (by omega)) (by rw [dlWrite_cap]; omega), dlWrite_cur_cases hcur, dlWrite_cap]
  split <;> split <;> omega

/-- A write moves every word but the oldest one lookback further. -/
theorem dlIndex_dlWrite_succ (v : Word) {k : Nat} (hk : k + 1 < sl.cap) :
    dlIndex (dlWrite sl v) (k + 1) = dlIndex sl k := by
  rw [dlIndex_cases (sl := dlWrite sl v) (Nat.mod_lt _ (by omega)) hk, dlWrite_cur_cases hcur, dlWrite_cap,
    dlIndex_cases hcur (by omega)]
  split <;> split <;> split <;> omega

end

/-! ## What a line reads after writes (41_delay_line.md R134) -/

section

variable {cfg : Config} {sl : Slot} (h : SlotOk cfg sl)

include h

theorem dlRead_dlWrite_zero (v : Word) : dlRead (dlWrite sl v) 0 = v := by
  obtain ⟨_, _, hcur, _, _, _, _, _, hbuf, _⟩ := h
  rw [dlRead, dlIndex_dlWrite_zero hcur, bufRead_dlWrite hbuf, if_pos rfl]

theorem dlRead_dlWrite_succ (v : Word) {k : Nat} (hk : k + 1 < sl.cap) :
    dlRead (dlWrite sl v) (k + 1) = dlRead sl k := by
  obtain ⟨_, _, hcur, _, _, _, _, _, hbuf, _⟩ := h
  rw [dlRead, dlIndex_dlWrite_succ hcur v hk, bufRead_dlWrite hbuf, if_neg (dlIndex_ne_cur hcur hk), dlRead]

theorem slotOk_foldl_dlWrite (vs : List Word) : SlotOk cfg (vs.foldl dlWrite sl) :=
  vs.foldlRecOn dlWrite h fun sl' h' v _ => slotOk_dlWrite h' sl'.fstate v

omit h in
theorem foldl_dlWrite_cap (vs : List Word) : (vs.foldl dlWrite sl).cap = sl.cap :=
  vs.foldlRecOn (motive := fun sl' => sl'.cap = sl.cap) dlWrite rfl fun sl' h' v _ =>
    (dlWrite_cap sl' v).trans h'

/-- After a list of writes, a lookback inside the line and inside the list reads the word written that many writes before the
last. -/
theorem dlRead_foldl_dlWrite (vs : List Word) {k : Nat} (hk : k < sl.cap) (hlen : k < vs.length) :
    some (dlRead (vs.foldl dlWrite sl) k) = vs[vs.length - 1 - k]? := by
  induction vs using List.reverseRecOn generalizing k with
  | nil => cases hlen
  | append_singleton vs v ih =>
    have ok := slotOk_foldl_dlWrite h vs
    rw [List.foldl_append, List.foldl_cons, List.foldl_nil, List.length_append, List.length_singleton]
    rw [List.length_append, List.length_singleton] at hlen
    cases k with
    | zero => rw [dlRead_dlWrite_zero ok]; simp
    | succ k =>
      rw [dlRead_dlWrite_succ ok v (by rwa [foldl_dlWrite_cap]), ih (by omega) (by omega),
        List.getElem?_append_left (by omega)]
      congr 1
      omega

end

/-! ## Interpolation (41_delay_line.md R133) -/

theorem offsetInt_eq (off : Word) : offsetInt off = off.toNat / 2 ^ 16 := by
  have := off.isLt
  rw [offsetInt, BitVec.extractLsb'_toNat, Nat.shiftRight_eq_div_pow, Nat.mod_eq_of_lt (by omega)]

theorem offsetFrac_eq (off : Word) : offsetFrac off = BitVec.ofNat 16 (off.toNat % 2 ^ 16) := by
  apply BitVec.eq_of_toNat_eq
  simp [offsetFrac]

theorem offsetFrac_eq_zero_iff (off : Word) : offsetFrac off = 0#16 ↔ off.toNat % 2 ^ 16 = 0 := by
  rw [offsetFrac_eq, ← BitVec.toNat_inj]
  simp

theorem interpolate_of_frac_zero (sl : Slot) {off : Word} (h : offsetFrac off = 0#16) :
    interpolate sl off = dlRead sl (offsetInt off) := if_pos h

theorem interpolate_of_frac_ne_zero (sl : Slot) {off : Word} (h : offsetFrac off ≠ 0#16) :
    interpolate sl off = f32Add (dlRead sl (offsetInt off))
      (f32Mul (frac16 (offsetFrac off)) (f32Sub (dlRead sl (offsetInt off + 1)) (dlRead sl (offsetInt off)))) := if_neg h

/-- An offset with no fraction reads as DL_READ does. -/
theorem interpolate_append_zero (sl : Slot) (k : BitVec 16) : interpolate sl (k ++ 0#16) = dlRead sl k.toNat := by
  have int : (k ++ 0#16).extractLsb' 16 16 = k := by
    rw [BitVec.extractLsb'_append_eq_of_le le_rfl]; simp
  have frac : offsetFrac (k ++ 0#16) = 0#16 := by
    rw [offsetFrac, BitVec.extractLsb'_append_eq_of_add_le le_rfl]; simp
  rw [interpolate_of_frac_zero sl frac, offsetInt, int]

/-! ## The statements -/

/-- Settles O33: the effect of the command is `dl_write` on its slot. -/
theorem dlWriteStoresAtTheCursor : Obligations.DlWriteStoresAtTheCursor := by
  unfold Obligations.DlWriteStoresAtTheCursor
  intro s sid v h hs hsid sl
  obtain ⟨_, _, _, _, _, _, _, _, hbuf, _⟩ := slotOk_of_stateInv h hsid
  obtain ⟨_, _, hslots, _⟩ := h
  obtain ⟨t, run, only, answer, slot⟩ := exec_slot_next (i := .dlWrite sid v) rfl (check_slot rfl rfl rfl hsid) hslots hs
  refine ⟨t, run, only, answer, ?_⟩
  rw [show t.slot sid.toNat = dlWrite sl v from slot]
  exact ⟨⟨rfl, rfl, rfl, rfl, rfl, rfl, rfl⟩, rfl, rfl, bufRead_dlWrite hbuf v⟩

/-- Settles O36: the last clause is an induction over the writes, newest first (`dlRead_foldl_dlWrite`). -/
theorem delayLineProperties : Obligations.DelayLineProperties := by
  unfold Obligations.DelayLineProperties
  intro cfg sl h
  refine ⟨dlRead_dlWrite_zero h, fun k hk => ?_, interpolate_append_zero sl, fun vs hvs k hk => ?_⟩
  · exact congrArg (bufRead sl) (dlIndex_clamp sl (by omega))
  · exact dlRead_foldl_dlWrite h vs hk (by omega)

/-- Settles O34: the command reads its slot by `dl_read`. -/
theorem dlReadReturnsTheLookback : Obligations.DlReadReturnsTheLookback := by
  unfold Obligations.DlReadReturnsTheLookback
  intro s sid k h _ hsid
  obtain ⟨hcap, _⟩ := slotOk_of_stateInv h hsid
  rw [← dlRead_eq_lookback hcap]
  exact exec_slot_query (i := .dlRead sid k) rfl (check_slot rfl rfl rfl hsid) rfl

/-- Settles O35: the two cases of `interpolate`, by the fraction. -/
theorem dlReadiInterpolates : Obligations.DlReadiInterpolates := by
  unfold Obligations.DlReadiInterpolates
  intro s sid off h _ hsid a b fr
  obtain ⟨hcap, _⟩ := slotOk_of_stateInv h hsid
  have run : exec (.dlReadi sid off) s =
      .next (s.setPort s.serving (.done ⟨.ok, interpolate (s.slot sid.toNat) off, []⟩)) :=
    exec_slot_query (i := .dlReadi sid off) rfl (check_slot rfl rfl rfl hsid) rfl
  rw [run]
  refine ⟨fun zero => ?_, fun nonzero => ?_⟩
  · rw [interpolate_of_frac_zero _ ((offsetFrac_eq_zero_iff off).mpr zero), dlRead_eq_lookback hcap, offsetInt_eq]
  · rw [interpolate_of_frac_ne_zero _ (mt (offsetFrac_eq_zero_iff off).mp nonzero), dlRead_eq_lookback hcap,
      dlRead_eq_lookback hcap, offsetInt_eq, offsetFrac_eq]

end Sys2Proof.Machine

/-! PROOFS. The filter kernel family (42_filter_kernels.md): one step of AP_STEP, COMB_STEP and ER_STEP, their recurrences
over a run of steps, and the coefficients at which they become delays.

Each of the three stores one word at the cursor of its slot (`Kernel`, `exec_kernel`), so a run is told by what the slot
holds before step `n`: the words stored in the steps before, by lookback, and the filter state (`LineAt`). Every step keeps
this (`KernelRun.lineAt`), and the equations of a run are those of one step read through it. -/

namespace Sys2Proof.Machine

/-! ## Zero and one as operands (00_scope.md R10) -/

section

variable {a b c : Word}

theorem sameUpToZeroSign_magnitude (h : SameUpToZeroSign a b) : f32Magnitude a = f32Magnitude b := by
  rcases h with rfl | ⟨ha, hb⟩
  · rfl
  · rw [ha, hb]

theorem sameUpToZeroSign_trans (hab : SameUpToZeroSign a b) (hbc : SameUpToZeroSign b c) : SameUpToZeroSign a c := by
  rcases hab with rfl | ⟨ha, hb⟩
  · exact hbc
  · exact .inr ⟨ha, (sameUpToZeroSign_magnitude hbc).symm.trans hb⟩

theorem f32IsFinite_of_sameUpToZeroSign (h : SameUpToZeroSign a b) (hb : f32IsFinite b = true) : f32IsFinite a = true := by
  rwa [f32IsFinite_iff, sameUpToZeroSign_magnitude h, ← f32IsFinite_iff]

/-- Words of one magnitude field are equal in value where a nonzero field has one sign. -/
theorem sameUpToZeroSign_of_magnitude (hm : f32Magnitude a = f32Magnitude b)
    (hs : f32Magnitude b ≠ 0 → f32Sign a = f32Sign b) : SameUpToZeroSign a b := by
  by_cases hb : f32Magnitude b = 0
  · exact .inr ⟨hm.trans hb, hb⟩
  · exact .inl (f32_ext (hs hb) hm)

theorem f32IsFinite_of_magnitude_zero (h : f32Magnitude a = 0) : f32IsFinite a = true :=
  (f32IsFinite_iff a).2 (by omega)

theorem f32Units_of_magnitude_zero (h : f32Magnitude a = 0) : f32Units a = 0 := by rw [f32Units_eq, h, magUnits_zero]

theorem f32Value_of_magnitude_zero (h : f32Magnitude a = 0) : f32Value a = 0 := by
  rw [f32Value_eq, f32Units_of_magnitude_zero h]
  cases f32Sign a <;> rfl

/-- The sign of a nonzero number is its own. -/
theorem signed_sign_injective {n : Nat} (hn : n ≠ 0) {s t : Bool} (h : signed s n = signed t n) : s = t := by
  match s, t with
  | false, false | true, true => rfl
  | false, true | true, false =>
    rw [signed_false, signed_true] at h
    omega

/-- A finite word's own value needs no rounding. -/
theorem f32Round_units (k : Nat) (ha : f32IsFinite a = true) : f32Round k (f32Units a * 2 ^ k) = f32Magnitude a := by
  rw [f32Units_eq, f32Round_exact, Nat.min_eq_left ((f32IsFinite_iff a).1 ha).le]

/-- Adding a zero of either sign keeps the value of a finite word. -/
theorem f32Add_zero (ha : f32IsFinite a = true) (hb : f32Magnitude b = 0) : SameUpToZeroSign (f32Add a b) a := by
  have hlt := (f32IsFinite_iff a).1 ha
  have value : f32Value a + f32Value b = signed (f32Sign a) (f32Units a) := by
    rw [f32Value_of_magnitude_zero hb, Int.add_zero, f32Value_eq]
  have round := f32Round_units 0 ha
  have sign := signed_sumSign a b
  rw [pow_zero, Nat.mul_one] at round
  rw [value, natAbs_signed] at sign
  rw [f32Add_of_finite ha (f32IsFinite_of_magnitude_zero hb), value, natAbs_signed, round]
  refine sameUpToZeroSign_of_magnitude (f32Pack_magnitude _ (by omega)) fun hne => (f32Sign_pack _ _).trans ?_
  have units : f32Units a ≠ 0 := fun h => hne (magUnits_strictMono.injective (h.trans magUnits_zero.symm))
  exact signed_sign_injective units sign

/-- The difference of +0.0 and a zero of either sign is +0.0. -/
theorem f32Sub_zero_zero (hb : f32Magnitude b = 0) : f32Sub f32Zero b = f32Zero := by
  have hneg : f32Magnitude (f32Neg b) = 0 := by rw [f32Magnitude_neg, hb]
  have sum : f32Value f32Zero + f32Value (f32Neg b) = 0 := by
    rw [f32Value_of_magnitude_zero hneg, f32Value_of_magnitude_zero (by decide), Int.add_zero]
  rw [f32Sub, f32Add_of_finite (by decide) (f32IsFinite_of_magnitude_zero hneg), sumSign, if_pos sum, sum, Int.natAbs_zero,
    f32Round_zero, show f32Sign f32Zero = false by decide, Bool.false_and]
  decide

/-- Subtracting a zero of either sign keeps the value of a finite word. -/
theorem f32Sub_zero (ha : f32IsFinite a = true) (hb : f32Magnitude b = 0) : SameUpToZeroSign (f32Sub a b) a :=
  f32Add_zero ha ((f32Magnitude_neg b).trans hb)

/-- A zero of either sign times a finite word is a zero. -/
theorem f32Mul_zero_left (ha : f32Magnitude a = 0) (hb : f32IsFinite b = true) : f32Magnitude (f32Mul a b) = 0 := by
  rw [f32Mul_of_finite (f32IsFinite_of_magnitude_zero ha) hb, f32Units_of_magnitude_zero ha, Nat.zero_mul, f32Round_zero,
    f32Pack_magnitude _ (by decide)]

theorem f32Mul_zero_right (ha : f32IsFinite a = true) (hb : f32Magnitude b = 0) : f32Magnitude (f32Mul a b) = 0 :=
  f32Mul_comm a b ▸ f32Mul_zero_left hb ha

/-- 1.0 is 2^149 units, which the rounding of a product drops again. -/
theorem f32Mul_one (ha : f32IsFinite a = true) : f32Mul a f32One = a := by
  have one : f32Units f32One = 2 ^ 149 := by decide +kernel
  have hlt := (f32IsFinite_iff a).1 ha
  rw [f32Mul_of_finite ha (by decide), one, f32Round_units 149 ha, show f32Sign f32One = false by decide, Bool.bne_false]
  exact f32_ext (f32Pack_msb _ _) (f32Pack_magnitude _ (by omega))

end

/-! ## One step of a kernel -/

/-- The three kernels (42_filter_kernels.md R151, R156, R162). -/
inductive Kernel where
  | allPass
  | comb
  | reflections

/-- The command that steps a kernel on slot `sid` with the input `x`. -/
def Kernel.command (sid : BitVec 8) (x : Word) : Kernel → Instr
  | .allPass => .apStep sid x
  | .comb => .combStep sid x
  | .reflections => .erStep sid x

/-- The filter state a step leaves: only the comb changes it. -/
def Kernel.nextState (sl : Slot) : Kernel → Word
  | .comb => combState sl
  | .allPass | .reflections => sl.fstate

/-- The word a step stores at the cursor. -/
def Kernel.stored (sl : Slot) (x : Word) : Kernel → Word
  | .allPass => allPassStore sl x
  | .comb => combStore sl x
  | .reflections => x

/-- The result a step answers. -/
def Kernel.output (sl : Slot) (x : Word) : Kernel → Word
  | .allPass => allPassOutput sl x
  | .comb => delayedSample sl
  | .reflections => f32Mul (tapSum (dlWrite sl x)) f32Eighth

/-- The slot a step leaves. -/
def Kernel.next (sl : Slot) (x : Word) (k : Kernel) : Slot :=
  dlWrite { sl with fstate := k.nextState sl } (k.stored sl x)

theorem Kernel.slotEffect_command (k : Kernel) (cfg : Config) (sl : Slot) (sid : BitVec 8) (x : Word) :
    slotEffect cfg sl (k.command sid x) = (k.next sl x, k.output sl x) := by
  cases k <;> rfl

theorem Kernel.slotOf_command (k : Kernel) (sid : BitVec 8) (x : Word) : slotOf (k.command sid x) = some sid := by
  cases k <;> rfl

/-- A kernel step of an existing slot passes its checks. -/
theorem Kernel.check_command (k : Kernel) {cfg : Config} {sid : BitVec 8} (hsid : sid.toNat < cfg.numSlots) (x : Word) :
    checkCommand cfg (k.command sid x) = none :=
  check_slot (k.slotOf_command sid x) (by cases k <;> rfl) (by cases k <;> rfl) hsid

/-- `s` can serve commands on slot `sid`: the slot and the port being served exist. -/
structure ServesSlot (sid : Nat) (s : State) : Prop where
  slots : s.slots.length = s.cfg.numSlots
  port : s.serving < s.ports.length
  slot : sid < s.cfg.numSlots

/-- A command on the slot leaves the slot and the port in place. -/
theorem ServesSlot.of_onlySlot {sid : Nat} {s t : State} (h : ServesSlot sid s) (only : OnlySlot sid s t) :
    ServesSlot sid t := by
  obtain ⟨⟨cfg, serving, _, _⟩, _, ⟨slots, _⟩, ports, _⟩ := only
  exact ⟨by rw [slots, cfg, h.slots], by rw [serving, ports]; exact h.port, by rw [cfg]; exact h.slot⟩

theorem servesSlot_of_stateInv {sid : Nat} {s : State} (h : StateInv s) (hs : s.serving < s.ports.length)
    (hsid : sid < s.cfg.numSlots) : ServesSlot sid s := by
  obtain ⟨_, _, slots, _⟩ := h
  exact ⟨slots, hs, hsid⟩

/-- A kernel step answers OK with its output, leaves its slot with one more word, and changes nothing else. -/
theorem exec_kernel (k : Kernel) {sid : BitVec 8} {s : State} (h : ServesSlot sid.toNat s) (x : Word) :
    ∃ t, exec (k.command sid x) s = .next t ∧ OnlySlot sid.toNat s t ∧
      Answered s t .ok (k.output (s.slot sid.toNat) x) [] ∧ t.slot sid.toNat = k.next (s.slot sid.toNat) x := by
  obtain ⟨t, run, only, answer, slot⟩ :=
    exec_slot_next (k.slotOf_command sid x) (k.check_command h.slot x) h.slots h.port
  rw [k.slotEffect_command] at answer slot
  exact ⟨t, run, only, answer, slot⟩

/-- What a kernel step changes of its slot, register by register and word by word. -/
theorem Kernel.next_effect {k : Kernel} {cfg : Config} {sl sl' : Slot} {x : Word} (ok : SlotOk cfg sl)
    (h : sl' = k.next sl x) :
    SameSettings sl sl' ∧ sl'.fstate = k.nextState sl ∧ sl'.cur = (sl.cur + 1) % sl.cap ∧
      ∀ a, bufRead sl' a = if a = sl.cur then k.stored sl x else bufRead sl a := by
  obtain ⟨_, _, _, _, _, _, _, _, hbuf, _⟩ := ok
  subst h
  exact ⟨⟨rfl, rfl, rfl, rfl, rfl, rfl, rfl⟩, rfl, rfl,
    bufRead_dlWrite (sl := { sl with fstate := k.nextState sl }) hbuf _⟩

/-- The sum from +0.0, in tap order, of what each tap contributes. -/
def tapTotal (p : Fin 8 → Word) : Word := (List.finRange 8).foldl (fun acc t => f32Add acc (p t)) f32Zero

theorem tapTotal_eq (p : Fin 8 → Word) :
    tapTotal p = f32Add (f32Add (f32Add (f32Add (f32Add (f32Add (f32Add (f32Add f32Zero
      (p 0)) (p 1)) (p 2)) (p 3)) (p 4)) (p 5)) (p 6)) (p 7) := rfl

theorem tapSum_eq_tapTotal {sl : Slot} {h : Fin 8 → Word} (taps : ∀ t : Fin 8, dlRead sl sl.tapd[t].toNat = h t) :
    tapSum sl = tapTotal fun t => f32Mul sl.tapg[t] (h t) := by
  simp only [tapSum, tapTotal, taps]

/-- Settles O37: the delayed sample is the oldest word of the line. -/
theorem apStepFollowsTheRecurrence : Obligations.ApStepFollowsTheRecurrence := by
  unfold Obligations.ApStepFollowsTheRecurrence
  intro s sid x h hs hsid sl d
  have ok := slotOk_of_stateInv h hsid
  obtain ⟨hcap, _, hcur, _⟩ := id ok
  obtain ⟨t, run, only, answer, slot⟩ := exec_kernel .allPass (servesSlot_of_stateInv h hs hsid) x
  exact ⟨t, run, only, answer, (delayedSample_eq hcap hcur).trans (dlRead_eq_lookback hcap _), Kernel.next_effect ok slot⟩

/-- Settles O38: the step of the comb, and its effect on the slot. -/
theorem combStepFollowsTheRecurrence : Obligations.CombStepFollowsTheRecurrence := by
  unfold Obligations.CombStepFollowsTheRecurrence
  intro s sid x h hs hsid sl d fs
  obtain ⟨t, run, only, answer, slot⟩ := exec_kernel .comb (servesSlot_of_stateInv h hs hsid) x
  exact ⟨t, run, only, answer, Kernel.next_effect (slotOk_of_stateInv h hsid) slot⟩

/-- Settles O39: the taps are read from the slot the step leaves. -/
theorem erStepSumsTheTaps : Obligations.ErStepSumsTheTaps := by
  unfold Obligations.ErStepSumsTheTaps
  intro s sid x h hs hsid sl
  have ok := slotOk_of_stateInv h hsid
  obtain ⟨hcap, _⟩ := id ok
  obtain ⟨t, run, only, answer, slot⟩ := exec_kernel .reflections (servesSlot_of_stateInv h hs hsid) x
  obtain ⟨settings, fstate, cur, words⟩ := Kernel.next_effect ok slot
  rw [Kernel.output, tapSum_eq_tapTotal fun _ => dlRead_eq_lookback (sl := dlWrite sl x) hcap _, tapTotal_eq] at answer
  refine ⟨t, run, only, settings, fstate, cur, words, ?_⟩
  rw [slot]
  exact answer

/-! ## What a slot holds in a run of steps (42_filter_kernels.md R152, R157, R163) -/

@[simp] theorem stepsBefore_zero (d : Nat) (v : Nat → Word) : stepsBefore (d + 1) v 0 = f32Zero := rfl

theorem stepsBefore_one_succ (v : Nat → Word) (n : Nat) : stepsBefore 1 v (n + 1) = v n := rfl

/-- One step later, the value of one step more before is the same. -/
theorem stepsBefore_succ_succ (d : Nat) (v : Nat → Word) (n : Nat) : stepsBefore (d + 1) v (n + 1) = stepsBefore d v n := by
  simp only [stepsBefore, Nat.add_lt_add_iff_right, Nat.add_sub_add_right]

/-- The slot `sl` before step `n` of a run that starts on the cleared slot `sl₀` and stores `v`, where `fs` is the filter
state before each step. -/
structure LineAt (cfg : Config) (sl₀ : Slot) (fs v : Nat → Word) (n : Nat) (sl : Slot) : Prop where
  ok : SlotOk cfg sl
  settings : SameSettings sl₀ sl
  fstate : sl.fstate = fs n
  history : ∀ k < sl₀.cap, dlRead sl k = stepsBefore (k + 1) v n

theorem lineAt_start {cfg : Config} {sl₀ : Slot} {fs v : Nat → Word} (ok : SlotOk cfg sl₀)
    (cleared : ∀ a, bufRead sl₀ a = f32Zero) (fstate : sl₀.fstate = fs 0) : LineAt cfg sl₀ fs v 0 sl₀ where
  ok := ok
  settings := ⟨rfl, rfl, rfl, rfl, rfl, rfl, rfl⟩
  fstate := fstate
  history k _ := (cleared _).trans (stepsBefore_zero k v).symm

section

variable {cfg : Config} {sl₀ sl : Slot} {fs v : Nat → Word} {n : Nat} (h : LineAt cfg sl₀ fs v n sl)

include h

/-- The delayed sample is the word stored CAP steps before (42_filter_kernels.md R150). -/
theorem LineAt.delayedSample_eq_stepsBefore : delayedSample sl = stepsBefore sl₀.cap v n := by
  obtain ⟨hcap, _, hcur, _⟩ := h.ok
  obtain ⟨cap, _⟩ := h.settings
  rw [delayedSample_eq hcap hcur, h.history _ (by omega), cap]
  congr 1
  omega

/-- A lookback past the line reads its oldest word. -/
theorem LineAt.dlRead_eq (k : Nat) : dlRead sl k = stepsBefore (min k (sl₀.cap - 1) + 1) v n := by
  obtain ⟨hcap, _⟩ := h.ok
  obtain ⟨cap, _⟩ := h.settings
  rw [← h.history _ (by omega), dlRead, dlRead, dlIndex_eq hcap, dlIndex_eq hcap, cap, Nat.min_assoc,
    Nat.min_self]

theorem LineAt.allPassOutput_eq (x : Word) :
    allPassOutput sl x = f32Sub (stepsBefore sl₀.cap v n) (f32Mul sl₀.gain x) := by
  obtain ⟨_, gain, _⟩ := h.settings
  rw [allPassOutput, h.delayedSample_eq_stepsBefore, gain]

theorem LineAt.allPassStore_eq (x : Word) :
    allPassStore sl x = f32Add x (f32Mul sl₀.gain (stepsBefore sl₀.cap v n)) := by
  obtain ⟨_, gain, _⟩ := h.settings
  rw [allPassStore, h.delayedSample_eq_stepsBefore, gain]

theorem LineAt.combState_eq :
    combState sl = f32Add (f32Mul (stepsBefore sl₀.cap v n) sl₀.damp2) (f32Mul (fs n) sl₀.damp) := by
  obtain ⟨_, _, _, damp, damp2, _⟩ := h.settings
  rw [combState, h.delayedSample_eq_stepsBefore, h.fstate, damp, damp2]

theorem LineAt.combStore_eq (x : Word) : combStore sl x = f32Add x (f32Mul (combState sl) sl₀.fb) := by
  obtain ⟨_, _, fb, _⟩ := h.settings
  rw [combStore, fb]

/-- The taps read what was stored `min TAPD (CAP - 1)` steps before the last one. -/
theorem LineAt.tapSum_eq : tapSum sl =
    tapTotal fun t => f32Mul sl₀.tapg[t] (stepsBefore (min sl₀.tapd[t].toNat (sl₀.cap - 1) + 1) v n) := by
  obtain ⟨_, _, _, _, _, tapd, tapg⟩ := h.settings
  rw [tapSum_eq_tapTotal fun _ => h.dlRead_eq _, tapd, tapg]

/-- Storing the next word keeps the description: every word moves one lookback further. -/
theorem LineAt.next : LineAt cfg sl₀ fs v (n + 1) (dlWrite { sl with fstate := fs (n + 1) } (v n)) where
  ok := slotOk_dlWrite h.ok _ _
  settings := h.settings
  fstate := rfl
  history k hk := by
    obtain ⟨cap, _⟩ := h.settings
    have ok : SlotOk cfg { sl with fstate := fs (n + 1) } := h.ok
    cases k with
    | zero => rw [dlRead_dlWrite_zero ok, stepsBefore_one_succ]
    | succ k =>
      rw [dlRead_dlWrite_succ ok _ (by show k + 1 < sl.cap; omega), stepsBefore_succ_succ]
      exact h.history k (by omega)

end

/-- Steps of kernel `k` with the inputs `x`, performed back to back on slot `sid` from a cleared history: the premises of the
run statements. -/
structure KernelRun (k : Kernel) (sid : BitVec 8) (st : Nat → State) (x : Nat → Word) : Prop where
  inv : StateInv (st 0)
  port : (st 0).serving < (st 0).ports.length
  slot : sid.toNat < (st 0).cfg.numSlots
  cleared : ∀ a, bufRead ((st 0).slot sid.toNat) a = f32Zero
  run : ∀ n, exec (k.command sid (x n)) (st n) = .next (st (n + 1))

section

variable {k : Kernel} {sid : BitVec 8} {st : Nat → State} {x : Nat → Word} (h : KernelRun k sid st x)

include h

theorem KernelRun.serves (n : Nat) : ServesSlot sid.toNat (st n) := by
  induction n with
  | zero => exact servesSlot_of_stateInv h.inv h.port h.slot
  | succ n ih => exact ih.of_onlySlot (exec_onlySlot (k.slotOf_command sid _) (h.run n))

/-- Each step of the run answers its output and leaves its slot with one more word. -/
theorem KernelRun.step (n : Nat) :
    Answered (st n) (st (n + 1)) .ok (k.output ((st n).slot sid.toNat) (x n)) [] ∧
      (st (n + 1)).slot sid.toNat = k.next ((st n).slot sid.toNat) (x n) := by
  obtain ⟨t, run, _, answer, slot⟩ := exec_kernel k (h.serves n) (x n)
  obtain rfl := Host.Outcome.next.inj (run.symm.trans (h.run n))
  exact ⟨answer, slot⟩

/-- The word a step stores is found where the cursor was. -/
theorem KernelRun.bufRead_cur {n : Nat} {cfg : Config} (ok : SlotOk cfg ((st n).slot sid.toNat)) :
    bufRead ((st (n + 1)).slot sid.toNat) ((st n).slot sid.toNat).cur = k.stored ((st n).slot sid.toNat) (x n) := by
  obtain ⟨_, slot⟩ := h.step n
  obtain ⟨_, _, _, words⟩ := Kernel.next_effect ok slot
  rw [words, if_pos rfl]

/-- A run is described by `fs` and `v` where every step of it, on a slot so described, has the filter state and the word
that they name. -/
theorem KernelRun.lineAt {fs v : Nat → Word} (start : fs 0 = ((st 0).slot sid.toNat).fstate)
    (names : ∀ n, LineAt (st 0).cfg ((st 0).slot sid.toNat) fs v n ((st n).slot sid.toNat) →
      k.nextState ((st n).slot sid.toNat) = fs (n + 1) ∧ k.stored ((st n).slot sid.toNat) (x n) = v n) (n : Nat) :
    LineAt (st 0).cfg ((st 0).slot sid.toNat) fs v n ((st n).slot sid.toNat) ∧
      bufRead ((st (n + 1)).slot sid.toNat) ((st n).slot sid.toNat).cur = v n := by
  have line (n : Nat) : LineAt (st 0).cfg ((st 0).slot sid.toNat) fs v n ((st n).slot sid.toNat) := by
    induction n with
    | zero => exact lineAt_start (slotOk_of_stateInv h.inv h.slot) h.cleared start.symm
    | succ n ih =>
      obtain ⟨state, stored⟩ := names n ih
      obtain ⟨_, slot⟩ := h.step n
      rw [slot, Kernel.next, state, stored]
      exact ih.next
  obtain ⟨_, stored⟩ := names n (line n)
  exact ⟨line n, (h.bufRead_cur (line n).ok).trans stored⟩

end

/-! ## The recurrences over a run (42_filter_kernels.md R152, R157, R163) -/

/-- Settles O40: the slot before each step is described by `v`, with a filter state that stays. -/
theorem allPassRecurrenceOverARun : Obligations.AllPassRecurrenceOverARun := by
  unfold Obligations.AllPassRecurrenceOverARun
  intro st sid x v inv hs hsid cleared run d g hv n
  have h : KernelRun .allPass sid st x := ⟨inv, hs, hsid, cleared, run⟩
  obtain ⟨line, stored⟩ := h.lineAt (fs := fun _ => ((st 0).slot sid.toNat).fstate) rfl
    (fun n line => ⟨line.fstate, (line.allPassStore_eq _).trans (hv n).symm⟩) n
  obtain ⟨answer, _⟩ := h.step n
  exact ⟨line.allPassOutput_eq (x n) ▸ answer, stored⟩

/-- Settles O41: the slot before each step is described by `fs` and `v`. -/
theorem combRecurrenceOverARun : Obligations.CombRecurrenceOverARun := by
  unfold Obligations.CombRecurrenceOverARun
  intro st sid x v fs inv hs hsid cleared run sl start hfs hv n
  have h : KernelRun .comb sid st x := ⟨inv, hs, hsid, cleared, run⟩
  have described := h.lineAt (fs := fs) (v := v) start fun n line => by
    have state : combState ((st n).slot sid.toNat) = fs (n + 1) := line.combState_eq.trans (hfs n).symm
    exact ⟨state, (line.combStore_eq _).trans (by rw [state, hv n])⟩
  obtain ⟨line, stored⟩ := described n
  obtain ⟨later, _⟩ := described (n + 1)
  obtain ⟨answer, _⟩ := h.step n
  exact ⟨line.delayedSample_eq_stepsBefore ▸ answer, later.fstate, stored⟩

/-- Settles O42: the taps read the slot after the step, which holds the inputs. -/
theorem earlyReflectionsOverARun : Obligations.EarlyReflectionsOverARun := by
  unfold Obligations.EarlyReflectionsOverARun
  intro st sid x inv hs hsid cleared run sl n
  have h : KernelRun .reflections sid st x := ⟨inv, hs, hsid, cleared, run⟩
  obtain ⟨later, _⟩ := h.lineAt (fs := fun _ => sl.fstate) rfl (fun n line => ⟨line.fstate, rfl⟩) (n + 1)
  obtain ⟨answer, slot⟩ := h.step n
  have output : Kernel.output ((st n).slot sid.toNat) (x n) .reflections =
      f32Mul (tapSum ((st (n + 1)).slot sid.toNat)) f32Eighth := by
    rw [slot]; rfl
  rw [output, later.tapSum_eq, tapTotal_eq] at answer
  simp only [stepsBefore_succ_succ] at answer
  exact answer

/-! ## Coefficients at which a kernel is a delay (42_filter_kernels.md R153, R158, R159) -/

/-- At gain zero an all-pass stores its inputs in value: what it adds to each is a zero, for the words stored before are
finite. -/
theorem allPass_stores_inputs {d : Nat} {g : Word} {v x : Nat → Word} (hd : 1 ≤ d) (gain : f32Magnitude g = 0)
    (inputs : ∀ n, f32IsFinite (x n) = true) (hv : ∀ n, v n = f32Add (x n) (f32Mul g (stepsBefore d v n))) (n : Nat) :
    SameUpToZeroSign (v n) (x n) := by
  induction n using Nat.strongRecOn with
  | ind n ih =>
    have finite : f32IsFinite (stepsBefore d v n) = true := by
      rw [stepsBefore]
      split
      · decide
      · exact f32IsFinite_of_sameUpToZeroSign (ih (n - d) (by omega)) (inputs _)
    rw [hv n]
    exact f32Add_zero (inputs n) (f32Mul_zero_left gain finite)

/-- An all-pass run stores some `v` that meets the recurrence of R152. -/
theorem KernelRun.exists_allPass_recurrence {sid : BitVec 8} {st : Nat → State} {x : Nat → Word}
    (h : KernelRun .allPass sid st x) : ∃ v : Nat → Word, ∀ n, v n = f32Add (x n)
      (f32Mul ((st 0).slot sid.toNat).gain (stepsBefore ((st 0).slot sid.toNat).cap v n)) := by
  refine ⟨fun n => allPassStore ((st n).slot sid.toNat) (x n), fun n => ?_⟩
  obtain ⟨line, _⟩ := h.lineAt (fs := fun _ => ((st 0).slot sid.toNat).fstate)
    (v := fun n => allPassStore ((st n).slot sid.toNat) (x n)) rfl (fun _ line => ⟨line.fstate, rfl⟩) n
  exact line.allPassStore_eq (x n)

/-- Settles O43: the recurrence of O40, where the products with the gain are zeros. -/
theorem allPassAtGainZeroIsADelay : Obligations.AllPassAtGainZeroIsADelay := by
  unfold Obligations.AllPassAtGainZeroIsADelay
  intro st sid x inv hs hsid cleared gain inputs run d n
  obtain ⟨hcap, _⟩ := slotOk_of_stateInv inv hsid
  obtain ⟨v, hv⟩ := KernelRun.exists_allPass_recurrence ⟨inv, hs, hsid, cleared, run⟩
  obtain ⟨answer, _⟩ := allPassRecurrenceOverARun st sid x v inv hs hsid cleared run hv n
  have product : f32Magnitude (f32Mul ((st 0).slot sid.toNat).gain (x n)) = 0 := f32Mul_zero_left gain (inputs n)
  constructor
  · intro early
    rwa [stepsBefore, if_pos early, f32Sub_zero_zero product] at answer
  · intro late
    rw [stepsBefore, if_neg (by omega)] at answer
    have stored := allPass_stores_inputs hcap gain inputs hv (n - d)
    have finite := f32IsFinite_of_sameUpToZeroSign stored (inputs _)
    exact ⟨_, answer, sameUpToZeroSign_trans (f32Sub_zero finite product) stored⟩

/-- Settles O44: the product with the feedback is a zero. -/
theorem combAtFeedbackZeroStoresItsInput : Obligations.CombAtFeedbackZeroStoresItsInput := by
  unfold Obligations.CombAtFeedbackZeroStoresItsInput
  intro sl x feedback input state
  exact f32Add_zero input (f32Mul_zero_right state feedback)

/-- Settles O45: of the two products one is its factor and the other a zero. -/
theorem combDampingExtremes : Obligations.CombDampingExtremes := by
  unfold Obligations.CombDampingExtremes
  intro sl sample state
  constructor
  · intro damp damp2
    rw [combState, damp, damp2, f32Mul_one sample]
    exact f32Add_zero sample (f32Mul_zero_right state (by decide))
  · intro damp damp2
    rw [combState, damp, damp2, f32Mul_one state, f32Add_comm]
    exact f32Add_zero state (f32Mul_zero_right sample (by decide))

end Sys2Proof.Machine

/-! PROOFS. The slot configuration family (43_slot_config.md): SLOT_WR register by register, SLOT_RD and SLOT_CLR, and that
nothing else reaches the read-only registers.

A SLOT_WR of a writable register with an operand it accepts leaves `writeReg` of its slot (`exec_slotWr`); the statements
about it say what `writeReg` does to each register. Of the commands that change a slot, a write of a register other than CAP
is the only one that keeps the cursor and the filter state (`writeReg_history`). -/

namespace Sys2Proof.Machine

/-! ## SLOT_WR (43_slot_config.md R181) -/

section

variable {s : State} {sid : BitVec 8} {reg : SlotReg} {v : Word} (writable : reg.writable = true)
  (operand : refusesNaN reg = true → f32IsNaN v = false)

include writable operand

/-- A SLOT_WR of an existing slot passes where the register is writable and takes the operand. -/
theorem check_slotWr {cfg : Config} (hsid : sid.toNat < cfg.numSlots) : checkCommand cfg (.slotWr sid reg v) = none := by
  refine check_slot (sid := sid) rfl writable ?_ hsid
  cases hr : refusesNaN reg with
  | true => simp [operandLegal, operand hr]
  | false => simp [operandLegal, hr]

/-- Such a SLOT_WR puts the written slot and answers OK. -/
theorem exec_slotWr (hsid : sid.toNat < s.cfg.numSlots) :
    exec (.slotWr sid reg v) s = .next ((s.setSlot sid.toNat (writeReg s.cfg.dmax (s.slot sid.toNat) reg v)).setPort
      s.serving (.done ⟨.ok, 0#32, []⟩)) :=
  exec_slot rfl (check_slotWr writable operand hsid)

/-- Such a SLOT_WR changes nothing but its slot and its answer. -/
theorem exec_slotWr_next (h : ServesSlot sid.toNat s) :
    ∃ t, exec (.slotWr sid reg v) s = .next t ∧ OnlySlot sid.toNat s t ∧ Answered s t .ok 0#32 [] ∧
      t.slot sid.toNat = writeReg s.cfg.dmax (s.slot sid.toNat) reg v :=
  exec_slot_next rfl (check_slotWr writable operand h.slot) h.slots h.port

end

/-! ## CAP and the history (43_slot_config.md R182, R190) -/

/-- Settles O46: the write is `writeCap` on its slot. -/
theorem capWriteIsADestructiveReset : Obligations.CapWriteIsADestructiveReset := by
  unfold Obligations.CapWriteIsADestructiveReset
  intro s sid v h hs hsid sl
  obtain ⟨t, run, only, answer, slot⟩ := exec_slotWr_next (reg := .cap) (v := v) rfl nofun (servesSlot_of_stateInv h hs hsid)
  refine ⟨t, run, only, answer, ?_⟩
  rw [slot]
  exact ⟨rfl, rfl, rfl, bufRead_clearHistory sl, rfl, rfl, rfl, rfl, rfl, rfl⟩

/-- A capacity fits a word, for DMAX does (00_scope.md R5). -/
theorem cap_lt_two_pow {cfg : Config} (legal : cfg.Legal) {sl : Slot} (ok : SlotOk cfg sl) : sl.cap < 2 ^ 32 := by
  obtain ⟨_, _, _, _, _, _, hdmax, _, _⟩ := legal
  obtain ⟨_, hcap, _⟩ := ok
  omega

/-- Writing the capacity a slot has clears its history and no more. -/
theorem writeCap_own {cfg : Config} (legal : cfg.Legal) {sl : Slot} (ok : SlotOk cfg sl) :
    writeCap cfg.dmax sl (BitVec.ofNat 32 sl.cap) = clearHistory sl := by
  have hlt := cap_lt_two_pow legal ok
  obtain ⟨hpos, hmax, _⟩ := ok
  have kept : min (max (capOperand (BitVec.ofNat 32 sl.cap)) 1) cfg.dmax = sl.cap := by
    rw [capOperand, BitVec.toNat_ofNat, Nat.mod_eq_of_lt hlt]
    omega
  rw [writeCap, kept]
  rfl

/-- Settles O50: SLOT_CLR is `clearHistory` on its slot, and so is the write of the slot's own capacity. -/
theorem slotClrZeroesTheHistory : Obligations.SlotClrZeroesTheHistory := by
  unfold Obligations.SlotClrZeroesTheHistory
  intro s sid h hs hsid sl
  have check : checkCommand s.cfg (.slotClr sid) = none := check_slot (sid := sid) rfl rfl rfl hsid
  have same : exec (.slotWr sid .cap (BitVec.ofNat 32 sl.cap)) s = exec (.slotClr sid) s := by
    obtain ⟨legal, _⟩ := id h
    rw [exec_slotWr (reg := .cap) rfl nofun hsid, writeReg, writeCap_own legal (slotOk_of_stateInv h hsid), exec_slot rfl check]
    rfl
  have serves := servesSlot_of_stateInv h hs hsid
  obtain ⟨t, run, only, answer, slot⟩ := exec_slot_next rfl check serves.slots serves.port
  refine ⟨t, run, only, answer, ?_⟩
  rw [slot]
  exact ⟨⟨rfl, rfl, rfl, rfl, rfl, rfl, rfl⟩, rfl, rfl, bufRead_clearHistory sl, same.trans run⟩

/-! ## Coefficients (43_slot_config.md R183, R184, R185) -/

/-- Between words that are no NaN, `clampf` compares by the IEEE order. -/
theorem clampf_eq {v lo hi : Word} (hv : f32IsNaN v = false) (hlo : f32IsNaN lo = false) (hhi : f32IsNaN hi = false) :
    clampf v lo hi = if f32Key v < f32Key lo then lo else if f32Key hi < f32Key v then hi else v := by
  simp only [clampf, f32Lt_iff hv hlo, f32Lt_iff hhi hv]

/-- Settles O47: each write clamps by `clampf`, between bounds that are no NaN. -/
theorem coefficientWritesClamp : Obligations.CoefficientWritesClamp := by
  unfold Obligations.CoefficientWritesClamp
  intro s sid v _ _ hsid hv sl clamped done
  have clamp {lo hi : Word} (hlo : f32IsNaN lo = false) (hhi : f32IsNaN hi = false) : clamped lo hi = clampf v lo hi :=
    (clampf_eq hv hlo hhi).symm
  rw [clamp (by decide) (by decide), clamp (by decide) (by decide), clamp (by decide) (by decide)]
  exact ⟨exec_slotWr rfl (fun _ => hv) hsid, exec_slotWr rfl (fun _ => hv) hsid, exec_slotWr rfl (fun _ => hv) hsid⟩

/-! ## Taps (43_slot_config.md R187, R188) -/

/-- A TAPD write takes the low half of its operand. -/
theorem tapDelayOperand_toNat (v : Word) : (tapDelayOperand v).toNat = v.toNat % 2 ^ 16 := by
  rw [tapDelayOperand, BitVec.extractLsb'_toNat, Nat.shiftRight_zero]

/-- Setting a tap and reading the taps back. -/
theorem getElem_set_tap {α : Type} (taps : Vector α 8) (i : Fin 8) (x : α) :
    (taps.set i x)[i] = x ∧ ∀ j : Fin 8, j ≠ i → (taps.set i x)[j] = taps[j] :=
  ⟨Vector.getElem_set_self _, fun _ hj => Vector.getElem_set_ne _ _ fun e => hj (Fin.ext e.symm)⟩

/-- Settles O48: each write sets one tap of one vector. -/
theorem tapWritesStoreAsWritten : Obligations.TapWritesStoreAsWritten := by
  unfold Obligations.TapWritesStoreAsWritten
  intro s sid i v h hs hsid sl
  have serves := servesSlot_of_stateInv h hs hsid
  refine ⟨?_, fun hv => ?_⟩
  · obtain ⟨t, run, only, answer, slot⟩ := exec_slotWr_next (reg := .tapd i) (v := v) rfl nofun serves
    obtain ⟨this, others⟩ := getElem_set_tap sl.tapd i (tapDelayOperand v)
    refine ⟨t, run, only, answer, ?_⟩
    rw [slot]
    exact ⟨rfl, (congrArg BitVec.toNat this).trans (tapDelayOperand_toNat v), others⟩
  · obtain ⟨t, run, only, answer, slot⟩ := exec_slotWr_next (reg := .tapg i) rfl (fun _ => hv) serves
    obtain ⟨this, others⟩ := getElem_set_tap sl.tapg i v
    refine ⟨t, run, only, answer, ?_⟩
    rw [slot]
    exact ⟨rfl, this, others⟩

/-! ## SLOT_RD (43_slot_config.md R189) -/

/-- A number that fits a word is its zero extension. -/
theorem zext32_toNat {n : Nat} (h : n < 2 ^ 32) : (zext32 n).toNat = n :=
  (BitVec.toNat_ofNat n 32).trans (Nat.mod_eq_of_lt h)

/-- Settles O49: the answer is `readReg` of the slot, and the capacity and the cursor fit a word. -/
theorem slotRdReturnsTheRegister : Obligations.SlotRdReturnsTheRegister := by
  unfold Obligations.SlotRdReturnsTheRegister
  intro s sid reg h _ hsid sl
  have ok := slotOk_of_stateInv h hsid
  obtain ⟨legal, _⟩ := h
  have hcap := cap_lt_two_pow legal ok
  obtain ⟨_, _, hcur, _⟩ := ok
  refine ⟨readReg sl reg, exec_slot_query rfl (check_slot (sid := sid) rfl rfl rfl hsid) rfl, ?_⟩
  cases reg with
  | cap => exact zext32_toNat hcap
  | cur => exact zext32_toNat (hcur.trans hcap)
  | tapd i => exact BitVec.toNat_setWidth_of_le (by decide)
  | gain | fb | damp | damp2 | fstate | tapg _ => rfl

/-! ## The read-only registers (43_slot_config.md R186) -/

/-- A register write other than of CAP keeps the cursor and the filter state. -/
theorem writeReg_history {reg : SlotReg} (h : reg ≠ .cap) (dmax : Nat) (sl : Slot) (v : Word) :
    (writeReg dmax sl reg v).cur = sl.cur ∧ (writeReg dmax sl reg v).fstate = sl.fstate := by
  cases reg with
  | cap => exact absurd rfl h
  | _ => exact ⟨rfl, rfl⟩

/-- A slot is the one put, or as it was: another slot, or one the block does not have. -/
theorem State.slot_setSlot_cases (s : State) (i j : Nat) (sl : Slot) :
    (s.setSlot i sl).slot j = s.slot j ∨ (j = i ∧ (s.setSlot i sl).slot j = sl) := by
  by_cases hj : j = i
  · subst hj
    by_cases hlt : j < s.slots.length
    · exact .inr ⟨rfl, State.slot_setSlot_self s j sl hlt⟩
    · exact .inl (by simp [State.slot, hlt])
  · exact .inl (State.slot_setSlot_other s i j sl hj)

/-- SLOT_WR of a register other than CAP keeps every cursor and filter state. -/
theorem exec_slotWr_history {s t : State} {id : BitVec 8} {reg : SlotReg} {v : Word} (hreg : reg ≠ .cap)
    (h : exec (.slotWr id reg v) s = .next t) (sid : Nat) :
    (t.slot sid).cur = (s.slot sid).cur ∧ (t.slot sid).fstate = (s.slot sid).fstate := by
  cases performed_of_exec h with
  | refused _ | waits _ _ _ | queried _ => exact ⟨rfl, rfl⟩
  | transferred _ kind _ | failed _ kind _ | cleared _ kind => cases kind
  | onSlot _ kind =>
    cases kind
    rw [State.slot_setPort]
    rcases State.slot_setSlot_cases s id.toNat sid (writeReg s.cfg.dmax (s.slot id.toNat) reg v) with same | ⟨rfl, put⟩
    · exact ⟨congrArg Slot.cur same, congrArg Slot.fstate same⟩
    · obtain ⟨cur, fstate⟩ := writeReg_history hreg s.cfg.dmax (s.slot id.toNat) v
      exact ⟨(congrArg Slot.cur put).trans cur, (congrArg Slot.fstate put).trans fstate⟩

/-- The commands that may change the cursor or the filter state of slot `id`. -/
def ChangesHistory (id : BitVec 8) (i : Instr) : Prop :=
  (∃ v, i = .dlWrite id v ∨ i = .apStep id v ∨ i = .combStep id v ∨ i = .erStep id v ∨ i = .slotWr id .cap v) ∨
    i = .slotClr id

/-- A command that changes a cursor or a filter state is one of them. -/
theorem changesHistory_of_exec {i : Instr} {s t : State} {sid : Nat} (h : exec i s = .next t)
    (hne : (t.slot sid).cur ≠ (s.slot sid).cur ∨ (t.slot sid).fstate ≠ (s.slot sid).fstate) :
    ∃ id : BitVec 8, id.toNat = sid ∧ ChangesHistory id i := by
  have changed : changedSlot i = some sid := changedSlot_of_exec h fun same => by simp [same] at hne
  cases i with
  | dlWrite id v => exact ⟨id, Option.some.inj changed, .inl ⟨v, .inl rfl⟩⟩
  | apStep id v => exact ⟨id, Option.some.inj changed, .inl ⟨v, .inr (.inl rfl)⟩⟩
  | combStep id v => exact ⟨id, Option.some.inj changed, .inl ⟨v, .inr (.inr (.inl rfl))⟩⟩
  | erStep id v => exact ⟨id, Option.some.inj changed, .inl ⟨v, .inr (.inr (.inr (.inl rfl)))⟩⟩
  | slotWr id reg v =>
    by_cases hreg : reg = .cap
    · subst hreg
      exact ⟨id, Option.some.inj changed, .inl ⟨v, .inr (.inr (.inr (.inr rfl)))⟩⟩
    · obtain ⟨cur, fstate⟩ := exec_slotWr_history hreg h sid
      exact absurd hne (not_or.mpr ⟨not_not_intro cur, not_not_intro fstate⟩)
  | slotClr id => exact ⟨id, Option.some.inj changed, .inr rfl⟩
  | _ => cases changed

/-- SLOT_WR of a read-only register, and SLOT_WR and SLOT_RD of a SUB with no register, are cases 5 and 4 of 30_encoding.md
R81. -/
theorem r81Illegal_of_protectedAccess {w : Word}
    (h : (w.toNat / 2 ^ 28 = 13 ∧ w.toNat / 2 ^ 24 % 2 ^ 4 ∈ [4, 5, 8]) ∨
      ((w.toNat / 2 ^ 28 = 13 ∨ w.toNat / 2 ^ 28 = 14) ∧ 9 ≤ w.toNat / 2 ^ 24 % 2 ^ 4)) :
    R81Illegal w.toNat := by
  have subValue : w.toNat / 2 ^ 24 % 2 ^ 4 = (fieldSub w).toNat := (fieldSub_toNat w).symm
  rw [← fieldOp_toNat, subValue] at h
  refine (r81Illegal_iff w).mpr (.inr ?_)
  rcases h with ⟨op, sub⟩ | noRegister
  · simp only [List.mem_cons, List.not_mem_nil, or_false] at sub
    exact .inr (.inr (.inr ⟨op, sub⟩))
  · exact .inr (.inr (.inl noRegister))

/-- Settles O51: such words are illegal; a step that changes a slot performs a command of that
slot, or is reset. -/
theorem readOnlyRegistersAreProtected : Obligations.ReadOnlyRegistersAreProtected := by
  unfold Obligations.ReadOnlyRegistersAreProtected
  refine ⟨fun c reserved => ?_, fun s t sid hstep hne => ?_⟩
  · have illegal := r81Illegal_of_protectedAccess reserved
    obtain ⟨_, refused⟩ := illegalWordsAreRefused
    exact ⟨(decode_error_iff c).mpr illegal, fun s p rest hagenda hport => refused s p c rest hagenda hport illegal⟩
  · obtain ⟨a, d, htake⟩ := takeEvent_of_step hstep
    have hslot : t.slot sid ≠ s.slot sid := fun same => by simp [same] at hne
    rcases takeEvent_slot_ne htake hslot with he | ⟨p, c, i, he, hport, hdecode, _⟩
    · exact .inl he
    · rw [he, takeEvent_perform_ok hport hdecode] at htake
      exact .inr ⟨p, c, i, he, hport, hdecode, changesHistory_of_exec htake hne⟩

end Sys2Proof.Machine

/-! PROOFS. The exceptions family (60_exceptions.md): the order of the checks, what a refused command leaves, that no step
stops the machine, and a clear beside a completion.

What refuses a command is its first failing check (`checkCommand`), and only that answers ILLEGAL, BADID, BADLEN or BADVAL
(`exec_answer`). A FIFO_CLEAR is one step that answers its own port, empties its FIFO and moves every other port by
`abortPhase` (`step_clear`), so a request that completed before it keeps its answer and one still blocked is aborted. -/

namespace Sys2Proof.Machine

/-! ## Every step answers a next state (60_exceptions.md R211) -/

/-- Performing a command ends in no fault and no refusal of the model: it is refused with a status, or has its effect. -/
theorem exists_exec_next (i : Instr) (s : State) : ∃ t, exec i s = .next t := by
  rcases exec_cases i s with ⟨_, _, e⟩ | ⟨_, ⟨_, _, _, _, _, e⟩ | ⟨_, _, _, _, e⟩ | ⟨_, _, _, e⟩ | ⟨_, _, e⟩ | ⟨_, _, e⟩⟩
  all_goals exact ⟨_, e⟩

theorem exists_takeEvent_next (e : Event) (s : State) : ∃ t, takeEvent e s = .next t := by
  cases e with
  | perform p =>
    rw [takeEvent, performStep]
    split
    · exact ⟨_, rfl⟩
    · split
      · exact exists_exec_next _ _
      · exact ⟨_, rfl⟩
  | issue _ _ | complete _ | collect _ | reset => exact ⟨_, rfl⟩

/-- Settles O8: a step takes one event. -/
theorem everyStepAnswersNext : Obligations.EveryStepAnswersNext := by
  unfold Obligations.EveryStepAnswersNext
  exact fun s => exists_takeEvent_next _ _

/-! ## The checks that fail, in their order (60_exceptions.md R202) -/

section

variable {i : Instr} {s : State} (wf : i.wellFormed = true)

include wf

/-- A missing target is found before the payload and the operand are looked at. -/
theorem exec_badId (missing : targetExists s.cfg i = false) :
    exec i s = .next (s.setPort s.serving (.done ⟨.badId, 0#32, []⟩)) :=
  exec_refused (by simp [checkCommand, wf, missing])

variable (target : targetExists s.cfg i = true)

include target

/-- A payload of another length is found before the operand is looked at. -/
theorem exec_badLen (mismatch : lengthMatches i = false) :
    exec i s = .next (s.setPort s.serving (.done ⟨.badLen, 0#32, []⟩)) :=
  exec_refused (by simp [checkCommand, wf, target, mismatch])

theorem exec_badVal (len : lengthMatches i = true) (operand : operandLegal i = false) :
    exec i s = .next (s.setPort s.serving (.done ⟨.badVal, 0#32, []⟩)) :=
  exec_refused (by simp [checkCommand, wf, target, len, operand])

end

/-- The target of a slot command is its slot. -/
theorem targetExists_of_slotOf {i : Instr} {sid : BitVec 8} (kind : slotOf i = some sid) (cfg : Config) :
    targetExists cfg i = decide (sid.toNat < cfg.numSlots) := by
  cases i with
  | fifoWrite _ _ _ _ | fifoRead _ _ _ | fifoAvailRd _ | fifoAvailWr _ | fifoClear _ | fifoInfo _ _ => cases kind
  | _ => cases kind; rfl

/-- GAIN, FB, DAMP and the tap gains are writable, and they are what refuses a NaN. -/
theorem writable_and_refusesNaN_of_mem {reg : SlotReg}
    (h : reg ∈ [SlotReg.gain, .fb, .damp] ++ (List.finRange 8).map SlotReg.tapg) :
    reg.writable = true ∧ refusesNaN reg = true := by
  simp only [List.mem_append, List.mem_cons, List.not_mem_nil, or_false, List.mem_map] at h
  rcases h with (rfl | rfl | rfl) | ⟨t, _, rfl⟩ <;> exact ⟨rfl, rfl⟩

/-- Settles O16: each command with its first failing check. -/
theorem failedChecksAnswerInOrder : Obligations.FailedChecksAnswerInOrder := by
  unfold Obligations.FailedChecksAnswerInOrder
  intro s answer
  refine ⟨fun fid missing => ?_, fun sid missing => ?_, fun b fid n u hfid hlen => ?_, fun sid v hsid nan reg hreg => ?_⟩
  · have absent : decide (fid.toNat < numFifo) = false := decide_eq_false (Nat.not_lt.mpr missing)
    exact ⟨fun _ _ _ => exec_badId rfl absent, fun _ _ => exec_badId rfl absent, exec_badId rfl absent,
      exec_badId rfl absent, exec_badId rfl absent, fun _ => exec_badId rfl absent⟩
  · have absent {i : Instr} (kind : slotOf i = some sid) (wf : i.wellFormed = true) : exec i s = .next (answer .badId) :=
      exec_badId wf ((targetExists_of_slotOf kind _).trans (decide_eq_false (Nat.not_lt.mpr missing)))
    exact ⟨fun _ => ⟨absent rfl rfl, absent rfl rfl, absent rfl rfl, absent rfl rfl, absent rfl rfl,
      fun _ writable => absent rfl writable⟩, fun _ => absent rfl rfl, fun _ => absent rfl rfl, absent rfl rfl⟩
  · exact exec_badLen rfl (decide_eq_true hfid) (beq_eq_false_iff_ne.mpr hlen)
  · obtain ⟨writable, refuses⟩ := writable_and_refusesNaN_of_mem hreg
    exact exec_badVal writable (decide_eq_true hsid) rfl (by simp [operandLegal, refuses, nan])

/-! ## Refused commands (60_exceptions.md R201) -/

/-- A command that is answered when it is performed is refused with the status of its failing check, or passes its checks
and is answered OK or WOULDBLOCK. -/
theorem exec_answer {i : Instr} {s t : State} {r : Response} (hs : s.serving < s.ports.length)
    (h : exec i s = .next t) (hr : t.port? s.serving = some (.done r)) :
    checkCommand s.cfg i = some r.status ∨
      checkCommand s.cfg i = none ∧ (r.status = .ok ∨ r.status = .wouldBlock) := by
  have put {m : State} {ph : Phase} (hm : m.ports.length = s.ports.length)
      (hph : (m.setPort s.serving ph).port? s.serving = some (.done r)) : ph = .done r :=
    Option.some.inj ((State.port_setPort_self _ _ _ (hm ▸ hs)).symm.trans hph)
  cases performed_of_exec h with
  | refused check => cases put rfl hr; exact .inl check
  | transferred check _ _ => cases (transfer_port hs).symm.trans hr; exact .inr ⟨check, .inl rfl⟩
  | waits _ _ _ => cases put rfl hr
  | failed check _ _ => cases put rfl hr; exact .inr ⟨check, .inr rfl⟩
  | cleared check _ => cases put (by simp) hr; exact .inr ⟨check, .inl rfl⟩
  | queried check | onSlot check _ => cases put rfl hr; exact .inr ⟨check, .inl rfl⟩

/-- Settles O17: such an answer comes from a failed check, and a check reads only the command and the build. -/
theorem refusedCommandsHaveNoEffect : Obligations.RefusedCommandsHaveNoEffect := by
  unfold Obligations.RefusedCommandsHaveNoEffect
  intro i s t r hs h hr hstatus
  have check : checkCommand s.cfg i = some r.status := by
    rcases exec_answer hs h hr with check | ⟨_, ok | wouldBlock⟩
    · exact check
    · simp [ok] at hstatus
    · simp [wouldBlock] at hstatus
  exact ⟨Host.Outcome.next.inj (h.symm.trans (exec_refused check)), fun s' hcfg => exec_refused (hcfg ▸ check)⟩

/-! ## A clear beside a completion (60_exceptions.md R204) -/

/-- The perform step of an issued FIFO_CLEAR of an existing FIFO. -/
theorem step_clear {s : State} {p : Nat} {c : Command} {fid : BitVec 3} {rest : List Event}
    (hlen : s.fifos.length = numFifo) (hagenda : s.agenda = .perform p :: rest) (hp : s.port? p = some (.issued c))
    (hd : decode c = .ok (.fifoClear fid)) (hfid : fid.toNat < numFifo) :
    ∃ t, step s = .next t ∧ t.agenda = rest ∧ t.port? p = some (.done ⟨.ok, 0#32, []⟩) ∧
      fifoContent t fid.toNat = [] ∧ ∀ q, q ≠ p → t.port? q = (s.port? q).map (abortPhase fid.toNat) := by
  let m : State := { s with agenda := rest, serving := p }
  have hs : p < s.ports.length := (List.getElem?_eq_some_iff.mp hp).1
  have run : step s = .next ((clearFifo fid.toNat m).setPort p (.done ⟨.ok, 0#32, []⟩)) :=
    (stepPerformsTheDecodedCommand s p c _ rest hagenda hp hd).trans (exec_fifoClear (s := m) (check_fifoClear hfid))
  exact ⟨_, run, rfl, State.port_setPort_self _ _ _ (by simpa using hs), fifoContent_clearFifo (s := m) (hlen ▸ hfid),
    fun q hq => (State.port_setPort_other _ _ _ _ hq).trans (clearFifo_port m _ q)⟩

/-- Settles O30: the clear leaves the answer of a completed request, and one it aborted cannot be completed any more. -/
theorem clearAndCompletionInEitherOrder : Obligations.ClearAndCompletionInEitherOrder := by
  unfold Obligations.ClearAndCompletionInEitherOrder
  intro s p q r c fid h hq ready hp hd hfid
  have hlt : fid.toNat < numFifo := hfid ▸ requestOk_fid_lt (requestOk_of_blocked h hq)
  have hs : q < s.ports.length := (List.getElem?_eq_some_iff.mp hq).1
  have hne : q ≠ p := by
    rintro rfl
    cases hq.symm.trans hp
  obtain ⟨_, hlen, _⟩ := h
  rw [← hfid]
  constructor
  · let s₁ : State := { s with agenda := [.complete q, .perform p] }
    let m := serve q { s with agenda := [.perform p] }
    have completes : step s₁ = .next (transfer r m) := step_complete_ready (s := s₁) hq rfl ready
    have answer : (transfer r m).port? q = some (.done ⟨.ok, 0#32, requestPayload m r⟩) := transfer_port (s := m) hs
    have issued : (transfer r m).port? p = some (.issued c) := (transfer_port_other (s := m) hne.symm).trans hp
    obtain ⟨t, clears, _, cleared, empty, others⟩ :=
      step_clear (by simpa [m] using hlen) (transfer_agenda r m) issued hd hlt
    have kept : t.port? q = some (.done ⟨.ok, 0#32, requestPayload m r⟩) := by rw [others q hne, answer]; rfl
    exact ⟨_, t, _, completes, clears, kept, cleared, empty⟩
  · obtain ⟨t, clears, hagenda, cleared, empty, others⟩ :=
      step_clear (s := { s with agenda := [.perform p, .complete q] }) hlen rfl hp hd hlt
    have aborted : t.port? q = some (.done ⟨.aborted, 0#32, []⟩) :=
      (others q hne).trans ((congrArg _ hq).trans (congrArg some (abortPhase_of_waiting hfid.symm)))
    have ended : step t = .next { t with agenda := [] } := by
      rw [step_of_agenda hagenda]
      refine takeEvent_of_not_enabled ?_
      change (readyRequest q t).isSome = false
      simp only [readyRequest, aborted, Option.isSome_none]
    exact ⟨t, _, clears, ended, aborted, cleared, empty⟩

end Sys2Proof.Machine

/-! PROOFS. The reset and hazards family (70_reset_and_hazards.md): what a scripted reset leaves, and a blocked request that
no state of its FIFO can serve.

A reset is a step of the world, enabled in every state, so the scripted step is `resetStep` itself. The condition of a
request bounds its size by the capacity of its FIFO (`size_le_capOf_of_ready`): a write needs that much room, and a read
that many of the units held, of which there are at most as many as the FIFO can hold (R25). -/

namespace Sys2Proof.Machine

/-- Settles O10: the scripted event is a reset, which is taken whatever the state is. -/
theorem resetStepDiscardsEverything : Obligations.ResetStepDiscardsEverything := by
  unfold Obligations.ResetStepDiscardsEverything
  intro s rest hagenda
  have taken : takeEvent .reset { s with agenda := rest } = .next (resetStep { s with agenda := rest }) := rfl
  exact ⟨(step_of_agenda hagenda).trans taken, fun _ => resetOf_port⟩

/-- A request whose condition holds asks for no more units than its FIFO can hold (40_fifo.md R111). -/
theorem size_le_capOf_of_ready {s : State} {r : Request} (held : (s.fifo r.fid).count ≤ s.cfg.capOf r.fid)
    (ready : requestReady s r = true) : r.size ≤ s.cfg.capOf r.fid := by
  cases r with
  | write f n u => exact (Nat.le_add_left n _).trans (requestReady_write_iff.mp ready)
  | read f n => exact (requestReady_read_iff.mp ready).trans held

/-- Settles O29: its condition is false by the size it asks for, and only a condition that holds enables a completion. -/
theorem oversizedRequestNeverCompletes : Obligations.OversizedRequestNeverCompletes := by
  unfold Obligations.OversizedRequestNeverCompletes
  intro s p r h hp oversized
  have hfid : r.fid < numFifo := requestOk_fid_lt (requestOk_of_blocked h hp)
  obtain ⟨_, _, _, _, fifos, _, _⟩ := h
  obtain ⟨held, _⟩ := fifos r.fid hfid
  have notReady : requestReady s r = false :=
    Bool.eq_false_iff.mpr fun ready => Nat.not_le.mpr oversized (size_le_capOf_of_ready held ready)
  exact ⟨not_enabled_complete hp notReady, notReady⟩

end Sys2Proof.Machine
